-- ==== Sys2Proof/Word.lean ====
section
/-!
DEFINITION. The byte and the register word (00_scope R10, R11; 10_state R30).
-/

namespace Sys2Proof

/-- A byte: a sample, a record byte, a header byte (00 R11). -/
abbrev Byte := BitVec 8

/-- A 32-bit register value (10 R30, parameter `REG_WIDTH` of 00 R5). -/
abbrev Word := BitVec 32

end Sys2Proof
end

