-- ==== Sys2Proof/Syntax.lean ====
section
/-!
DEFINITION. The instructions: one constructor for each of the fourteen rows of spec/opcode_table.json. The commands carry
no operand, because the command word packs none (30 R114); their operands are in the latched ARG registers.
-/

namespace Sys2Proof

/-- The two record forms (30 R101, R102) and the twelve commands (30 R115). -/
inductive Instr where
  /-- REC_SHORT, `0LLLLLLL VVVVVVVV` (30 R101). -/
  | recShort (len : BitVec 7) (val : Byte)
  /-- REC_LONG, `1HHHHHHH LLLLLLLL VVVVVVVV` (30 R102). -/
  | recLong (hi : BitVec 7) (lo : Byte) (val : Byte)
  | emitrec
  | encch
  | decch
  | cmpfr
  | dcmfr
  | wrgh
  | wrfr
  | close
  | prgh
  | prfh
  | clrerr
  | srst
deriving DecidableEq, Repr

end Sys2Proof
end

