-- ==== Sys2Proof/WellFormed.lean ====
section
/-!
DEFINITION. Which instructions are well formed: the canonical records (30 R104, R105) and every command.
-/

namespace Sys2Proof

/-- 30 R105: a record of length 1..127 is short and one of length 128..32767 is long. A zero length is illegal in both forms
(30 R104); a long record of length 1..127 is not canonical. A command has no field that could be wrong (30 R114). -/
def WellFormed : Instr → Bool
  | .recShort len _ => len != 0
  | .recLong hi lo _ => decide (128 ≤ hi.toNat * 256 + lo.toNat)
  | .emitrec | .encch | .decch | .cmpfr | .dcmfr | .wrgh | .wrfr
  | .close | .prgh | .prfh | .clrerr | .srst => true

end Sys2Proof
end

