-- ==== Sys2Proof/Decode.lean ====
section
/-!
DEFINITION. Decoding, total on any bytes and any command word, and the encoder written from the same tables (30 R100 to R103,
R106, R114 to R116).
-/

namespace Sys2Proof

/-- What the block decodes: the next bytes of a record stream (30 R100), or the word in the command latch (30 R114). -/
inductive Code where
  | stream (bytes : List Byte)
  | command (w : Word)
deriving DecidableEq, Repr

/-- Why the decoder finds no instruction. -/
inductive DecodeReject where
  /-- The stream ends where a record should begin (41 R180). -/
  | exhausted
  /-- The stream ends inside a record (41 R180). -/
  | truncated
  /-- A reserved or illegal command word (30 R116). -/
  | illegalCommand (w : Word)
deriving DecidableEq, Repr

/-- 30 R106: byte0 alone says how wide a record is. -/
def recordWidth (b0 : Byte) : Nat := if b0.getLsbD 7 then 3 else 2

/-- 30 R100 to R103: the record form that the first bytes of a stream hold. Bit 7 of byte0 selects the form. Illegal lengths
(30 R104) are refused when the record executes (41 R181, R182; log 15). -/
def decodeRecordForm : List Byte → Except DecodeReject Instr
  | [] => .error .exhausted
  | b0 :: rest =>
    if b0.getLsbD 7 then
      match rest with
      | b1 :: b2 :: _ => .ok (.recLong (b0.extractLsb' 0 7) b1 b2)
      | _ => .error .truncated
    else
      match rest with
      | b1 :: _ => .ok (.recShort (b0.extractLsb' 0 7) b1)
      | _ => .error .truncated

/-- 30 R115: the opcode map. -/
def opcodeInstr (op : Byte) : Option Instr :=
  match op.toNat with
  | 0x01 => some .emitrec
  | 0x02 => some .encch
  | 0x03 => some .decch
  | 0x04 => some .cmpfr
  | 0x05 => some .dcmfr
  | 0x06 => some .wrgh
  | 0x07 => some .wrfr
  | 0x08 => some .close
  | 0x09 => some .prgh
  | 0x0A => some .prfh
  | 0x0E => some .clrerr
  | 0x0F => some .srst
  | _ => none

/-- Field OP of a command word (30 R114). -/
def opField (w : Word) : Byte := w.extractLsb' 0 8

/-- The reserved bits [31:8] of a command word (30 R114). -/
def reservedField (w : Word) : BitVec 24 := w.extractLsb' 8 24

/-- 30 R114 to R116: bits [31:8] must be 0 and OP must be one of the twelve opcodes. -/
def decodeCommand (w : Word) : Except DecodeReject Instr :=
  if reservedField w = 0 then
    match opcodeInstr (opField w) with
    | some i => .ok i
    | none => .error (.illegalCommand w)
  else .error (.illegalCommand w)

/-- The decoder, total on both kinds of code. -/
def decode : Code → Except DecodeReject Instr
  | .stream bytes => decodeRecordForm bytes
  | .command w => decodeCommand w

/-! ### The encoder -/

/-- 30 R115: the opcode of a command; a record form has none. -/
def opcode : Instr → Option Byte
  | .recShort _ _ | .recLong _ _ _ => none
  | .emitrec => some 0x01
  | .encch => some 0x02
  | .decch => some 0x03
  | .cmpfr => some 0x04
  | .dcmfr => some 0x05
  | .wrgh => some 0x06
  | .wrfr => some 0x07
  | .close => some 0x08
  | .prgh => some 0x09
  | .prfh => some 0x0A
  | .clrerr => some 0x0E
  | .srst => some 0x0F

/-- The bytes of a REC_SHORT (30 R101). -/
def shortBytes (len : BitVec 7) (val : Byte) : List Byte :=
  [(0#1 ++ len : BitVec (1 + 7)), val]

/-- The bytes of a REC_LONG, high byte of the length first (30 R102, 20 R77). -/
def longBytes (hi : BitVec 7) (lo val : Byte) : List Byte :=
  [(1#1 ++ hi : BitVec (1 + 7)), lo, val]

/-- 30 R118: the command word is `zext_32(OP)`. -/
def commandWord (op : Byte) : Word := op.setWidth 32

/-- The code of an instruction: the bytes of a record (30 R101, R102) or the word of a command (30 R114). -/
def encode : Instr → Code
  | .recShort len val => .stream (shortBytes len val)
  | .recLong hi lo val => .stream (longBytes hi lo val)
  | .emitrec => .command (commandWord 0x01)
  | .encch => .command (commandWord 0x02)
  | .decch => .command (commandWord 0x03)
  | .cmpfr => .command (commandWord 0x04)
  | .dcmfr => .command (commandWord 0x05)
  | .wrgh => .command (commandWord 0x06)
  | .wrfr => .command (commandWord 0x07)
  | .close => .command (commandWord 0x08)
  | .prgh => .command (commandWord 0x09)
  | .prfh => .command (commandWord 0x0A)
  | .clrerr => .command (commandWord 0x0E)
  | .srst => .command (commandWord 0x0F)

/-! ### Words as spec/opcode_table.json numbers them -/

/-- The bytes of a table number of `n` bytes, the most significant first: the table writes a record as byte0, then byte1, then
byte2, with bit 0 the last byte's least significant bit (log 23). -/
def tableBytes : Nat → Nat → List Byte
  | 0, _ => []
  | n + 1, w => BitVec.ofNat 8 (w / 256 ^ n) :: tableBytes n w

/-- The code of a table number: 32 bits are a command word; fewer are a record's bytes, filled up with zero bytes to the longest
record. -/
def tableCode (nbits w : Nat) : Code :=
  if nbits = 32 then .command (BitVec.ofNat 32 w)
  else .stream ((tableBytes (nbits / 8) w ++ [0, 0, 0]).take (max 3 (nbits / 8)))

/-- The instruction the decoder reads from a table number. -/
def decodeTableWord (nbits w : Nat) : Option Instr :=
  match decode (tableCode nbits w) with
  | .ok i => some i
  | .error _ => none

end Sys2Proof
end

