-- ==== Sys2Proof/Config.lean ====
section
/-!
DEFINITION. The parameters a model takes as arguments (00_scope R5) and the free values: constants without a body, so that
nothing can be proved of what they are (log 4, 5, 6, 27).
-/

namespace Sys2Proof

/-- The parameters that 00 R5 leaves to the implementation, carried beside the state so that a statement about every state
is a statement about every value of them (log 6). No step changes them. -/
structure Params where
  /-- `MAGIC`, OPEN (92 D5). -/
  magic : Word
  /-- `FMT_RLE`, OPEN (92 D6). -/
  fmtRle : Word
  /-- `MAX_PIXELS` (00 R6, 92 D8). -/
  maxPixels : Nat
  /-- `DEC_REJECT_NONCANONICAL` (92 D13). -/
  decRejectNoncanonical : Bool
deriving DecidableEq, Repr

/-- 00 R6: `MAX_PIXELS` is chosen so that `8 * N` fits 32 bits. -/
abbrev Params.fits (p : Params) : Prop := 8 * p.maxPixels < 2 ^ 32

namespace Config

/-- The OPEN constant `MAGIC` (00 R5, 92 D5): no value. -/
opaque magic : Word

/-- The OPEN constant `FMT_RLE` (00 R5, 92 D6): no value. -/
opaque fmtRle : Word

/-- The k-th free byte: "any value" of a memory byte (20 R86, 42 R227, 70 R372). -/
opaque freeByte : Nat → Byte

/-- The k-th free word: "any value" of a register read while BUSY = 1 (20 R86, 70 R374). -/
opaque freeWord : Nat → Word

/-- The k-th free count: the length of "any prefix" (70 R372). -/
opaque freeCount : Nat → Nat

/-- Whether the sink accepts at its k-th unplanned answer (20 R80). -/
opaque sinkAccepts : Nat → Bool

/-- What a 32-bit register holds of a number of 2^32 or more, where no rule reduces it (log 27). -/
opaque wideNumber : Nat → Word

/-- The parameters of the block that 00 R5 describes: the defaults of `MAX_PIXELS` and `DEC_REJECT_NONCANONICAL`, the OPEN
ones free. -/
def params : Params where
  magic := magic
  fmtRle := fmtRle
  maxPixels := 536870911
  decRejectNoncanonical := true

end Config

end Sys2Proof
end

