-- ==== Sys2Proof/Machine/State.lean ====
section
/-!
DEFINITION. The state as plain data: the register block (10_state section 2), the internal state the source names (10_state
section 4), host memory and the Byte Sink (20_memory section 1), and the host's pending accesses. Reset values: 10 R54.
-/

namespace Sys2Proof.Machine

/-- 10 R45: the container state. Values 5..7 of the field are never held. -/
inductive CwState where
  | uninit
  | hdr
  | frame
  | closed
  /-- Entered on IoError (43 R250, R260). -/
  | failed
deriving DecidableEq, Repr

/-- 60 R321. -/
inductive EncSub where
  | lenZero
  | lenTooLong
deriving DecidableEq, Repr

/-- 60 R322. -/
inductive FormatSub where
  | exhausted
  | truncated
  | zeroLength
  | nonCanonical
  | overshoot
  | trailing
  | shortHeader
  | badMagic
  | badVersion
deriving DecidableEq, Repr

/-- 60 R326. -/
inductive ArgSub where
  | badStride
  | countRange
  | capacity
  | rangeWrap
  | overlap
deriving DecidableEq, Repr

/-- 60 R320: the errors a command can raise, each with what its report needs (60 R335). Kinds 7 and 8 are the host's and are
never raised (60 R327). -/
inductive BlockError where
  /-- Code 1, with the requested length (60 R321). -/
  | encInvariant (sub : EncSub) (len : Nat)
  /-- Code 2, with the channel and the offset from arg[0] (60 R322). -/
  | format (sub : FormatSub) (channel : Fin 4) (off : Nat)
  /-- Code 3, with the number of bytes the sink accepted (60 R323). -/
  | io (accepted : Nat)
  /-- Code 4, with the container state (60 R324). -/
  | invalidUsage (st : CwState)
  /-- Code 5, with the CMD word (60 R325). -/
  | illegalCommand (w : Word)
  /-- Code 6, with the index of the argument at fault (60 R326). -/
  | argument (sub : ArgSub) (idx : Fin 8)
deriving DecidableEq, Repr

/-- 10 R51: the command latch, the CMD word and copies of ARG0..ARG7. -/
structure Latch where
  word : Word
  args : Vector Word 8
deriving DecidableEq, Repr

/-- Where the engine stands inside the running command (log 20): before its first access, between two samples of a channel
encode, or between two records of a channel decode. -/
inductive Phase where
  | issued
  | encode
  | decode
deriving DecidableEq, Repr

/-- 10 R47, R48: the Run Encoder's sample index, output cursor, run length and run value. -/
structure EncState where
  i : Nat
  w : Nat
  n : Nat
  c : Byte
deriving DecidableEq, Repr

/-- 10 R46, R49: the Run Decoder's byte cursor, owed count and slot index. -/
structure DecState where
  pos : Nat
  owed : Nat
  j : Nat
deriving DecidableEq, Repr

/-- 10 R50: the channel being coded and the byte counts of the channels before it, summed in `total` and listed in `lens`.
In DCMFR, `ch` is the k and `total` the start_k of 42 R228. -/
structure FrameState where
  ch : Fin 4
  total : Nat
  lens : List Nat
deriving DecidableEq, Repr

/-- Host memory (20 R70): the bytes with a known value that is not the one an unlisted address reads as, in rising address
order, and the addresses whose byte is a free value ("any value"), each with the number of that free value (log 3, 4). -/
structure Memory where
  bytes : List Host.Cell
  free : List (Nat × Nat)
deriving DecidableEq, Repr

/-- 20 R80: the sink's answer to one append. `never` is the host-duty breach of 60 R341 (log 5). -/
inductive SinkAnswer where
  | ok
  | fail
  | never
deriving DecidableEq, Repr

/-- The value of a host register write: a number, or the value the host's last read returned (30 R118, `RESn`). -/
inductive HostValue where
  | lit (v : Word)
  | last
deriving DecidableEq, Repr

/-- One action of the world outside the block, or one turn given to the engine (log 2). -/
inductive HostOp where
  /-- A register write of `width` bits at a byte offset (10 R42). -/
  | writeReg (offset width : Nat) (v : HostValue)
  /-- A register read (10 R42). -/
  | readReg (offset width : Nat)
  /-- A host write of one byte of host memory (20 R84, R87). -/
  | writeMem (a : Word) (v : Byte)
  /-- A host read of one byte of host memory (20 R85, R86). -/
  | readMem (a : Word)
  /-- The reset input (70 R370, R372). -/
  | resetInput
  /-- The host opens a Byte Sink with these contents (70 R373). -/
  | openSink (contents : List Byte)
  /-- `WAIT` (30 R120): read STATUS until BUSY = 0. -/
  | wait
  /-- An engine turn. -/
  | engine
  /-- An engine turn in which a codec command goes only to its first internal boundary (log 20). -/
  | engineBegin
deriving DecidableEq, Repr

/-- The reasons the machine stops. Every error of the block is an error report, not a stop (60 R335). -/
inductive Fault where
  /-- Raised by WRGH and WRFR when the sink never answers an append: the block is stuck in BUSY (60 R341, 93 item 20). Safe: the
  model stops where the hardware hangs (log 5). -/
  | sinkNeverAnswers
deriving DecidableEq, Repr

/-- The host actions that have no meaning, and the instructions without a meaning. -/
inductive Refusal where
  /-- Raised by an arm of `exec` whose instruction has no meaning yet. Safe. -/
  | notModelled (mnemonic : String)
  /-- Raised by a register access that is not an aligned 32-bit access inside the block: "a model refuses the host program that
  makes it" (10 R42). Safe. -/
  | badRegisterAccess
  /-- Raised by a host write into a range that the running command reads or writes: "a model refuses it" (20 R87, 70 R376).
  Safe. -/
  | bufferWriteWhileBusy
  /-- Raised when the host opens another sink while a command runs, for which the spec gives no effect (60 R341; log 16). Safe. -/
  | sinkOpenedWhileBusy
deriving DecidableEq, Repr

/-- The state of the block, of the memory and sink it reaches, and of the world outside it. -/
structure State where
  /-- STATUS.BUSY (10 R43). -/
  busy : Bool
  /-- STATUS.ERR (10 R44). -/
  err : Bool
  /-- STATUS.ERRCODE (10 R32). -/
  errCode : BitVec 4
  /-- STATUS.CWSTATE (10 R45). -/
  cwState : CwState
  /-- ERRINFO0 (10 R33). -/
  errInfo0 : Word
  /-- ERRINFO1 (10 R34). -/
  errInfo1 : Word
  /-- SINKOFF (10 R35). -/
  sinkOff : Word
  /-- FRAMES (10 R36). -/
  frames : Word
  /-- ARG0..ARG7 (10 R39). -/
  args : Vector Word 8
  /-- The model's own: which ARG registers the host has written since the last accepted CMD write (70 R380; log 29). -/
  argWritten : Vector Bool 8
  /-- RES0..RES5 (10 R40). -/
  res : Vector Word 6
  /-- The command latch, `none` when empty (10 R51, R54). -/
  latch : Option Latch
  /-- The model's own: where the engine stands in the running command (log 20). -/
  phase : Phase
  /-- The Run Encoder (10 R47, R48). -/
  enc : EncState
  /-- The Run Decoder (10 R46, R49). -/
  dec : DecState
  /-- The Frame Compressor and Decompressor (10 R50, 42 R228). -/
  frame : FrameState
  /-- Host memory (20 R70). -/
  mem : Memory
  /-- The bytes S of the Byte Sink, first byte first (20 R72). -/
  sink : List Byte
  /-- The model's own: the answers the sink gives next; after them its answers are free (log 5). -/
  sinkPlan : List SinkAnswer
  /-- The model's own: the host's actions and engine turns still to come (log 2). -/
  inbox : List HostOp
  /-- The model's own: the value the host's last read returned (log 21). -/
  hostData : Word
  /-- The model's own: how many free values have been drawn (log 4). -/
  draws : Nat
  /-- The parameters, which no step changes (log 6). -/
  params : Params
deriving DecidableEq, Repr

/-- 10 R54: every element of the block at its reset value. Memory and the sink are not changed by a reset; what they, the host's
actions and the parameters hold at the start is log 3, 5, 6 and 7. -/
def State.reset : State where
  busy := false
  err := false
  errCode := 0
  cwState := .uninit
  errInfo0 := 0
  errInfo1 := 0
  sinkOff := 0
  frames := 0
  args := Vector.replicate 8 0
  argWritten := Vector.replicate 8 false
  res := Vector.replicate 6 0
  latch := none
  phase := .issued
  enc := ⟨0, 0, 0, 0⟩
  dec := ⟨0, 0, 0⟩
  frame := ⟨0, 0, []⟩
  mem := ⟨[], []⟩
  sink := []
  sinkPlan := []
  inbox := []
  hostData := 0
  draws := 0
  params := Config.params

end Sys2Proof.Machine
end

