-- ==== Sys2Proof/Machine/Flags.lean ====
section
/-!
DEFINITION. The fields of STATUS and ERRINFO0, and the numbers of the error report: the block has no arithmetic flags, so these
are its flag computations (10 R32 to R34, R45; 60 R320 to R326).
-/

namespace Sys2Proof.Machine

/-- 10 R45: the CWSTATE field. -/
def cwStateCode : CwState → Nat
  | .uninit => 0
  | .hdr => 1
  | .frame => 2
  | .closed => 3
  | .failed => 4

/-- A Bool as a number. -/
def bit (b : Bool) : Nat := if b then 1 else 0

/-- 10 R32: STATUS = BUSY | ERR << 1 | ERRCODE << 4 | CWSTATE << 8; the reserved bits read 0. -/
def statusWord (s : State) : Word :=
  BitVec.ofNat 32
    (bit s.busy ||| bit s.err <<< 1 ||| s.errCode.toNat <<< 4 ||| cwStateCode s.cwState <<< 8)

/-- The bits of STATUS that read as any value while BUSY = 1: ERR, ERRCODE and CWSTATE (70 R374; log 13). -/
def statusDrawMask : Word := 0x7F2

/-- What a read of STATUS returns while BUSY = 1, given a free word: BUSY itself is valid (70 R374; log 13). -/
def busyStatusWord (free : Word) : Word := free &&& statusDrawMask ||| 1

/-- 60 R321. -/
def encSubCode : EncSub → Nat
  | .lenZero => 1
  | .lenTooLong => 2

/-- 60 R322. -/
def formatSubCode : FormatSub → Nat
  | .exhausted => 1
  | .truncated => 2
  | .zeroLength => 3
  | .nonCanonical => 4
  | .overshoot => 5
  | .trailing => 6
  | .shortHeader => 7
  | .badMagic => 8
  | .badVersion => 9

/-- 60 R326. -/
def argSubCode : ArgSub → Nat
  | .badStride => 1
  | .countRange => 2
  | .capacity => 3
  | .rangeWrap => 4
  | .overlap => 5

/-- A number as a 32-bit register value. Of a number of 2^32 or more no rule says which 32 bits are held, and the value is free
(DESIGN CHOICE, log 27). Where a rule gives `mod 2^32` (SINKOFF, FRAMES, RES0 of WRFR), that is used instead. -/
def word32 (n : Nat) : Word := if n < 2 ^ 32 then BitVec.ofNat 32 n else Config.wideNumber n

/-- STATUS.ERRCODE of an error (60 R320). -/
def errorCode : BlockError → BitVec 4
  | .encInvariant _ _ => 1
  | .format _ _ _ => 2
  | .io _ => 3
  | .invalidUsage _ => 4
  | .illegalCommand _ => 5
  | .argument _ _ => 6

/-- ERRINFO0.SUBCODE of an error (60 R321 to R326). -/
def errorSub : BlockError → Nat
  | .encInvariant sub _ => encSubCode sub
  | .format sub _ _ => formatSubCode sub
  | .io _ => 0
  | .invalidUsage st => cwStateCode st
  | .illegalCommand _ => 0
  | .argument sub _ => argSubCode sub

/-- ERRINFO0.CHANNEL of an error: the channel for a FormatError, else 0 (60 R335). -/
def errorChannel : BlockError → Nat
  | .format _ channel _ => channel.val
  | .encInvariant _ _ | .io _ | .invalidUsage _ | .illegalCommand _ | .argument _ _ => 0

/-- ERRINFO0.ARGIDX of an error: the index for an ArgumentError, else 0 (60 R335). -/
def errorArgIdx : BlockError → Nat
  | .argument _ idx => idx.val
  | .encInvariant _ _ | .format _ _ _ | .io _ | .invalidUsage _ | .illegalCommand _ => 0

/-- ERRINFO1 of an error, given the latched arguments (10 R34, 60 R335). Only the count of an IoError can pass 32 bits, in a WRFR
with a dataLength near 2^32 (43 R253, 60 R323; DESIGN CHOICE, log 27). -/
def errorInfo (args : Vector Word 8) : BlockError → Word
  | .encInvariant _ len => BitVec.ofNat 32 len
  | .format _ _ off => BitVec.ofNat 32 off
  | .io accepted => word32 accepted
  | .invalidUsage _ => 0
  | .illegalCommand w => w
  | .argument _ idx => args[idx]

/-- 60 R335: ERRINFO0 = sub | channel << 4 | argidx << 8 | v[7:0] << 16. -/
def errInfo0Word (sub channel argIdx : Nat) (op : Byte) : Word :=
  BitVec.ofNat 32 (sub ||| channel <<< 4 ||| argIdx <<< 8 ||| op.toNat <<< 16)

end Sys2Proof.Machine
end

