-- ==== Sys2Proof/Machine/Ops.lean ====
section
/-!
DEFINITION. The named operations: host memory, views and header fields (20_memory), the command latch and the result registers
(10_state), the error report and the return from it (60_exceptions R335, R337), completion (44 R305), soft reset (44 R307) and
the append to the Byte Sink (20 R80, 43 R253).
-/

namespace Sys2Proof.Machine

/-! ### Lists of addressed values in rising order -/

/-- The value listed for an address. -/
def lookupKey {α : Type} (a : Nat) : List (Nat × α) → Option α
  | [] => none
  | (b, v) :: rest => if b = a then some v else lookupKey a rest

/-- The list without an address. -/
def dropKey {α : Type} (a : Nat) : List (Nat × α) → List (Nat × α)
  | [] => []
  | (b, v) :: rest => if b = a then dropKey a rest else (b, v) :: dropKey a rest

/-- The list with a value for an address, kept in rising order. -/
def putKey {α : Type} (a : Nat) (v : α) : List (Nat × α) → List (Nat × α)
  | [] => [(a, v)]
  | (b, w) :: rest =>
    if b < a then (b, w) :: putKey a v rest
    else if b = a then (a, v) :: rest
    else (a, v) :: (b, w) :: rest

/-- The addresses rise strictly. -/
def risingKeys {α : Type} : List (Nat × α) → Bool
  | [] => true
  | (a, _) :: rest => rest.all (fun c => decide (a < c.1)) && risingKeys rest

/-! ### Host memory (20 R70, R76, R82) -/

/-- What an address that nothing has written reads as: the convention of 95_test_vectors, "host memory bytes not named are 0x00"
(log 3). -/
def unlistedByte : Byte := 0x00

/-- `MemRead(a, 1)` (00 R12). -/
def Memory.read (m : Memory) (a : Nat) : Byte :=
  match lookupKey a m.free with
  | some k => Config.freeByte k
  | none => (lookupKey a m.bytes).getD unlistedByte

/-- `MemWrite(a, 1, v)` (00 R12). -/
def Memory.write (m : Memory) (a : Nat) (v : Byte) : Memory where
  bytes := if v = unlistedByte then dropKey a m.bytes else putKey a v m.bytes
  free := dropKey a m.free

/-- The byte at `a` becomes the free value number `k`. -/
def Memory.forget (m : Memory) (a k : Nat) : Memory where
  bytes := dropKey a m.bytes
  free := putKey a k m.free

/-- The canonical form: both lists rise strictly, no listed byte equals what an unlisted address reads as, and no address is in
both lists. -/
def Memory.wf (m : Memory) : Bool :=
  risingKeys m.bytes && risingKeys m.free
    && m.bytes.all (fun c => c.2 != unlistedByte)
    && m.bytes.all (fun c => (lookupKey c.1 m.free).isNone)

/-- Every listed address is inside the 2^32 bytes of host memory (20 R70). -/
def Memory.inSpace (m : Memory) : Bool :=
  m.bytes.all (fun c => decide (c.1 < 2 ^ 32)) && m.free.all (fun c => decide (c.1 < 2 ^ 32))

/-- Byte writes at increasing addresses. -/
def Memory.writeBytes (m : Memory) (a : Nat) : List Byte → Memory
  | [] => m
  | b :: bs => (m.write a b).writeBytes (a + 1) bs

/-- `MemWrite(slot(j + t), 1, v)` for t in 0..len-1, with slot(j) = dst + stride * j (41 R183). -/
def Memory.fillSlots (m : Memory) (dst stride : Nat) (v : Byte) : Nat → Nat → Memory
  | _, 0 => m
  | j, len + 1 => (m.write (dst + stride * j) v).fillSlots dst stride v (j + 1) len

/-- The `len` bytes from `a` become the free values numbered from `k`. -/
def Memory.forgetRange (m : Memory) : Nat → Nat → Nat → Memory
  | _, 0, _ => m
  | a, len + 1, k => (m.forget a k).forgetRange (a + 1) len (k + 1)

/-- 00 R13: reading `View(base, stride, count)`. -/
def Memory.view (m : Memory) (base stride count : Nat) : List Byte :=
  (List.range count).map fun i => m.read (base + stride * i)

/-- The bytes of the stream `[src, src + len)` that a record at `pos` can have: at most three, none past the end (41 R180). -/
def Memory.window (m : Memory) (src len pos : Nat) : List Byte :=
  m.view (src + pos) 1 (min 3 (len - pos))

/-! ### Header fields (20 R75, R78) -/

/-- 20 R75: `LE32(v)`. -/
def le32 (v : Word) : List Byte :=
  [v.extractLsb' 0 8, v.extractLsb' 8 8, v.extractLsb' 16 8, v.extractLsb' 24 8]

/-- 20 R78: the field whose first byte is at `a`. -/
def Memory.field (m : Memory) (a : Nat) : Word :=
  (m.read (a + 3) ++ m.read (a + 2) ++ m.read (a + 1) ++ m.read a : BitVec (8 + 8 + 8 + 8))

/-! ### The latch and the result registers (10 R40, R51) -/

/-- The command latch. With an empty latch, the live ARG registers and the word 0 stand for it (log 11). -/
def State.running (s : State) : Latch := s.latch.getD ⟨0, s.args⟩

/-- `arg[i]` (44 R301), as a number. -/
def State.arg (s : State) (i : Fin 8) : Nat := s.running.args[i].toNat

/-- `arg[i]` (44 R301), as a register value. -/
def State.argWord (s : State) (i : Fin 8) : Word := s.running.args[i]

/-- The opcode of the latched word. -/
def State.runningOp (s : State) : Byte := opField s.running.word

/-- 44 R300, R301: the word and ARG0..ARG7 go into the command latch and BUSY to 1. From here on ARG writes are for the next
command (70 R380). -/
def latchCommand (w : Word) (s : State) : State :=
  { s with latch := some ⟨w, s.args⟩, busy := true, phase := .issued, argWritten := Vector.replicate 8 false }

/-- `reg[RESi] <- v`, the low 32 bits. -/
def State.setRes (s : State) (i : Fin 6) (v : Word) : State := { s with res := s.res.set i v }

/-! ### Completion, the error report, the return from it, soft reset -/

/-- The Run Encoder with no sample consumed and no run open (10 R47, R48, R54; log 8). -/
def encIdle : EncState := ⟨0, 0, 0, 0⟩

/-- The Run Decoder with nothing owed (10 R49, R54). -/
def decIdle : DecState := ⟨0, 0, 0⟩

/-- No channel coded (10 R50, R54). -/
def frameIdle : FrameState := ⟨0, 0, []⟩

/-- 44 R305: completion. BUSY goes to 0; the latch and the internal state live only for one command (10 R51, R53; log 10). -/
def complete (s : State) : State :=
  { s with busy := false, latch := none, phase := .issued, enc := encIdle, dec := decIdle, frame := frameIdle }

/-- 60 R335: the four registers of the error report. -/
def report (e : BlockError) (s : State) : State :=
  { s with
    err := true
    errCode := errorCode e
    errInfo0 := errInfo0Word (errorSub e) (errorChannel e) (errorArgIdx e) s.runningOp
    errInfo1 := errorInfo s.running.args e }

/-- 60 R335: `raise`. The report is made first, then the command completes (44 R305). No RES register is written. -/
def raise (e : BlockError) (s : State) : State := complete (report e s)

/-- 44 R306, 60 R337: the return from an error report. -/
def clearError (s : State) : State := { s with err := false, errCode := 0, errInfo0 := 0, errInfo1 := 0 }

/-- 44 R307, 70 R370: every register and internal element at the value of 10 R54. Host memory, the sink, the parameters and the
world outside the block are not touched. -/
def softReset (s : State) : State :=
  { s with
    busy := false
    err := false
    errCode := 0
    cwState := .uninit
    errInfo0 := 0
    errInfo1 := 0
    sinkOff := 0
    frames := 0
    args := Vector.replicate 8 0
    argWritten := Vector.replicate 8 false
    res := Vector.replicate 6 0
    latch := none
    phase := .issued
    enc := encIdle
    dec := decIdle
    frame := frameIdle }

/-- ARG0..ARG7 after SRST: 0 (10 R39, R54), but for those that the host has written since SRST's CMD write, which count "for
the next command" (70 R380; DEDUCED, log 29). -/
def argsAfterSrst (s : State) : Vector Word 8 :=
  Vector.ofFn fun i => if s.argWritten[i] then s.args[i] else 0

/-- 44 R307: what SRST does, in a state in which the host may have written ARG registers since its CMD write. -/
def srstReset (s : State) : State := { softReset s with args := argsAfterSrst s }

/-! ### Checks in order (60 R328, R329) -/

/-- The first check that fails, in order: a check is the condition on which it fails, and its error. -/
def firstError : List (Bool × BlockError) → Option BlockError
  | [] => none
  | (bad, e) :: rest => if bad then some e else firstError rest

/-- Runs the body of a command when no check fails, and reports the first failing one otherwise (60 R328, R336). -/
def guarded (checks : List (Bool × BlockError)) (body : State → State) (s : State) : State :=
  match firstError checks with
  | some e => raise e s
  | none => body s

/-! ### The Byte Sink (20 R80, 43 R253) -/

/-- The sink's answer to one append, and the state after asking: the planned answer if there is one, else a free one (log 5).
A planned `never` is met before any append, by `sinkHangs`. -/
def takeAnswer (s : State) : Bool × State :=
  match s.sinkPlan with
  | a :: rest => (a == .ok, { s with sinkPlan := rest })
  | [] => (Config.sinkAccepts s.draws, { s with draws := s.draws + 1 })

/-- 20 R80: `S <- S ++ [b]` and SINKOFF + 1. -/
def acceptByte (b : Byte) (s : State) : State :=
  { s with sink := s.sink ++ [b], sinkOff := s.sinkOff + 1 }

/-- 43 R253: `SinkWrite`, from its byte number `t` on. The result is the state and, if an append failed, how many bytes of the
command were accepted. -/
def sinkWrite : List Byte → Nat → State → State × Option Nat
  | [], _, s => (s, none)
  | b :: bs, t, s =>
    if (takeAnswer s).1 then sinkWrite bs (t + 1) (acceptByte b (takeAnswer s).2)
    else ({ (takeAnswer s).2 with cwState := .failed }, some t)

/-- The plan leaves an append unanswered within the next `n` (60 R341; log 5). -/
def sinkHangs : List SinkAnswer → Nat → Bool
  | _, 0 => false
  | [], _ + 1 => false
  | .ok :: rest, n + 1 => sinkHangs rest n
  | .fail :: _, _ + 1 => false
  | .never :: _, _ + 1 => true

/-- Appends the bytes, then either reports IoError or goes on (43 R253). -/
def sinkThen (bytes : List Byte) (done : State → State) (s : State) : State :=
  match sinkWrite bytes 0 s with
  | (s', some t) => raise (.io t) s'
  | (s', none) => done s'

end Sys2Proof.Machine
end

