-- ==== Sys2Proof/Machine/Operands.lean ====
section
/-!
DEFINITION. The operands of the commands: the range, stride and overlap rules, the checks of every command in the order of
60 R329, the bytes a container command sends to the sink, and the ranges a command reads and writes (20 R86, R87; log 12).
Arguments are unsigned 32-bit numbers used as they are (30 R117), given as `a i` for arg[i].
-/

namespace Sys2Proof.Machine

/-! ### Ranges -/

/-- 20 R71: the range passes 2^32. -/
def wraps (base len : Nat) : Bool := decide (2 ^ 32 < base + len)

/-- 40 R147: the bytes from the first to the last sample of a view. -/
def span (stride count : Nat) : Nat := if count = 0 then 0 else stride * (count - 1) + 1

/-- 40 R147: `Overlap(a, la, b, lb)`. -/
def overlaps (a la b lb : Nat) : Bool :=
  decide (0 < la) && decide (0 < lb) && decide (a < b + lb) && decide (b < a + la)

/-- 40 R147, 41 R187: a stride other than 1 and 4. -/
def badStride (stride : Nat) : Bool := stride != 1 && stride != 4

/-- The width of the record of a length (30 R105). -/
def widthOf (len : Nat) : Nat := if len ≤ 127 then 2 else 3

/-! ### Payload padding and the container's byte strings (30 R111, 43 R251, R252) -/

/-- 30 R111: `pad(L)`. -/
def pad (len : Nat) : Nat := (4 - len % 4) % 4

/-- 43 R251: the Global Header byte string. -/
def globalHeaderBytes (magic w h fr fc : Word) : List Byte :=
  le32 magic ++ le32 1 ++ le32 w ++ le32 h ++ le32 fr ++ le32 fc

/-- 30 R110: the Frame Header byte string. -/
def frameHeaderBytes (w h xo yo fmt len : Word) : List Byte :=
  le32 w ++ le32 h ++ le32 xo ++ le32 yo ++ le32 fmt ++ le32 len

/-- 43 R252: the Frame byte string. -/
def frameBytes (w h xo yo fmt : Word) (payload : List Byte) : List Byte :=
  frameHeaderBytes w h xo yo fmt (BitVec.ofNat 32 payload.length) ++ payload
    ++ List.replicate (pad payload.length) 0

/-! ### The checks of 60 R329, each list in the order tested -/

/-- EMITREC (40 R146). -/
def emitrecChecks (a : Fin 8 → Nat) : List (Bool × BlockError) :=
  [(decide (a 0 = 0), .encInvariant .lenZero (a 0)),
   (decide (32767 < a 0), .encInvariant .lenTooLong (a 0)),
   (decide (a 3 < widthOf (a 0)), .argument .capacity 3),
   (wraps (a 2) (a 3), .argument .rangeWrap 2)]

/-- ENCCH (40 R147). -/
def encchChecks (maxPixels : Nat) (a : Fin 8 → Nat) : List (Bool × BlockError) :=
  [(badStride (a 1), .argument .badStride 1),
   (decide (maxPixels < a 2), .argument .countRange 2),
   (decide (a 4 < 2 * a 2), .argument .capacity 4),
   (wraps (a 0) (span (a 1) (a 2)), .argument .rangeWrap 0),
   (wraps (a 3) (a 4), .argument .rangeWrap 3),
   (overlaps (a 0) (span (a 1) (a 2)) (a 3) (a 4), .argument .overlap 3)]

/-- DECCH, before its records (41 R187). -/
def decchChecks (maxPixels : Nat) (a : Fin 8 → Nat) : List (Bool × BlockError) :=
  [(badStride (a 4), .argument .badStride 4),
   (decide (maxPixels < a 2), .argument .countRange 2),
   (wraps (a 0) (a 1), .argument .rangeWrap 0),
   (wraps (a 3) (span (a 4) (a 2)), .argument .rangeWrap 3),
   (overlaps (a 0) (a 1) (a 3) (span (a 4) (a 2)), .argument .overlap 3)]

/-- CMPFR (42 R222). -/
def cmpfrChecks (maxPixels : Nat) (a : Fin 8 → Nat) : List (Bool × BlockError) :=
  [(decide (maxPixels < a 1), .argument .countRange 1),
   (decide (a 3 < 8 * a 1), .argument .capacity 3),
   (wraps (a 0) (4 * a 1), .argument .rangeWrap 0),
   (wraps (a 2) (a 3), .argument .rangeWrap 2),
   (overlaps (a 0) (4 * a 1) (a 2) (a 3), .argument .overlap 2)]

/-- DCMFR, before its records (42 R229). -/
def dcmfrChecks (maxPixels : Nat) (a : Fin 8 → Nat) : List (Bool × BlockError) :=
  [(decide (maxPixels < a 2), .argument .countRange 2),
   (wraps (a 0) (a 1), .argument .rangeWrap 0),
   (wraps (a 3) (4 * a 2), .argument .rangeWrap 3),
   (overlaps (a 0) (a 1) (a 3) (4 * a 2), .argument .overlap 3)]

/-- WRGH (43 R254). -/
def wrghChecks (st : CwState) : List (Bool × BlockError) :=
  [(st != .uninit, .invalidUsage st)]

/-- WRFR, before its appends (43 R255). -/
def wrfrChecks (st : CwState) (a : Fin 8 → Nat) : List (Bool × BlockError) :=
  [(st != .hdr && st != .frame, .invalidUsage st),
   (wraps (a 5) (a 6), .argument .rangeWrap 5)]

/-- CLOSE (43 R256). -/
def closeChecks (st : CwState) : List (Bool × BlockError) :=
  [(st != .hdr && st != .frame, .invalidUsage st)]

/-- PRGH and PRFH, before they read the header (43 R257, R258). -/
def headerChecks (a : Fin 8 → Nat) : List (Bool × BlockError) :=
  [(wraps (a 0) (a 1), .argument .rangeWrap 0),
   (decide (a 1 < 24), .format .shortHeader 0 (a 1))]

/-- PRGH, on the header it has read (43 R257). -/
def globalHeaderChecks (magic : Word) (m : Memory) (addr : Nat) : List (Bool × BlockError) :=
  [(m.field addr != magic, .format .badMagic 0 0),
   (m.field (addr + 4) != 1, .format .badVersion 0 4)]

/-- The checks a command makes before its first access (60 R329); a record form makes none of them. -/
def accessChecks (i : Instr) (s : State) : List (Bool × BlockError) :=
  match i with
  | .recShort _ _ | .recLong _ _ _ => []
  | .emitrec => emitrecChecks s.arg
  | .encch => encchChecks s.params.maxPixels s.arg
  | .decch => decchChecks s.params.maxPixels s.arg
  | .cmpfr => cmpfrChecks s.params.maxPixels s.arg
  | .dcmfr => dcmfrChecks s.params.maxPixels s.arg
  | .wrgh => wrghChecks s.cwState
  | .wrfr => wrfrChecks s.cwState s.arg
  | .close => closeChecks s.cwState
  | .prgh | .prfh => headerChecks s.arg
  | .clrerr | .srst => []

/-! ### What a command reads, writes and sends (20 R86, R87; 70 R372; log 12) -/

/-- The source range of a command: base and length. -/
def sourceRange (i : Instr) (a : Fin 8 → Nat) : Nat × Nat :=
  match i with
  | .encch => (a 0, span (a 1) (a 2))
  | .decch => (a 0, a 1)
  | .cmpfr => (a 0, 4 * a 1)
  | .dcmfr => (a 0, a 1)
  | .wrfr => (a 5, a 6)
  | .prgh | .prfh => (a 0, 24)
  | .recShort _ _ | .recLong _ _ _ | .emitrec | .wrgh | .close | .clrerr | .srst => (0, 0)

/-- The destination range of a command: base and length, the whole capacity where it has one. -/
def destRange (i : Instr) (a : Fin 8 → Nat) : Nat × Nat :=
  match i with
  | .emitrec => (a 2, a 3)
  | .encch => (a 3, a 4)
  | .decch => (a 3, span (a 4) (a 2))
  | .cmpfr => (a 2, a 3)
  | .dcmfr => (a 3, 4 * a 2)
  | .recShort _ _ | .recLong _ _ _ | .wrgh | .wrfr | .close | .prgh | .prfh | .clrerr | .srst => (0, 0)

/-- The bytes WRGH sends to the sink (43 R254). -/
def wrghBytes (s : State) : List Byte :=
  globalHeaderBytes s.params.magic (s.argWord 0) (s.argWord 1) (s.argWord 2) (s.argWord 3)

/-- The bytes WRFR sends to the sink (43 R255). -/
def wrfrBytes (s : State) : List Byte :=
  frameBytes (s.argWord 0) (s.argWord 1) (s.argWord 2) (s.argWord 3) (s.argWord 4)
    (s.mem.view (s.arg 5) 1 (s.arg 6))

/-- The bytes a command sends to the sink. -/
def sinkBytes (i : Instr) (s : State) : List Byte :=
  match i with
  | .wrgh => wrghBytes s
  | .wrfr => wrfrBytes s
  | .recShort _ _ | .recLong _ _ _ | .emitrec | .encch | .decch | .cmpfr | .dcmfr
  | .close | .prgh | .prfh | .clrerr | .srst => []

/-- The command that is running and has passed, or will pass, its checks: the one that reaches memory or the sink. -/
def activeInstr (s : State) : Option Instr :=
  if s.busy then
    match decodeCommand s.running.word with
    | .ok i => if (firstError (accessChecks i s)).isSome then none else some i
    | .error _ => none
  else none

/-- The source range of the running command; empty when there is none. -/
def activeSource (s : State) : Nat × Nat :=
  match activeInstr s with
  | some i => sourceRange i s.arg
  | none => (0, 0)

/-- The destination range of the running command; empty when there is none. -/
def activeDest (s : State) : Nat × Nat :=
  match activeInstr s with
  | some i => destRange i s.arg
  | none => (0, 0)

/-- The bytes the running command would send to the sink. -/
def activeBytes (s : State) : List Byte :=
  match activeInstr s with
  | some i => sinkBytes i s
  | none => []

/-- An address lies in a range. -/
def inRange (r : Nat × Nat) (a : Nat) : Bool := decide (r.1 ≤ a) && decide (a < r.1 + r.2)

end Sys2Proof.Machine
end

