-- ==== Sys2Proof/Machine/Container.lean ====
section
/-!
DEFINITION. The container unit: WRGH, WRFR, CLOSE, PRGH, PRFH (43 R250 to R258).
-/

namespace Sys2Proof.Machine

/-- WRGH after the sink has accepted every byte (43 R254). -/
def wrghDone (s : State) : State := complete (({ s with cwState := .hdr }).setRes 0 24)

/-- WRGH after its check (43 R254). -/
def wrghBody (s : State) : State := sinkThen (wrghBytes s) wrghDone s

/-- 43 R254. The block hangs when its check passes and the sink leaves one of the header's bytes unanswered (60 R341; log 5). -/
def execWrgh (s : State) : Host.Outcome State Fault Refusal :=
  if (firstError (wrghChecks s.cwState)).isNone && sinkHangs s.sinkPlan (wrghBytes s).length then
    .fault .sinkNeverAnswers
  else .next (guarded (wrghChecks s.cwState) wrghBody s)

/-- WRFR after the sink has accepted every byte of a frame with a payload of `len` bytes (43 R255). -/
def wrfrDone (len : Nat) (s : State) : State :=
  complete ((({ s with cwState := .frame, frames := s.frames + 1 }).setRes 0
    (BitVec.ofNat 32 (24 + len + pad len))).setRes 1 (BitVec.ofNat 32 (pad len)))

/-- WRFR after its checks (43 R255). -/
def wrfrBody (s : State) : State := sinkThen (wrfrBytes s) (wrfrDone (s.arg 6)) s

/-- 43 R255. The block hangs when its checks pass and the sink leaves one of the frame's bytes unanswered (60 R341; log 5). -/
def execWrfr (s : State) : Host.Outcome State Fault Refusal :=
  if (firstError (wrfrChecks s.cwState s.arg)).isNone && sinkHangs s.sinkPlan (wrfrBytes s).length then
    .fault .sinkNeverAnswers
  else .next (guarded (wrfrChecks s.cwState s.arg) wrfrBody s)

/-- CLOSE after its check (43 R256). -/
def closeBody (s : State) : State := complete { s with cwState := .closed }

/-- 43 R256. -/
def execClose (s : State) : Host.Outcome State Fault Refusal :=
  .next (guarded (closeChecks s.cwState) closeBody s)

/-- Field `m` of the header at arg[0] (43 R257). -/
def headerField (s : State) (m : Nat) : Word := s.mem.field (s.arg 0 + 4 * m)

/-- PRGH after its checks (43 R257). -/
def prghBody (s : State) : State :=
  complete ((((s.setRes 0 (headerField s 2)).setRes 1 (headerField s 3)).setRes 2 (headerField s 4)).setRes 3
    (headerField s 5))

/-- 43 R257. -/
def execPrgh (s : State) : Host.Outcome State Fault Refusal :=
  .next (guarded (headerChecks s.arg ++ globalHeaderChecks s.params.magic s.mem (s.arg 0)) prghBody s)

/-- PRFH after its checks (43 R258). -/
def prfhBody (s : State) : State :=
  complete ((((((s.setRes 0 (headerField s 0)).setRes 1 (headerField s 1)).setRes 2 (headerField s 2)).setRes 3
    (headerField s 3)).setRes 4 (headerField s 4)).setRes 5 (headerField s 5))

/-- 43 R258. -/
def execPrfh (s : State) : Host.Outcome State Fault Refusal :=
  .next (guarded (headerChecks s.arg) prfhBody s)

end Sys2Proof.Machine
end

