-- ==== Sys2Proof/Machine/Control.lean ====
section
/-!
DEFINITION. The control commands CLRERR (44 R306) and SRST (44 R307).
-/

namespace Sys2Proof.Machine

/-- 44 R306. -/
def execClrerr (s : State) : Host.Outcome State Fault Refusal := .next (complete (clearError s))

/-- 44 R307. -/
def execSrst (s : State) : Host.Outcome State Fault Refusal := .next (srstReset s)

end Sys2Proof.Machine
end

