-- ==== Sys2Proof/Machine/Decoder.lean ====
section
/-!
DEFINITION. The Run Decoder: record parsing (41 R180), the execution of the two record forms (41 R181, R182), channel
decoding (41 R183) and DECCH (41 R187).
-/

namespace Sys2Proof.Machine

/-- What DecodeRecord returns (41 R180): the length, the value and the width of a record. -/
structure Record where
  len : Nat
  val : Byte
  width : Nat
deriving DecidableEq, Repr

/-- 30 R103: operand assembly. A command is no record: it stands for the record of length 0, which no stream decodes to. -/
def recordOf : Instr → Record
  | .recShort len val => ⟨len.toNat, val, 2⟩
  | .recLong hi lo val => ⟨(hi ++ lo : BitVec (7 + 8)).toNat, val, 3⟩
  | .emitrec | .encch | .decch | .cmpfr | .dcmfr | .wrgh | .wrfr
  | .close | .prgh | .prfh | .clrerr | .srst => ⟨0, 0, 0⟩

/-- 30 R104, 41 R180: the illegal lengths, in the order checked. -/
def recordError (rejectNoncanonical : Bool) (r : Record) : Option FormatSub :=
  if r.len = 0 then some .zeroLength
  else if r.width = 3 ∧ r.len < 128 ∧ rejectNoncanonical then some .nonCanonical
  else none

/-- The subcode of a stream that holds no record form (41 R180). A command word is no stream. -/
def streamError : DecodeReject → FormatSub
  | .exhausted => .exhausted
  | .truncated => .truncated
  | .illegalCommand _ => .truncated

/-- 41 R180: `DecodeRecord`, on the bytes of the stream from `pos` on. -/
def decodeRecord (rejectNoncanonical : Bool) (bytes : List Byte) : Except FormatSub Record :=
  match decodeRecordForm bytes with
  | .error e => .error (streamError e)
  | .ok i =>
    match recordError rejectNoncanonical (recordOf i) with
    | some f => .error f
    | none => .ok (recordOf i)

/-- 41 R181, R182: `j`, `owed` and `pos` after a record. -/
def advance (r : Record) (d : DecState) : DecState := ⟨d.pos + r.width, d.owed - r.len, d.j + r.len⟩

/-! ### One channel (41 R183) -/

/-- Where a channel decode stands when it ends: memory, the decoder's registers, and the error if it failed. -/
structure ChannelResult where
  mem : Memory
  dec : DecState
  err : Option FormatSub
deriving DecidableEq, Repr

/-- 41 R183: `DecodeChannel`, on a stream given by its bytes from each offset on. Each round reads at least two bytes, so the
rounds that `fuel` allows are never used up (41 R184). -/
def decodeChannel (rejectNoncanonical : Bool) (stream : Nat → List Byte) (dst stride : Nat) :
    Nat → Memory → DecState → ChannelResult
  | 0, m, d => ⟨m, d, if d.owed = 0 then none else some .exhausted⟩
  | fuel + 1, m, d =>
    if d.owed = 0 then ⟨m, d, none⟩
    else
      match decodeRecord rejectNoncanonical (stream d.pos) with
      | .error f => ⟨m, d, some f⟩
      | .ok r =>
        if d.owed < r.len then ⟨m, d, some .overshoot⟩
        else
          decodeChannel rejectNoncanonical stream dst stride fuel
            (m.fillSlots dst stride r.val d.j r.len) (advance r d)

/-! ### The record forms as instructions of a running channel decode (41 R181, R182) -/

/-- The stream and the slots of the running channel decode: DECCH's, or those of channel k of DCMFR (42 R228). -/
structure DecodeJob where
  src : Nat
  len : Nat
  count : Nat
  dst : Nat
  stride : Nat
deriving DecidableEq, Repr

/-- 41 R187 and 42 R228, R229: the job of the latched command. -/
def decodeJob (s : State) : DecodeJob :=
  if s.runningOp = 0x05 then ⟨s.arg 0, s.arg 1, s.arg 2, s.arg 3 + s.frame.ch.val, 4⟩
  else ⟨s.arg 0, s.arg 1, s.arg 2, s.arg 3, s.arg 4⟩

/-- 41 R181, R182: a record in the running channel decode. Each check precedes its writes. -/
def runRecord (r : Record) (s : State) : State :=
  match recordError s.params.decRejectNoncanonical r with
  | some f => raise (.format f s.frame.ch s.dec.pos) s
  | none =>
    if s.dec.owed < r.len then raise (.format .overshoot s.frame.ch s.dec.pos) s
    else
      { s with
        mem := s.mem.fillSlots (decodeJob s).dst (decodeJob s).stride r.val s.dec.j r.len
        dec := advance r s.dec }

/-- 41 R181. -/
def execRecShort (len : BitVec 7) (val : Byte) (s : State) : Host.Outcome State Fault Refusal :=
  .next (runRecord (recordOf (.recShort len val)) s)

/-- 41 R182. -/
def execRecLong (hi : BitVec 7) (lo val : Byte) (s : State) : Host.Outcome State Fault Refusal :=
  .next (runRecord (recordOf (.recLong hi lo val)) s)

/-! ### DECCH (41 R187) -/

/-- DECCH's channel decode: the stream as it stood at the CMD write (20 R84, R92; log 18). -/
def decchResult (s : State) : ChannelResult :=
  decodeChannel s.params.decRejectNoncanonical (s.mem.window (s.arg 0) (s.arg 1)) (s.arg 3) (s.arg 4)
    (s.arg 1 + 1) s.mem ⟨0, s.arg 2, 0⟩

/-- DECCH after its checks (41 R187). The records before a failing one stand (41 R186). -/
def decchBody (s : State) : State :=
  match (decchResult s).err with
  | some f => raise (.format f 0 (decchResult s).dec.pos) { s with mem := (decchResult s).mem }
  | none =>
    complete (({ s with mem := (decchResult s).mem }).setRes 0 (BitVec.ofNat 32 (decchResult s).dec.pos))

/-- 41 R187. -/
def execDecch (s : State) : Host.Outcome State Fault Refusal :=
  .next (guarded (decchChecks s.params.maxPixels s.arg) decchBody s)

end Sys2Proof.Machine
end

