-- ==== Sys2Proof/Machine/Encoder.lean ====
section
/-!
DEFINITION. The Run Encoder: record emission, the encoder step and EncodeSeq (40 R140 to R142), EMITREC (40 R146) and
ENCCH (40 R147).
-/

namespace Sys2Proof.Machine

/-- 40 R140: `EmitRecord(len, val)`. An error carries the length asked for (60 R321). -/
def emitRecord (len : Nat) (val : Byte) : Except (EncSub × Nat) (List Byte) :=
  if len = 0 then .error (.lenZero, len)
  else if 32767 < len then .error (.lenTooLong, len)
  else if len ≤ 127 then .ok (shortBytes (BitVec.ofNat 7 len) val)
  else .ok (longBytes (BitVec.ofNat 7 (len / 256)) (BitVec.ofNat 8 len) val)

/-- 40 R141: `EncoderStep`, with the bytes it appends to `out` as its first result. -/
def encoderStep (n : Nat) (c x : Byte) : Except (EncSub × Nat) (List Byte × Nat × Byte) :=
  if n = 0 then .ok ([], 1, x)
  else if x = c then
    if n + 1 = 32767 then (emitRecord 32767 c).map fun r => (r, 0, c)
    else .ok ([], n + 1, c)
  else (emitRecord n c).map fun r => (r, 1, x)

/-- 40 R142: the flush at the end of a channel, if a run is open. -/
def flushRun (n : Nat) (c : Byte) : Except (EncSub × Nat) (List Byte) :=
  if n = 0 then .ok [] else emitRecord n c

/-- 40 R142: the loop of EncodeSeq from the run state `n`, `c`, and the flush after it. -/
def encodeFrom (n : Nat) (c : Byte) : List Byte → Except (EncSub × Nat) (List Byte)
  | [] => flushRun n c
  | x :: xs =>
    match encoderStep n c x with
    | .error e => .error e
    | .ok (r, n', c') => (encodeFrom n' c' xs).map (r ++ ·)

/-- 40 R142: `EncodeSeq(s)`. The initial `c` is never read (10 R48; log 8). -/
def encodeSeq (s : List Byte) : Except (EncSub × Nat) (List Byte) := encodeFrom 0 encIdle.c s

/-- 60 R321: the report of a record of an illegal length. Only EMITREC reaches it; an encoder that finds its own flush invariant
broken would report it too (40 R149, R150). -/
def encoderError (e : EncSub × Nat) : BlockError := .encInvariant e.1 e.2

/-- EMITREC after its checks (40 R146). -/
def emitrecBody (s : State) : State :=
  match emitRecord (s.arg 0) ((s.argWord 1).extractLsb' 0 8) with
  | .error e => raise (encoderError e) s
  | .ok r =>
    complete (({ s with mem := s.mem.writeBytes (s.arg 2) r }).setRes 0 (BitVec.ofNat 32 r.length))

/-- 40 R146. -/
def execEmitrec (s : State) : Host.Outcome State Fault Refusal :=
  .next (guarded (emitrecChecks s.arg) emitrecBody s)

/-- ENCCH after its checks (40 R147). -/
def encchBody (s : State) : State :=
  match encodeSeq (s.mem.view (s.arg 0) (s.arg 1) (s.arg 2)) with
  | .error e => raise (encoderError e) s
  | .ok out =>
    complete (({ s with mem := s.mem.writeBytes (s.arg 3) out }).setRes 0 (BitVec.ofNat 32 out.length))

/-- 40 R147. -/
def execEncch (s : State) : Host.Outcome State Fault Refusal :=
  .next (guarded (encchChecks s.params.maxPixels s.arg) encchBody s)

end Sys2Proof.Machine
end

