-- ==== Sys2Proof/Machine/Frame.lean ====
section
/-!
DEFINITION. The Frame Compressor and Decompressor: CMPFR (42 R220 to R227, R231) and DCMFR (42 R228, R229).
-/

namespace Sys2Proof.Machine

/-- RES0 <- the total, RES1..RES4 <- the four channels' byte counts (42 R222, R229). -/
def setChannelResults (total : Nat) (lens : List Nat) (s : State) : State :=
  ((((s.setRes 0 (BitVec.ofNat 32 total)).setRes 1 (BitVec.ofNat 32 (lens.getD 0 0))).setRes 2
    (BitVec.ofNat 32 (lens.getD 1 0))).setRes 3 (BitVec.ofNat 32 (lens.getD 2 0))).setRes 4
    (BitVec.ofNat 32 (lens.getD 3 0))

/-! ### Compression -/

/-- 42 R220: the samples of channel k of a pixel buffer. -/
def channelSamples (m : Memory) (buf n : Nat) (k : Fin 4) : List Byte := m.view (buf + k.val) 4 n

/-- 42 R221: the records of the four channels, in channel order. -/
def compressChannels (m : Memory) (buf n : Nat) : List (Fin 4) → Except (EncSub × Nat) (List (List Byte))
  | [] => .ok []
  | k :: ks =>
    match encodeSeq (channelSamples m buf n k) with
    | .error e => .error e
    | .ok out => (compressChannels m buf n ks).map (out :: ·)

/-- 42 R222: the end of CMPFR. The capacity's bytes past the payload hold any value (42 R227; log 4). That is the whole
capacity when N = 0, where a corner case of 42 R222 says that nothing is written (DEDUCED, log 28). -/
def finishCompress (dst cap total : Nat) (lens : List Nat) (s : State) : State :=
  complete (setChannelResults total lens
    { s with
      mem := s.mem.forgetRange (dst + total) (cap - total) s.draws
      draws := s.draws + (cap - total) })

/-- CMPFR after its checks (42 R222). -/
def cmpfrBody (s : State) : State :=
  match compressChannels s.mem (s.arg 0) (s.arg 1) [0, 1, 2, 3] with
  | .error e => raise (encoderError e) s
  | .ok outs =>
    finishCompress (s.arg 2) (s.arg 3) outs.flatten.length (outs.map List.length)
      { s with mem := s.mem.writeBytes (s.arg 2) outs.flatten }

/-- 42 R222. -/
def execCmpfr (s : State) : Host.Outcome State Fault Refusal :=
  .next (guarded (cmpfrChecks s.params.maxPixels s.arg) cmpfrBody s)

/-! ### Decompression -/

/-- Where a frame decode stands when it ends: memory, the cursor, the byte counts of the channels done, and the error with its
channel if it failed. -/
structure FrameResult where
  mem : Memory
  pos : Nat
  lens : List Nat
  err : Option (FormatSub × Fin 4)
deriving DecidableEq, Repr

/-- 42 R228: the channels of DecompressFrame, in order. -/
def decodeChannels (rejectNoncanonical : Bool) (stream : Nat → List Byte) (fuel dst n : Nat) :
    List (Fin 4) → Memory → Nat → List Nat → FrameResult
  | [], m, pos, lens => ⟨m, pos, lens, none⟩
  | k :: ks, m, pos, lens =>
    let r := decodeChannel rejectNoncanonical stream (dst + k.val) 4 fuel m ⟨pos, n, 0⟩
    match r.err with
    | some f => ⟨r.mem, r.dec.pos, lens, some (f, k)⟩
    | none => decodeChannels rejectNoncanonical stream fuel dst n ks r.mem r.dec.pos (lens ++ [r.dec.pos - pos])

/-- 42 R228: bytes left after channel 3 (92 D14). -/
def trailingError (pos len : Nat) : Option (FormatSub × Fin 4) :=
  if pos = len then none else some (.trailing, 3)

/-- DCMFR's frame decode: the payload as it stood at the CMD write (20 R84, R92; log 18). -/
def dcmfrResult (s : State) : FrameResult :=
  decodeChannels s.params.decRejectNoncanonical (s.mem.window (s.arg 0) (s.arg 1)) (s.arg 1 + 1) (s.arg 3)
    (s.arg 2) [0, 1, 2, 3] s.mem 0 []

/-- DCMFR after its checks (42 R229). The records and channels before a failing one stand (60 R336). -/
def dcmfrBody (s : State) : State :=
  match (dcmfrResult s).err.or (trailingError (dcmfrResult s).pos (s.arg 1)) with
  | some (f, k) => raise (.format f k (dcmfrResult s).pos) { s with mem := (dcmfrResult s).mem }
  | none =>
    complete (setChannelResults (dcmfrResult s).pos (dcmfrResult s).lens { s with mem := (dcmfrResult s).mem })

/-- 42 R229. -/
def execDcmfr (s : State) : Host.Outcome State Fault Refusal :=
  .next (guarded (dcmfrChecks s.params.maxPixels s.arg) dcmfrBody s)

end Sys2Proof.Machine
end

