-- ==== Sys2Proof/Machine/Dispatch.lean ====
section
/-!
DEFINITION. One arm per instruction.
-/

namespace Sys2Proof.Machine

def exec (i : Instr) (s : State) : Host.Outcome State Fault Refusal :=
  match i with
  | .recShort len val => Sys2Proof.Machine.execRecShort len val s
  | .recLong hi lo val => Sys2Proof.Machine.execRecLong hi lo val s
  | .emitrec => Sys2Proof.Machine.execEmitrec s
  | .encch => Sys2Proof.Machine.execEncch s
  | .decch => Sys2Proof.Machine.execDecch s
  | .cmpfr => Sys2Proof.Machine.execCmpfr s
  | .dcmfr => Sys2Proof.Machine.execDcmfr s
  | .wrgh => Sys2Proof.Machine.execWrgh s
  | .wrfr => Sys2Proof.Machine.execWrfr s
  | .close => Sys2Proof.Machine.execClose s
  | .prgh => Sys2Proof.Machine.execPrgh s
  | .prfh => Sys2Proof.Machine.execPrfh s
  | .clrerr => Sys2Proof.Machine.execClrerr s
  | .srst => Sys2Proof.Machine.execSrst s

end Sys2Proof.Machine
end

