-- ==== Sys2Proof/Machine/Engine.lean ====
section
/-!
DEFINITION. The engine inside a codec command (10_state section 4; log 20): one sample of a channel encode (40 R141, 10 R47,
R48), the end of a channel, one record of a channel decode (41 R183), and the start of each codec command after its checks.
-/

namespace Sys2Proof.Machine

/-! ### Encoding (ENCCH, CMPFR) -/

/-- The view and the destination of the running channel encode: ENCCH's, or those of channel `ch` of CMPFR (42 R231). -/
structure EncodeJob where
  src : Nat
  stride : Nat
  count : Nat
  dst : Nat
deriving DecidableEq, Repr

/-- 40 R147 and 42 R222, R231: the job of the latched command. -/
def encodeJob (s : State) : EncodeJob :=
  if s.runningOp = 0x04 then ⟨s.arg 0 + s.frame.ch.val, 4, s.arg 1, s.arg 2 + s.frame.total⟩
  else ⟨s.arg 0, s.arg 1, s.arg 2, s.arg 3⟩

/-- 10 R47: one sample. The bytes a flush emits go to the output cursor. -/
def encodeSample (s : State) : State :=
  match encoderStep s.enc.n s.enc.c (s.mem.read ((encodeJob s).src + (encodeJob s).stride * s.enc.i)) with
  | .error e => raise (encoderError e) s
  | .ok (r, n', c') =>
    { s with
      mem := s.mem.writeBytes ((encodeJob s).dst + s.enc.w) r
      enc := ⟨s.enc.i + 1, s.enc.w + r.length, n', c'⟩ }

/-- The end of a channel whose encoding took `enc.w` bytes: the next channel of CMPFR, or the end of the command. -/
def channelEncoded (s : State) : State :=
  if s.runningOp = 0x04 then
    if s.frame.ch = 3 then
      finishCompress (s.arg 2) (s.arg 3) (s.frame.total + s.enc.w) (s.frame.lens ++ [s.enc.w]) s
    else
      { s with
        enc := encIdle
        frame := ⟨s.frame.ch + 1, s.frame.total + s.enc.w, s.frame.lens ++ [s.enc.w]⟩ }
  else complete (s.setRes 0 (BitVec.ofNat 32 s.enc.w))

/-- 40 R142: the flush at the end of a channel. -/
def encodeEnd (s : State) : State :=
  match flushRun s.enc.n s.enc.c with
  | .error e => raise (encoderError e) s
  | .ok r =>
    channelEncoded
      { s with
        mem := s.mem.writeBytes ((encodeJob s).dst + s.enc.w) r
        enc := { s.enc with w := s.enc.w + r.length, n := 0 } }

/-- One engine step of a channel encode (10 R47). -/
def encodeStep (s : State) : State :=
  if s.enc.i < (encodeJob s).count then encodeSample s else encodeEnd s

/-! ### Decoding (DECCH, DCMFR) -/

/-- 30 R100, 41 R180: the record form at the cursor of the running channel decode. -/
def fetchRecord (s : State) : Except DecodeReject Instr :=
  decode (.stream (s.mem.window (decodeJob s).src (decodeJob s).len s.dec.pos))

/-- The end of a channel: the next channel of DCMFR, the check for trailing bytes after its last one (42 R228), or the end of
DECCH (41 R187). -/
def decodeEnd (s : State) : State :=
  if s.runningOp = 0x05 then
    if s.frame.ch = 3 then
      match trailingError s.dec.pos (s.arg 1) with
      | some (f, k) => raise (.format f k s.dec.pos) s
      | none =>
        complete (setChannelResults s.dec.pos (s.frame.lens ++ [s.dec.pos - s.frame.total]) s)
    else
      { s with
        dec := ⟨s.dec.pos, s.arg 2, 0⟩
        frame := ⟨s.frame.ch + 1, s.dec.pos, s.frame.lens ++ [s.dec.pos - s.frame.total]⟩ }
  else complete (s.setRes 0 (BitVec.ofNat 32 s.dec.pos))

/-! ### The start of a codec command -/

/-- The internal state at the start of a channel encode (10 R47, R48, R50, R53). -/
def startEncode (s : State) : State := { s with phase := .encode, enc := encIdle, frame := frameIdle }

/-- The internal state at the start of a channel decode that owes `count` samples (10 R46, R49, R53). -/
def startDecode (count : Nat) (s : State) : State :=
  { s with phase := .decode, dec := ⟨0, count, 0⟩, frame := frameIdle }

/-- The checks of a codec command and its first internal boundary; no other command has one (log 20). -/
def beginCommand (i : Instr) (s : State) : Option State :=
  match i with
  | .encch => some (guarded (encchChecks s.params.maxPixels s.arg) startEncode s)
  | .cmpfr => some (guarded (cmpfrChecks s.params.maxPixels s.arg) startEncode s)
  | .decch => some (guarded (decchChecks s.params.maxPixels s.arg) (startDecode (s.arg 2)) s)
  | .dcmfr => some (guarded (dcmfrChecks s.params.maxPixels s.arg) (startDecode (s.arg 2)) s)
  | .recShort _ _ | .recLong _ _ _ | .emitrec | .wrgh | .wrfr | .close | .prgh | .prfh | .clrerr | .srst => none

end Sys2Proof.Machine
end

