-- ==== Sys2Proof/Machine/HostPort.lean ====
section
/-!
DEFINITION. The host's side of the block: the register block (10 R30 to R42), the issue of a command (44 R300 to R303), host
memory accesses (20 R84 to R87), the reset input (70 R370, R372) and the opening of a sink (70 R373).
-/

namespace Sys2Proof.Machine

/-! ### The register block -/

/-- The registers of 10 R30, by name. -/
inductive Reg where
  | cmd
  | status
  | errInfo0
  | errInfo1
  | sinkOff
  | frames
  | magicId
  | fmtId
  | arg (i : Fin 8)
  | res (i : Fin 6)
  | reserved
deriving DecidableEq, Repr

/-- The register of a word index, offset divided by 4 (10 R30). -/
def regOfIndex (k : Nat) : Reg :=
  if k = 0 then .cmd
  else if k = 1 then .status
  else if k = 2 then .errInfo0
  else if k = 3 then .errInfo1
  else if k = 4 then .sinkOff
  else if k = 5 then .frames
  else if k = 6 then .magicId
  else if k = 7 then .fmtId
  else if k < 16 then .arg (Fin.ofNat 8 (k - 8))
  else if k < 22 then .res (Fin.ofNat 6 (k - 16))
  else .reserved

/-- 10 R42: an access reaches a register only if it is 32 bits wide, at a multiple of 4 in 0x00..0xFC. -/
def regAt (offset width : Nat) : Option Reg :=
  if width = 32 ∧ offset % 4 = 0 ∧ offset ≤ 0xFC then some (regOfIndex (offset / 4)) else none

/-- What a register reads as while the block is idle (10 R30 to R41). -/
def regValue (r : Reg) (s : State) : Word :=
  match r with
  | .cmd => 0
  | .status => statusWord s
  | .errInfo0 => s.errInfo0
  | .errInfo1 => s.errInfo1
  | .sinkOff => s.sinkOff
  | .frames => s.frames
  | .magicId => s.params.magic
  | .fmtId => s.params.fmtRle
  | .arg i => s.args[i]
  | .res i => s.res[i]
  | .reserved => 0

/-- What a register reads as while BUSY = 1, given a free word; `none` where it reads as when idle (20 R86, 70 R374; log 13). -/
def busyRegValue (r : Reg) (free : Word) : Option Word :=
  match r with
  | .status => some (busyStatusWord free)
  | .errInfo0 | .errInfo1 | .sinkOff | .frames | .res _ => some free
  | .cmd | .magicId | .fmtId | .arg _ | .reserved => none

/-- A host read of a register (10 R30; 20 R86). The registers that 70 R374 lists read as they are from completion on, also
before the host has read BUSY = 0 (DEDUCED, log 31). -/
def readRegister (r : Reg) (s : State) : State :=
  if s.busy then
    match busyRegValue r (Config.freeWord s.draws) with
    | some v => { s with hostData := v, draws := s.draws + 1 }
    | none => { s with hostData := regValue r s }
  else { s with hostData := regValue r s }

/-- 44 R300 to R303: a CMD write. It is lost while BUSY = 1; while ERR = 1 only CLRERR and SRST are accepted; an accepted write
latches the word and ARG0..ARG7. The engine's part of R300 is `engineTurn`. -/
def issue (v : Word) (s : State) : State :=
  if s.busy then s
  else if s.err && v != 0x0000000E && v != 0x0000000F then s
  else latchCommand v s

/-- A host write of a register: CMD issues, ARGi holds the value, every other write is ignored (10 R30 to R41). -/
def writeRegister (r : Reg) (v : Word) (s : State) : State :=
  match r with
  | .cmd => issue v s
  | .arg i => { s with args := s.args.set i v, argWritten := s.argWritten.set i true }
  | .status | .errInfo0 | .errInfo1 | .sinkOff | .frames | .magicId | .fmtId | .res _ | .reserved => s

/-- The value of a host register write. -/
def hostValue (v : HostValue) (s : State) : Word :=
  match v with
  | .lit w => w
  | .last => s.hostData

/-- A register write access (10 R42). -/
def hostWriteReg (offset width : Nat) (v : HostValue) (s : State) : Host.Outcome State Fault Refusal :=
  match regAt offset width with
  | some r => .next (writeRegister r (hostValue v s) s)
  | none => .refused .badRegisterAccess

/-- A register read access (10 R42). -/
def hostReadReg (offset width : Nat) (s : State) : Host.Outcome State Fault Refusal :=
  match regAt offset width with
  | some r => .next (readRegister r s)
  | none => .refused .badRegisterAccess

/-! ### Host memory -/

/-- 20 R87, 70 R376: a host write of a byte. It is refused inside the running command's ranges (log 12). -/
def hostWriteMem (a : Word) (v : Byte) (s : State) : Host.Outcome State Fault Refusal :=
  if inRange (activeSource s) a.toNat || inRange (activeDest s) a.toNat then .refused .bufferWriteWhileBusy
  else .next { s with mem := s.mem.write a.toNat v }

/-- 20 R85, R86: a host read of a byte. Inside the running command's destination it is any value (log 13); from completion on
it is the byte, also before the host has read BUSY = 0 (DEDUCED, log 31). -/
def hostReadMem (a : Word) (s : State) : State :=
  if inRange (activeDest s) a.toNat then
    { s with hostData := (Config.freeByte s.draws).setWidth 32, draws := s.draws + 1 }
  else { s with hostData := (s.mem.read a.toNat).setWidth 32 }

/-! ### Reset input, sink -/

/-- 70 R372: what a reset during BUSY leaves of the aborted command: any value in its destination range, and any prefix of its
sink bytes (log 14). -/
def abortCommand (s : State) : State :=
  { s with
    mem := s.mem.forgetRange (activeDest s).1 (activeDest s).2 (s.draws + 1)
    sink := s.sink ++ (activeBytes s).take (Config.freeCount s.draws)
    draws := s.draws + 1 + (activeDest s).2 }

/-- 70 R370, R372: the reset input. -/
def resetInput (s : State) : State := if s.busy then softReset (abortCommand s) else softReset s

/-- 70 R373: the host opens a sink. While a command runs the spec gives this no effect (60 R341; log 16). -/
def hostOpenSink (contents : List Byte) (s : State) : Host.Outcome State Fault Refusal :=
  if s.busy then .refused .sinkOpenedWhileBusy else .next { s with sink := contents }

end Sys2Proof.Machine
end

