-- ==== Sys2Proof/Machine/Turn.lean ====
section
/-!
DEFINITION. Who moves next: the host's next action, or an engine turn (00 R7, 44 R300, R309; log 1, 2, 20, 22). Also how an
instruction is placed where the next step fetches it (log 9).
-/

namespace Sys2Proof.Machine

/-- The engine's part of 44 R300: the latched word is executed, or raises IllegalCommand (44 R304). -/
def runLatched (s : State) : Host.Outcome State Fault Refusal :=
  match decode (.command s.running.word) with
  | .ok i => exec i s
  | .error _ => .next (raise (.illegalCommand s.running.word) s)

/-- 41 R183: one round of the running channel decode. -/
def decodeStep (s : State) : Host.Outcome State Fault Refusal :=
  if s.dec.owed = 0 then .next (decodeEnd s)
  else
    match fetchRecord s with
    | .ok i => exec i s
    | .error e => .next (raise (.format (streamError e) s.frame.ch s.dec.pos) s)

/-- An engine turn: nothing when idle (60 R346), the whole command when it has just been issued (44 R309), else the next sample
or record (log 20). -/
def engineTurn (s : State) : Host.Outcome State Fault Refusal :=
  if s.busy then
    match s.phase with
    | .issued => runLatched s
    | .encode => .next (encodeStep s)
    | .decode => decodeStep s
  else .next s

/-- An engine turn in which a codec command goes only to its first internal boundary (log 20). -/
def engineBeginTurn (s : State) : Host.Outcome State Fault Refusal :=
  if s.busy ∧ s.phase = .issued then
    match decode (.command s.running.word) with
    | .ok i =>
      match beginCommand i s with
      | some s' => .next s'
      | none => exec i s
    | .error _ => runLatched s
  else engineTurn s

/-- 30 R120: one round of `WAIT`: a read of STATUS; while BUSY = 1 the engine has a turn and the WAIT stays (log 22). -/
def waitTurn (s : State) : Host.Outcome State Fault Refusal :=
  if s.busy then engineTurn (readRegister .status { s with inbox := .wait :: s.inbox })
  else .next (readRegister .status s)

/-- The host's action, or the engine turn it leaves. -/
def hostTurn (op : HostOp) (s : State) : Host.Outcome State Fault Refusal :=
  match op with
  | .writeReg offset width v => hostWriteReg offset width v s
  | .readReg offset width => hostReadReg offset width s
  | .writeMem a v => hostWriteMem a v s
  | .readMem a => .next (hostReadMem a s)
  | .resetInput => .next (resetInput s)
  | .openSink contents => hostOpenSink contents s
  | .wait => waitTurn s
  | .engine => engineTurn s
  | .engineBegin => engineBeginTurn s

/-- The next move: the first pending action of the host, or an engine turn when there is none. -/
def turn (s : State) : Host.Outcome State Fault Refusal :=
  match s.inbox with
  | [] => engineTurn s
  | op :: rest => hostTurn op { s with inbox := rest }

/-! ### Placing an instruction where the next step fetches it (log 9) -/

/-- A command word stands in the latch, as an accepted CMD write leaves it, and the engine has the next turn. -/
def placeCommand (w : Word) (s : State) : State :=
  latchCommand w { s with inbox := .engine :: s.inbox }

/-- Record bytes stand at the cursor of a running DECCH, which owes 32767 samples, and the engine has the next turn. -/
def placeRecord (bytes : List Byte) (s : State) : State :=
  { s with
    latch := some ⟨0x03, #v[0, BitVec.ofNat 32 bytes.length, 32767, 0x10000, 1, 0, 0, 0]⟩
    busy := true
    phase := .decode
    dec := ⟨0, 32767, 0⟩
    frame := frameIdle
    mem := s.mem.writeBytes 0 bytes
    inbox := .engine :: s.inbox }

/-- The code of an instruction, placed. -/
def placeCode (c : Code) (s : State) : State :=
  match c with
  | .command w => placeCommand w s
  | .stream bytes => placeRecord bytes s

end Sys2Proof.Machine
end

