-- ==== Sys2Proof/Machine/Step.lean ====
section
/-!
DEFINITION. One step of the machine, and how an instruction is put where the next step fetches it (log 2, 9).
-/

namespace Sys2Proof.Machine

/-- One step: the next move of the host or of the engine. -/
def step (s : State) : Host.Outcome State Fault Refusal := turn s

/-- `s` with the instruction of a table number where `step` fetches its next instruction (log 9, 23). -/
def State.withFetchWord (s : State) (nbits w : Nat) : State := placeCode (tableCode nbits w) s

end Sys2Proof.Machine
end

