-- ==== Sys2Proof/Machine/Assembler.lean ====
section
/-!
DEFINITION. The assembler syntax, the macros WAIT, ENCWR and CONVERT, and programs (30 R118, R120), as functions that give the
host's accesses. Numbers are naturals (00 R9).
-/

namespace Sys2Proof.Machine

/-- 30 R118: an operand is a number, a symbolic parameter or `RESn`. -/
inductive AsmOperand where
  | num (v : Nat)
  | magic
  | fmtRle
  | res (n : Fin 6)
deriving DecidableEq, Repr

/-- The host accesses that put an operand into ARGk. A symbolic parameter is read from its register, like `RESn` (log 26), and
each read comes right before the write of its value (DESIGN CHOICE, log 32). What ARGk gets of a number of 2^32 or more is a
free value (DESIGN CHOICE, log 27). -/
def asmOperand (k : Nat) : AsmOperand → List HostOp
  | .num v => [.writeReg (0x20 + 4 * k) 32 (.lit (word32 v))]
  | .magic => [.readReg 0x18 32, .writeReg (0x20 + 4 * k) 32 .last]
  | .fmtRle => [.readReg 0x1C 32, .writeReg (0x20 + 4 * k) 32 .last]
  | .res n => [.readReg (0x40 + 4 * n.val) 32, .writeReg (0x20 + 4 * k) 32 .last]

/-- The operands from ARGk on, in ARG order. -/
def asmOperands (k : Nat) : List AsmOperand → List HostOp
  | [] => []
  | o :: os => asmOperand k o ++ asmOperands (k + 1) os

/-- 30 R118: `MNEMONIC a0, ..., ak`. A record form is no command and has no assembly. The number of operands is not checked
against 30 R115 (DESIGN CHOICE, log 33). -/
def assemble (i : Instr) (operands : List AsmOperand) : List HostOp :=
  match opcode i with
  | some op => asmOperands 0 operands ++ [.writeReg 0x00 32 (.lit (commandWord op))]
  | none => []

/-- 30 R120: a command of a program, with the `WAIT` that follows it. -/
def commandLine (i : Instr) (operands : List AsmOperand) : List HostOp := assemble i operands ++ [.wait]

/-- 30 R120: `ENCWR buf, n, w, h, tmp, cap`. The operands of a macro are numbers (DESIGN CHOICE, log 30). -/
def encwr (buf n w h tmp cap : Nat) : List HostOp :=
  commandLine .cmpfr [.num buf, .num n, .num tmp, .num cap]
    ++ commandLine .wrfr [.num w, .num h, .num 0, .num 0, .fmtRle, .num tmp, .res 0]

/-- 30 R120: `CONVERT w, h, F, (buf_1..buf_F), tmp, cap`, with F the number of buffers. Its operands are numbers (DESIGN
CHOICE, log 30). The pixel count `w * h` is a natural (00 R9); what CMPFR's ARG1 gets of a product of 2^32 or more is a free
value (DESIGN CHOICE, log 27). -/
def convert (w h : Nat) (bufs : List Nat) (tmp cap : Nat) : List HostOp :=
  commandLine .wrgh [.num w, .num h, .num 12, .num bufs.length]
    ++ bufs.flatMap (fun buf => encwr buf (w * h) w h tmp cap)
    ++ commandLine .close []

/-- A line of a program: a command, or one of the macros of 30 R120. -/
inductive AsmLine where
  | command (i : Instr) (operands : List AsmOperand)
  | wait
  | encwr (buf n w h tmp cap : Nat)
  | convert (w h : Nat) (bufs : List Nat) (tmp cap : Nat)
deriving DecidableEq, Repr

/-- The host accesses of a line. "Every command in a program is followed by an implied `WAIT`" (30 R120). -/
def expandLine : AsmLine → List HostOp
  | .command i operands => commandLine i operands
  | .wait => [.wait]
  | .encwr buf n w h tmp cap => encwr buf n w h tmp cap
  | .convert w h bufs tmp cap => convert w h bufs tmp cap

/-- The host accesses of a program, line by line (30 R118, R120; 44 R309). -/
def assembleProgram (lines : List AsmLine) : List HostOp := lines.flatMap expandLine

end Sys2Proof.Machine
end

