-- ==== Sys2Proof/Safety.lean ====
section
/-!
DEFINITION. The terms claims use: what a state of the block always satisfies, what a command leaves unchanged, and the runs of
records, samples and answers that claims quantify over.
-/

namespace Sys2Proof.Machine

/-! ### What every state satisfies -/

/-- 10 R32, R33, R34, R44: ERR = 0 leaves ERRCODE and ERRINFO at 0, ERR = 1 has a code in 1..6. -/
abbrev State.reportOk (s : State) : Prop :=
  (s.err = false → s.errCode = 0 ∧ s.errInfo0 = 0 ∧ s.errInfo1 = 0) ∧
  (s.err = true → 1 ≤ s.errCode.toNat ∧ s.errCode.toNat ≤ 6)

/-- 10 R43, R51, R53: a command is latched exactly while BUSY = 1, and no internal state survives it. -/
abbrev State.latchOk (s : State) : Prop :=
  (s.busy = true → s.latch.isSome = true) ∧
  (s.busy = false → s.latch = none ∧ s.phase = .issued ∧ s.enc = encIdle ∧ s.dec = decIdle ∧ s.frame = frameIdle)

/-- 44 R302: while ERR = 1 the engine holds no command but CLRERR or SRST. -/
abbrev State.blockedOk (s : State) : Prop :=
  s.err = true → s.busy = true → s.phase = .issued ∧ (s.running.word = 0x0E ∨ s.running.word = 0x0F)

/-- The latched word is the command of a channel decode that has passed its checks, if the engine stands in one. -/
abbrev State.decodesOk (s : State) : Prop :=
  s.phase = .decode →
    (s.running.word = 0x03 ∧ firstError (decchChecks s.params.maxPixels s.arg) = none) ∨
    (s.running.word = 0x05 ∧ firstError (dcmfrChecks s.params.maxPixels s.arg) = none)

/-- 10 R46, R49: at every record boundary `j + owed = N`, and the cursor is inside the stream. -/
abbrev State.decoderOk (s : State) : Prop :=
  s.phase = .decode →
    s.dec.j + s.dec.owed = (decodeJob s).count ∧ s.dec.pos ≤ (decodeJob s).len ∧ s.frame.total ≤ s.dec.pos

/-- The latched word is the command of a channel encode that has passed its checks, if the engine stands in one. -/
abbrev State.encodesOk (s : State) : Prop :=
  s.phase = .encode →
    (s.running.word = 0x02 ∧ firstError (encchChecks s.params.maxPixels s.arg) = none) ∨
    (s.running.word = 0x04 ∧ firstError (cmpfrChecks s.params.maxPixels s.arg) = none)

/-- 10 R47, R48, R50 and 40 R144, R149: the open run is shorter than 32767, the sample index stays inside the channel, and what
has been written and is still to be flushed fits two bytes per sample. -/
abbrev State.encoderOk (s : State) : Prop :=
  s.phase = .encode →
    s.enc.n ≤ 32766 ∧ s.enc.i ≤ (encodeJob s).count ∧ s.enc.w + 2 * s.enc.n ≤ 2 * s.enc.i ∧
    s.frame.total ≤ 2 * (encodeJob s).count * s.frame.ch.val

/-- Every byte the model lists is inside host memory (20 R70, R71). -/
abbrev State.memOk (s : State) : Prop := s.mem.wf = true ∧ s.mem.inSpace = true

/-! ### What a command leaves unchanged -/

/-- STATUS.ERR, ERRCODE, ERRINFO0 and ERRINFO1 are unchanged. -/
abbrev SameReport (s t : State) : Prop :=
  t.err = s.err ∧ t.errCode = s.errCode ∧ t.errInfo0 = s.errInfo0 ∧ t.errInfo1 = s.errInfo1

/-- CWSTATE, SINKOFF, FRAMES and the sink are unchanged. -/
abbrev SameContainer (s t : State) : Prop :=
  t.cwState = s.cwState ∧ t.sinkOff = s.sinkOff ∧ t.frames = s.frames ∧ t.sink = s.sink ∧ t.sinkPlan = s.sinkPlan

/-- The ARG registers and which of them the host has written, its actions and data, and the parameters are unchanged. -/
abbrev SameHostSide (s t : State) : Prop :=
  t.args = s.args ∧ t.argWritten = s.argWritten ∧ t.inbox = s.inbox ∧ t.hostData = s.hostData ∧ t.params = s.params

/-- RES registers from number `k` on are unchanged. -/
abbrev SameResFrom (k : Nat) (s t : State) : Prop := ∀ i : Fin 6, k ≤ i.val → t.res[i] = s.res[i]

/-- Every byte of host memory outside `[lo, lo + n)` is unchanged. -/
abbrev SameMemOutside (lo n : Nat) (s t : State) : Prop :=
  ∀ a : Nat, ¬ (lo ≤ a ∧ a < lo + n) → t.mem.read a = s.mem.read a

/-- Every byte of host memory is unchanged. -/
abbrev SameMem (s t : State) : Prop := ∀ a : Nat, t.mem.read a = s.mem.read a

/-- 44 R305, 10 R51: the command has completed. What the internal state then holds is log 10, and is in `State.latchOk`. -/
abbrev Completed (t : State) : Prop := t.busy = false ∧ t.latch = none

/-- 10 R54: every register and internal element but ARG, for which the table gives a value, holds it. -/
abbrev AtResetValuesButArgs (t : State) : Prop :=
  t.busy = false ∧ t.err = false ∧ t.errCode = 0 ∧ t.cwState = .uninit ∧ t.errInfo0 = 0 ∧ t.errInfo1 = 0 ∧
  t.sinkOff = 0 ∧ t.frames = 0 ∧ (∀ i : Fin 6, t.res[i] = 0) ∧ t.latch = none ∧
  t.enc.n = 0 ∧ t.dec.owed = 0 ∧ t.dec.pos = 0 ∧ t.dec.j = 0 ∧ t.frame.ch = 0 ∧ t.frame.total = 0

/-- 10 R54: every register and internal element for which the table gives a value holds it. -/
abbrev AtResetValues (t : State) : Prop := AtResetValuesButArgs t ∧ ∀ i : Fin 8, t.args[i] = 0

/-- 60 R335, R336: the command has completed with this error report and no other effect than those the caller names. -/
abbrev Reported (code sub channel argIdx : Nat) (info : Word) (s t : State) : Prop :=
  t.err = true ∧ t.errCode.toNat = code ∧
  t.errInfo0.toNat = sub + 16 * channel + 256 * argIdx + 65536 * s.runningOp.toNat ∧
  t.errInfo1 = info ∧ t.res = s.res ∧ Completed t

/-- The command has completed with this error report and has had no other effect (60 R336). -/
abbrev OnlyReported (code sub channel argIdx : Nat) (info : Word) (s t : State) : Prop :=
  Reported code sub channel argIdx info s t ∧ SameContainer s t ∧ SameHostSide s t ∧ t.mem = s.mem ∧ t.draws = s.draws

/-! ### Byte strings in memory, records, samples, answers -/

/-- The bytes `bs` stand in memory from address `a` on. -/
abbrev HoldsAt (m : Memory) (a : Nat) (bs : List Byte) : Prop :=
  ∀ (t : Nat) (h : t < bs.length), m.read (a + t) = bs[t]

/-- Sample `j` stands in slot `dst + stride * j`, for each of the samples. -/
abbrev HoldsSlots (m : Memory) (dst stride : Nat) (samples : List Byte) : Prop :=
  ∀ (j : Nat) (h : j < samples.length), m.read (dst + stride * j) = samples[j]

/-- An instruction is a record form that the decoder accepts (30 R104). -/
def legalRecord (rejectNoncanonical : Bool) : Instr → Bool
  | .recShort len val => (recordError rejectNoncanonical (recordOf (.recShort len val))).isNone
  | .recLong hi lo val => (recordError rejectNoncanonical (recordOf (.recLong hi lo val))).isNone
  | .emitrec | .encch | .decch | .cmpfr | .dcmfr | .wrgh | .wrfr
  | .close | .prgh | .prfh | .clrerr | .srst => false

/-- The bytes of a record form (30 R101, R102). -/
def recordBytes (i : Instr) : List Byte :=
  match encode i with
  | .stream bs => bs
  | .command _ => []

/-- The bytes of a record list (30 R107). -/
def streamOf (rs : List Instr) : List Byte := rs.flatMap recordBytes

/-- The samples a record list stands for (41 R183). -/
def samplesOf (rs : List Instr) : List Byte :=
  rs.flatMap fun r => List.replicate (recordOf r).len (recordOf r).val

/-- A stream given as a list, as the decoder reads it from each offset on. -/
def listStream (bs : List Byte) (pos : Nat) : List Byte := (bs.drop pos).take 3

/-- 40 R143: `Seg(v, L)`, the records of a maximal run of `len` samples `v`. -/
def runSegments (v : Byte) (len : Nat) : List Byte :=
  (List.replicate (len / 32767) [0xFF, 0xFF, v]).flatten ++
    (if len % 32767 = 0 then []
     else if len % 32767 ≤ 127 then [BitVec.ofNat 8 (len % 32767), v]
     else [BitVec.ofNat 8 (128 + len % 32767 / 256), BitVec.ofNat 8 (len % 32767), v])

/-- No two neighbouring samples are equal: every maximal run has length 1 (40 R144). -/
abbrev Alternating (s : List Byte) : Prop := s.IsChain (· ≠ ·)

/-- The sink's plan starts with `n` accepted appends (20 R80). -/
abbrev AcceptsNext (s : State) (n : Nat) : Prop := ∃ rest, s.sinkPlan = List.replicate n .ok ++ rest

end Sys2Proof.Machine
end

