-- ==== Sys2Proof/Certificates/Slice0/Obligations.lean ====
section
/-!
DEFINITION. The statements for the provers. Each docstring names the rules of spec/ it formalises; arguments are those of the
latched command (`s.arg i` is arg[i], 44 R301), and every statement holds for every state.
-/

open Sys2Proof Sys2Proof.Machine

/-! ### Encoding and decoding -/

/-- 30 R100 to R103, R106, R114, R115: the decoder reads instruction `i` from a stream exactly when the stream begins with the
bytes the encoder gives `i`, and from a command word exactly when it is the word the encoder gives `i`. That the decoder reads
also records of length 0 and long records of length 1..127, and the execution rejects them, is log 15 (DEDUCED). -/
def Obligations.DecodingInvertsEncoding : Prop :=
  (∀ i : Instr, decode (encode i) = .ok i) ∧
  (∀ (bytes : List Byte) (i : Instr), decode (.stream bytes) = .ok i ↔
    ∃ code rest, encode i = .stream code ∧ bytes = code ++ rest) ∧
  (∀ (w : Word) (i : Instr), decode (.command w) = .ok i ↔ encode i = .command w)

/-- 30 R101, R102, R115: some words written out from the encodings (95 E2, E6, S2; the opcodes of R115). How a number of
spec/opcode_table.json becomes bytes or a command word, in the last three clauses, is log 23 (DEDUCED). -/
def Obligations.WrittenOutWordsDecode : Prop :=
  decode (.stream [0x7F, 0xAB]) = .ok (.recShort 127 0xAB) ∧
  decode (.stream [0x02, 0x0A, 0x99]) = .ok (.recShort 2 0x0A) ∧
  decode (.stream [0x81, 0x2C, 0x07]) = .ok (.recLong 1 0x2C 0x07) ∧
  decode (.stream [0xFF, 0xFF, 0x55]) = .ok (.recLong 127 0xFF 0x55) ∧
  decode (.command 0x00000001) = .ok .emitrec ∧
  decode (.command 0x00000005) = .ok .dcmfr ∧
  decode (.command 0x00000007) = .ok .wrfr ∧
  decode (.command 0x0000000A) = .ok .prfh ∧
  decode (.command 0x0000000F) = .ok .srst ∧
  decodeTableWord 16 0x7FAB = some (.recShort 127 0xAB) ∧
  decodeTableWord 24 0x812C07 = some (.recLong 1 0x2C 0x07) ∧
  decodeTableWord 32 0x00000002 = some .encch

/-- 44 R304, 60 R325: an issued word with bits [31:8] nonzero, or with an OP that 30 R116 reserves, raises IllegalCommand: the
report has OPCODE = v[7:0] and ERRINFO1 = v, and there is no other effect. -/
def Obligations.IllegalCommandReportsItsWord : Prop :=
  ∀ (s : State) (l : Latch), s.inbox = [] → s.busy = true → s.phase = .issued → s.latch = some l →
    (256 ≤ l.word.toNat ∨
      l.word.toNat ∉ [0x01, 0x02, 0x03, 0x04, 0x05, 0x06, 0x07, 0x08, 0x09, 0x0A, 0x0E, 0x0F]) →
    ∃ t, step s = .next t ∧ OnlyReported 5 0 0 0 l.word s t

/-! ### Steps, issue, the register block -/

/-- 44 R300, R309: when a command has just been issued and its word decodes to `i`, an engine turn is `exec i`, whether the
host has no action pending or leaves the turn to the engine. That a turn runs the whole command is log 1 (DEDUCED), and that
the engine moves when the host has nothing pending is log 2 (DESIGN CHOICE). -/
def Obligations.StepRunsTheLatchedCommand : Prop :=
  ∀ (s : State) (l : Latch) (i : Instr), s.busy = true → s.phase = .issued → s.latch = some l →
    decode (.command l.word) = .ok i →
    (s.inbox = [] → step s = exec i s) ∧
    (∀ rest, s.inbox = .engine :: rest → step s = exec i { s with inbox := rest })

/-- 30 R100, 41 R180, R183: when the engine stands in a channel decode that still owes samples, and the bytes of the stream at
the cursor (none past its end) decode to `i`, an engine turn is `exec i`. -/
def Obligations.StepRunsTheFetchedRecord : Prop :=
  ∀ (s : State) (bytes : List Byte) (i : Instr), s.busy = true → s.phase = .decode → 0 < s.dec.owed →
    HoldsAt s.mem ((decodeJob s).src + s.dec.pos) bytes → s.dec.pos + bytes.length ≤ (decodeJob s).len →
    encode i = .stream bytes →
    (s.inbox = [] → step s = exec i s) ∧
    (∀ rest, s.inbox = .engine :: rest → step s = exec i { s with inbox := rest })

/-- 44 R300, R301: an accepted CMD write (the block is idle, and has no error or the word is CLRERR's or SRST's) latches the word
and ARG0..ARG7 and sets BUSY; it changes nothing else. In every state, a host write to an ARG register changes that register and
nothing else (10 R39), and the arguments of a latched command stay as they are. The value written is a number or what the host's
last read returned (log 21). `argWritten`, the model's record of the ARG registers written since the CMD write (DEDUCED, log 29),
follows. -/
def Obligations.CommandWriteLatchesArguments : Prop :=
  (∀ (s : State) (rest : List HostOp) (x : HostValue) (v : Word), v = hostValue x s → s.busy = false →
    (s.err = false ∨ v = 0x0000000E ∨ v = 0x0000000F) → s.inbox = .writeReg 0x00 32 x :: rest →
    step s = .next { s with
      inbox := rest, busy := true, phase := .issued, latch := some ⟨v, s.args⟩, argWritten := Vector.replicate 8 false }) ∧
  (∀ (s : State) (rest : List HostOp) (k : Fin 8) (x : HostValue) (v : Word), v = hostValue x s →
    s.inbox = .writeReg (0x20 + 4 * k.val) 32 x :: rest →
    ∃ t, step s = .next t ∧
      t = { s with inbox := rest, args := s.args.set k v, argWritten := s.argWritten.set k true } ∧
      (s.latch.isSome = true → (∀ i, t.arg i = s.arg i) ∧ t.runningOp = s.runningOp))

/-- 44 R302, R303, 70 R375: while ERR = 1, a CMD write other than CLRERR or SRST changes no state; while BUSY = 1 every CMD
write is lost. -/
def Obligations.BlockedCommandWritesAreLost : Prop :=
  ∀ (s : State) (rest : List HostOp) (v : Word), s.inbox = .writeReg 0x00 32 (.lit v) :: rest →
    (s.err = true → v ≠ 0x0000000E → v ≠ 0x0000000F → step s = .next { s with inbox := rest }) ∧
    (s.busy = true → step s = .next { s with inbox := rest })

/-- 10 R41: a read of a reserved offset returns 0 and a write has no effect, in every state. 10 R32 to R38, R40: a write to any
other register but CMD and ARG0..ARG7 is ignored, in every state. 10 R30 to R40: what the registers read as. While BUSY = 1,
CMD, MAGIC_ID, FMT_ID and ARG read as when idle, and a read of another register changes nothing but the value read, which is
free (20 R86, 70 R374, log 13). That an idle block returns its registers also before the
host has read BUSY = 0 is log 31 (DEDUCED). STATUS is given by its fields in the next statement. -/
def Obligations.RegisterAccesses : Prop :=
  (∀ (s : State) (rest : List HostOp) (k : Nat) (v : HostValue), 0x58 ≤ 4 * k → 4 * k ≤ 0xFC →
    (s.inbox = .readReg (4 * k) 32 :: rest → step s = .next { s with inbox := rest, hostData := 0 }) ∧
    (s.inbox = .writeReg (4 * k) 32 v :: rest → step s = .next { s with inbox := rest })) ∧
  (∀ (s : State) (rest : List HostOp) (v : HostValue),
    ∀ off ∈ [0x04, 0x08, 0x0C, 0x10, 0x14, 0x18, 0x1C, 0x40, 0x44, 0x48, 0x4C, 0x50, 0x54],
    s.inbox = .writeReg off 32 v :: rest → step s = .next { s with inbox := rest }) ∧
  (∀ (s : State) (rest : List HostOp),
    (s.inbox = .readReg 0x00 32 :: rest → step s = .next { s with inbox := rest, hostData := 0 }) ∧
    (s.inbox = .readReg 0x18 32 :: rest → step s = .next { s with inbox := rest, hostData := s.params.magic }) ∧
    (s.inbox = .readReg 0x1C 32 :: rest → step s = .next { s with inbox := rest, hostData := s.params.fmtRle }) ∧
    (∀ i : Fin 8, s.inbox = .readReg (0x20 + 4 * i.val) 32 :: rest →
      step s = .next { s with inbox := rest, hostData := s.args[i] })) ∧
  (∀ (s : State) (rest : List HostOp), s.busy = false →
    (s.inbox = .readReg 0x08 32 :: rest → step s = .next { s with inbox := rest, hostData := s.errInfo0 }) ∧
    (s.inbox = .readReg 0x0C 32 :: rest → step s = .next { s with inbox := rest, hostData := s.errInfo1 }) ∧
    (s.inbox = .readReg 0x10 32 :: rest → step s = .next { s with inbox := rest, hostData := s.sinkOff }) ∧
    (s.inbox = .readReg 0x14 32 :: rest → step s = .next { s with inbox := rest, hostData := s.frames }) ∧
    (∀ i : Fin 6, s.inbox = .readReg (0x40 + 4 * i.val) 32 :: rest →
      step s = .next { s with inbox := rest, hostData := s.res[i] })) ∧
  (∀ (s : State) (rest : List HostOp), ∀ off ∈ [0x08, 0x0C, 0x10, 0x14, 0x40, 0x44, 0x48, 0x4C, 0x50, 0x54],
    s.busy = true → s.inbox = .readReg off 32 :: rest →
    ∃ (v : Word) (d : Nat), step s = .next { s with inbox := rest, hostData := v, draws := d })

/-- 10 R32, R45: the fields of STATUS as an idle block returns them: BUSY, ERR, ERRCODE, CWSTATE, and 0 in every reserved bit.
10 R43, 70 R374, R375: while BUSY = 1 a read returns BUSY = 1 and changes nothing else; the other fields are free then (log
13). That the read which first returns BUSY = 0 returns valid fields is log 31 (DEDUCED). -/
def Obligations.StatusReadsItsFields : Prop :=
  ∀ (s : State) (rest : List HostOp), s.inbox = .readReg 0x04 32 :: rest →
    (s.busy = false → ∃ v : Word, step s = .next { s with inbox := rest, hostData := v } ∧
      v.getLsbD 0 = false ∧ v.getLsbD 1 = s.err ∧ v.extractLsb' 4 4 = s.errCode ∧
      (v.extractLsb' 8 3).toNat =
        (match s.cwState with | .uninit => 0 | .hdr => 1 | .frame => 2 | .closed => 3 | .failed => 4) ∧
      v.extractLsb' 2 2 = 0 ∧ v.extractLsb' 11 21 = 0) ∧
    (s.busy = true → ∃ (v : Word) (d : Nat), step s = .next { s with inbox := rest, hostData := v, draws := d } ∧
      v.getLsbD 0 = true)

/-- 10 R42, 20 R87, 70 R376: the host accesses that have no meaning are refused, and the others are not: a register access is
refused exactly when it is no aligned 32-bit access in the block, a host write to memory exactly when it hits the running
command's ranges (which are log 12), and a host read of memory never. 20 R84 to R86: a host write stores its byte, and a read
returns the byte (zero-extended, log 21) unless it hits the running command's destination; that it
does so from completion on is log 31 (DEDUCED). -/
def Obligations.MeaninglessHostAccessesAreRefused : Prop :=
  (∀ (s : State) (rest : List HostOp) (off width : Nat),
    s.inbox = .readReg off width :: rest →
    ((width ≠ 32 ∨ off % 4 ≠ 0 ∨ 0xFC < off) ↔ step s = .refused .badRegisterAccess)) ∧
  (∀ (s : State) (rest : List HostOp) (off width : Nat) (v : HostValue),
    s.inbox = .writeReg off width v :: rest →
    ((width ≠ 32 ∨ off % 4 ≠ 0 ∨ 0xFC < off) ↔ step s = .refused .badRegisterAccess)) ∧
  (∀ (s : State) (rest : List HostOp) (a : Word) (v : Byte), s.inbox = .writeMem a v :: rest →
    (inRange (activeSource s) a.toNat = true ∨ inRange (activeDest s) a.toNat = true →
      step s = .refused .bufferWriteWhileBusy) ∧
    (inRange (activeSource s) a.toNat = false → inRange (activeDest s) a.toNat = false →
      step s = .next { s with inbox := rest, mem := s.mem.write a.toNat v }) ∧
    (s.busy = false → step s = .next { s with inbox := rest, mem := s.mem.write a.toNat v })) ∧
  (∀ (s : State) (rest : List HostOp) (a : Word), s.inbox = .readMem a :: rest →
    (s.busy = false ∨ inRange (activeDest s) a.toNat = false →
      step s = .next { s with inbox := rest, hostData := (s.mem.read a.toNat).setWidth 32 }) ∧
    (∃ (v : Word) (d : Nat), step s = .next { s with inbox := rest, hostData := v, draws := d }))

/-! ### Error reports, CLRERR, SRST, reset -/

/-- 44 R306: CLRERR is the word 0x0000000E only; it clears ERR, ERRCODE, ERRINFO0 and ERRINFO1 and changes nothing else. -/
def Obligations.ClrerrClearsTheReport : Prop :=
  (∀ w : Word, decode (.command w) = .ok .clrerr ↔ w = 0x0000000E) ∧
  ∀ s : State, ∃ t, exec .clrerr s = .next t ∧
    t.err = false ∧ t.errCode = 0 ∧ t.errInfo0 = 0 ∧ t.errInfo1 = 0 ∧
    SameContainer s t ∧ SameHostSide s t ∧ t.res = s.res ∧ t.mem = s.mem ∧ t.draws = s.draws ∧ Completed t

/-- 44 R307 with the values of 10 R54: SRST is the word 0x0000000F only; every register and internal element gets its reset
value, and host memory and the sink's contents are not touched. An ARG register that the host has written since SRST's CMD
write keeps that value, for the next command (70 R380; DEDUCED, log 29); the last clause says so of a run in which the host
issues SRST, writes ARGk, and leaves the engine its turn. The reset values that are the model's choice (log 8, 10) are not
stated. -/
def Obligations.SrstResetsTheBlock : Prop :=
  (∀ w : Word, decode (.command w) = .ok .srst ↔ w = 0x0000000F) ∧
  (∀ s : State, ∃ t, exec .srst s = .next t ∧ AtResetValuesButArgs t ∧
    (∀ i : Fin 8, t.args[i] = if s.argWritten[i] then s.args[i] else 0) ∧
    t.mem = s.mem ∧ t.sink = s.sink ∧ t.sinkPlan = s.sinkPlan ∧ t.inbox = s.inbox ∧ t.hostData = s.hostData ∧
    t.draws = s.draws ∧ t.params = s.params) ∧
  (∀ (s : State) (rest : List HostOp) (k : Fin 8) (v : Word), s.busy = false →
    s.inbox = .writeReg 0x00 32 (.lit 0x0F) :: .writeReg (0x20 + 4 * k.val) 32 (.lit v) :: .engine :: rest →
    ∃ t, Host.Core.run Sys2Proof.core 3 s = .next t ∧ AtResetValuesButArgs t ∧
      ∀ i : Fin 8, t.args[i] = if i = k then v else 0)

/-- 10 R54: the values of the table, at `State.reset`. -/
def Obligations.ResetStateHoldsTheResetValues : Prop :=
  AtResetValues State.reset ∧ State.reset.params.magic = Config.magic ∧ State.reset.params.fmtRle = Config.fmtRle

/-- 70 R370: the reset input of an idle block gives every register its reset value and leaves host memory and the sink
unchanged. 70 R372 (the ranges are log 12, 14): while BUSY = 1 it leaves every register at its reset value, every byte outside
the aborted command's destination as it was, and the sink's bytes followed by some prefix of those the command would have
appended. -/
def Obligations.ResetInputResetsTheBlock : Prop :=
  ∀ (s : State) (rest : List HostOp), s.inbox = .resetInput :: rest →
    (s.busy = false →
      ∃ t : State, step s = .next t ∧ AtResetValues t ∧ t.mem = s.mem ∧ t.sink = s.sink ∧ t.sinkPlan = s.sinkPlan ∧
        t.inbox = rest ∧ t.hostData = s.hostData ∧ t.draws = s.draws ∧ t.params = s.params) ∧
    (s.busy = true →
      ∃ (t : State) (k : Nat), step s = .next t ∧ AtResetValues t ∧
        SameMemOutside (activeDest s).1 (activeDest s).2 s t ∧
        t.sink = s.sink ++ (activeBytes s).take k ∧ t.inbox = rest ∧ t.params = s.params)

/-! ### Run Encoder -/

/-- 40 R140: EmitRecord raises for length 0 and for a length above 32767, and otherwise returns the two or three bytes. -/
def Obligations.EmitRecordChoosesTheForm : Prop :=
  ∀ (len : Nat) (val : Byte),
    (len = 0 → emitRecord len val = .error (.lenZero, len)) ∧
    (32767 < len → emitRecord len val = .error (.lenTooLong, len)) ∧
    (1 ≤ len → len ≤ 127 → emitRecord len val = .ok [BitVec.ofNat 8 len, val]) ∧
    (128 ≤ len → len ≤ 32767 →
      emitRecord len val = .ok [BitVec.ofNat 8 (128 + len / 256), BitVec.ofNat 8 (len % 256), val])

/-- 40 R149: EncodeSeq never asks for a record of an illegal length, so ENCCH and CMPFR never raise EncodingInvariantViolation.
-/
def Obligations.EncoderKeepsItsInvariant : Prop :=
  (∀ s : List Byte, ∃ out, encodeSeq s = .ok out) ∧
  (∀ s t : State, exec .encch s = .next t → t.err = true → s.err = false → t.errCode ≠ 1) ∧
  (∀ s t : State, exec .cmpfr s = .next t → t.err = true → s.err = false → t.errCode ≠ 1)

/-- 40 R143: the closed form, one maximal run at a time: a run of `len` samples `v` that the next sample ends gives `Seg(v,
len)` before the encoding of the rest, and `|Seg(v, len)| = 3 * (len div 32767) + width(len mod 32767)`. -/
def Obligations.EncodeSeqClosedForm : Prop :=
  encodeSeq [] = .ok [] ∧
  (∀ (v : Byte) (len : Nat) (rest out : List Byte), 1 ≤ len → rest.head? ≠ some v → encodeSeq rest = .ok out →
    encodeSeq (List.replicate len v ++ rest) = .ok (runSegments v len ++ out)) ∧
  (∀ (v : Byte) (len : Nat), (runSegments v len).length =
    3 * (len / 32767) +
      (if len % 32767 = 0 then 0 else if len % 32767 ≤ 127 then 2 else 3))

/-- 40 R144: the output has at most two bytes per sample, and exactly two when and only when every maximal run has length 1. -/
def Obligations.EncodeSeqOutputBound : Prop :=
  ∀ (s out : List Byte), encodeSeq s = .ok out →
    out.length ≤ 2 * s.length ∧ (out.length = 2 * s.length ↔ Alternating s)

/-- 40 R146: EMITREC with a legal length, a capacity that fits the record and a range inside memory writes the record's bytes at
dst, sets RES0 to their number, and leaves every other byte, register and the sink unchanged (40 R145). -/
def Obligations.EmitrecWritesOneRecord : Prop :=
  ∀ s : State, 1 ≤ s.arg 0 → s.arg 0 ≤ 32767 → (if s.arg 0 ≤ 127 then 2 else 3) ≤ s.arg 3 →
    s.arg 2 + s.arg 3 ≤ 2 ^ 32 →
    ∃ (t : State) (r : List Byte), exec .emitrec s = .next t ∧
      r = (if s.arg 0 ≤ 127 then [BitVec.ofNat 8 (s.arg 0), BitVec.ofNat 8 (s.arg 1)]
        else [BitVec.ofNat 8 (128 + s.arg 0 / 256), BitVec.ofNat 8 (s.arg 0 % 256), BitVec.ofNat 8 (s.arg 1)]) ∧
      HoldsAt t.mem (s.arg 2) r ∧ SameMemOutside (s.arg 2) r.length s t ∧
      t.res[0] = BitVec.ofNat 32 r.length ∧ SameResFrom 1 s t ∧
      SameReport s t ∧ SameContainer s t ∧ SameHostSide s t ∧ t.draws = s.draws ∧ Completed t

/-- 40 R146, 60 R329: EMITREC's checks in their order, each with its report and no other effect. -/
def Obligations.EmitrecReportsItsFirstError : Prop :=
  ∀ s : State,
    (s.arg 0 = 0 → ∃ t, exec .emitrec s = .next t ∧ OnlyReported 1 1 0 0 (s.argWord 0) s t) ∧
    (32767 < s.arg 0 → ∃ t, exec .emitrec s = .next t ∧ OnlyReported 1 2 0 0 (s.argWord 0) s t) ∧
    (1 ≤ s.arg 0 → s.arg 0 ≤ 32767 → s.arg 3 < (if s.arg 0 ≤ 127 then 2 else 3) →
      ∃ t, exec .emitrec s = .next t ∧ OnlyReported 6 3 0 3 (s.argWord 3) s t) ∧
    (1 ≤ s.arg 0 → s.arg 0 ≤ 32767 → (if s.arg 0 ≤ 127 then 2 else 3) ≤ s.arg 3 → 2 ^ 32 < s.arg 2 + s.arg 3 →
      ∃ t, exec .emitrec s = .next t ∧ OnlyReported 6 4 0 2 (s.argWord 2) s t)

/-- 40 R147: the conditions under which ENCCH executes, and 40 R145: it writes EncodeSeq of its view at dst, sets RES0 to the
number of bytes, and leaves every other byte, register and the sink unchanged. -/
def Obligations.EncchEncodesItsView : Prop :=
  ∀ s : State, (s.arg 1 = 1 ∨ s.arg 1 = 4) → s.arg 2 ≤ s.params.maxPixels → 2 * s.arg 2 ≤ s.arg 4 →
    (s.arg 2 = 0 ∨ s.arg 0 + s.arg 1 * (s.arg 2 - 1) + 1 ≤ 2 ^ 32) → s.arg 3 + s.arg 4 ≤ 2 ^ 32 →
    (s.arg 2 = 0 ∨ s.arg 4 = 0 ∨ s.arg 3 + s.arg 4 ≤ s.arg 0 ∨ s.arg 0 + s.arg 1 * (s.arg 2 - 1) + 1 ≤ s.arg 3) →
    ∃ (t : State) (out : List Byte), exec .encch s = .next t ∧
      encodeSeq ((List.range (s.arg 2)).map fun i => s.mem.read (s.arg 0 + s.arg 1 * i)) = .ok out ∧
      HoldsAt t.mem (s.arg 3) out ∧ SameMemOutside (s.arg 3) out.length s t ∧
      t.res[0] = BitVec.ofNat 32 out.length ∧ SameResFrom 1 s t ∧
      SameReport s t ∧ SameContainer s t ∧ SameHostSide s t ∧ t.draws = s.draws ∧ Completed t

/-- 40 R147, 60 R329: ENCCH's checks in their order, each with its report and no other effect. -/
def Obligations.EncchReportsItsFirstError : Prop :=
  ∀ s : State, ∀ sp : Nat, sp = (if s.arg 2 = 0 then 0 else s.arg 1 * (s.arg 2 - 1) + 1) →
    (¬ (s.arg 1 = 1 ∨ s.arg 1 = 4) →
      ∃ t, exec .encch s = .next t ∧ OnlyReported 6 1 0 1 (s.argWord 1) s t) ∧
    ((s.arg 1 = 1 ∨ s.arg 1 = 4) →
      (s.params.maxPixels < s.arg 2 →
        ∃ t, exec .encch s = .next t ∧ OnlyReported 6 2 0 2 (s.argWord 2) s t) ∧
      (s.arg 2 ≤ s.params.maxPixels → s.arg 4 < 2 * s.arg 2 →
        ∃ t, exec .encch s = .next t ∧ OnlyReported 6 3 0 4 (s.argWord 4) s t) ∧
      (s.arg 2 ≤ s.params.maxPixels → 2 * s.arg 2 ≤ s.arg 4 → 2 ^ 32 < s.arg 0 + sp →
        ∃ t, exec .encch s = .next t ∧ OnlyReported 6 4 0 0 (s.argWord 0) s t) ∧
      (s.arg 2 ≤ s.params.maxPixels → 2 * s.arg 2 ≤ s.arg 4 → s.arg 0 + sp ≤ 2 ^ 32 →
        2 ^ 32 < s.arg 3 + s.arg 4 →
        ∃ t, exec .encch s = .next t ∧ OnlyReported 6 4 0 3 (s.argWord 3) s t) ∧
      (s.arg 2 ≤ s.params.maxPixels → 2 * s.arg 2 ≤ s.arg 4 → s.arg 0 + sp ≤ 2 ^ 32 →
        s.arg 3 + s.arg 4 ≤ 2 ^ 32 → 0 < sp → 0 < s.arg 4 → s.arg 0 < s.arg 3 + s.arg 4 → s.arg 3 < s.arg 0 + sp →
        ∃ t, exec .encch s = .next t ∧ OnlyReported 6 5 0 3 (s.argWord 3) s t))

/-! ### Run Decoder -/

/-- 41 R181, R182: a record of a legal length that does not overshoot writes its value into the next `len` slots, advances `j`
by the length and `pos` by the record's width, and lowers `owed` by the length. It changes nothing else. -/
def Obligations.RecordsFillTheirSlots : Prop :=
  (∀ (s : State) (len : BitVec 7) (val : Byte), len ≠ 0 → len.toNat ≤ s.dec.owed → 0 < (decodeJob s).stride →
    ∃ t, exec (.recShort len val) s = .next t ∧
      (∀ k < len.toNat, t.mem.read ((decodeJob s).dst + (decodeJob s).stride * (s.dec.j + k)) = val) ∧
      (∀ a, (∀ k < len.toNat, a ≠ (decodeJob s).dst + (decodeJob s).stride * (s.dec.j + k)) →
        t.mem.read a = s.mem.read a) ∧
      t.dec = ⟨s.dec.pos + 2, s.dec.owed - len.toNat, s.dec.j + len.toNat⟩ ∧
      { t with mem := s.mem, dec := s.dec } = s) ∧
  (∀ (s : State) (hi : BitVec 7) (lo val : Byte) (len : Nat), len = 256 * hi.toNat + lo.toNat → 1 ≤ len →
    (128 ≤ len ∨ s.params.decRejectNoncanonical = false) → len ≤ s.dec.owed → 0 < (decodeJob s).stride →
    ∃ t, exec (.recLong hi lo val) s = .next t ∧
      (∀ k < len, t.mem.read ((decodeJob s).dst + (decodeJob s).stride * (s.dec.j + k)) = val) ∧
      (∀ a, (∀ k < len, a ≠ (decodeJob s).dst + (decodeJob s).stride * (s.dec.j + k)) →
        t.mem.read a = s.mem.read a) ∧
      t.dec = ⟨s.dec.pos + 3, s.dec.owed - len, s.dec.j + len⟩ ∧
      { t with mem := s.mem, dec := s.dec } = s)

/-- 41 R181, R182, 30 R104: a record of length 0, a long record of length 1..127 under `DEC_REJECT_NONCANONICAL`, and a record
longer than the owed count raise FormatError with the cursor as offset, in this order, before the record writes anything. -/
def Obligations.IllegalRecordsWriteNothing : Prop :=
  (∀ (s : State) (val : Byte), ∃ t, exec (.recShort 0 val) s = .next t ∧
    OnlyReported 2 3 s.frame.ch.val 0 (BitVec.ofNat 32 s.dec.pos) s t) ∧
  (∀ (s : State) (val : Byte), ∃ t, exec (.recLong 0 0 val) s = .next t ∧
    OnlyReported 2 3 s.frame.ch.val 0 (BitVec.ofNat 32 s.dec.pos) s t) ∧
  (∀ (s : State) (lo val : Byte), s.params.decRejectNoncanonical = true → 1 ≤ lo.toNat → lo.toNat ≤ 127 →
    ∃ t, exec (.recLong 0 lo val) s = .next t ∧
      OnlyReported 2 4 s.frame.ch.val 0 (BitVec.ofNat 32 s.dec.pos) s t) ∧
  (∀ (s : State) (len : BitVec 7) (val : Byte), s.dec.owed < len.toNat →
    ∃ t, exec (.recShort len val) s = .next t ∧
      OnlyReported 2 5 s.frame.ch.val 0 (BitVec.ofNat 32 s.dec.pos) s t) ∧
  (∀ (s : State) (hi : BitVec 7) (lo val : Byte), s.dec.owed < 256 * hi.toNat + lo.toNat →
    (128 ≤ 256 * hi.toNat + lo.toNat ∨ s.params.decRejectNoncanonical = false) →
    ∃ t, exec (.recLong hi lo val) s = .next t ∧
      OnlyReported 2 5 s.frame.ch.val 0 (BitVec.ofNat 32 s.dec.pos) s t)

/-- 41 R183, R184, R187: when DECCH's checks pass and its stream begins with legal records whose lengths sum to the count, the
command completes: slot j holds sample j, RES0 is the number of bytes those records have, whatever follows them, and every
byte that is no slot, every other register and the sink are unchanged (41 R185). -/
def Obligations.DecchDecodesItsRecords : Prop :=
  ∀ (s : State) (rs : List Instr) (rest : List Byte), firstError (decchChecks s.params.maxPixels s.arg) = none →
    rs.all (legalRecord s.params.decRejectNoncanonical) = true → (samplesOf rs).length = s.arg 2 →
    s.arg 1 = (streamOf rs ++ rest).length → HoldsAt s.mem (s.arg 0) (streamOf rs ++ rest) →
    ∃ t, exec .decch s = .next t ∧ HoldsSlots t.mem (s.arg 3) (s.arg 4) (samplesOf rs) ∧
      (∀ a, (∀ j < s.arg 2, a ≠ s.arg 3 + s.arg 4 * j) → t.mem.read a = s.mem.read a) ∧
      t.res[0] = BitVec.ofNat 32 (streamOf rs).length ∧ SameResFrom 1 s t ∧
      SameReport s t ∧ SameContainer s t ∧ SameHostSide s t ∧ t.draws = s.draws ∧ Completed t

/-- 41 R186, R187: when the records before it leave samples owed and the next record fails, DECCH reports FormatError at that
record's offset with channel 0; the records before it have written their slots, nothing else is written, and no RES
register. `sub` is the subcode of 41 R180's checks, or OVERSHOOT. -/
def Obligations.DecchStopsAtTheFailingRecord : Prop :=
  ∀ (s : State) (rs : List Instr) (rest : List Byte) (f : FormatSub) (sub : Nat),
    firstError (decchChecks s.params.maxPixels s.arg) = none →
    rs.all (legalRecord s.params.decRejectNoncanonical) = true → (samplesOf rs).length < s.arg 2 →
    s.arg 1 = (streamOf rs ++ rest).length → HoldsAt s.mem (s.arg 0) (streamOf rs ++ rest) →
    (decodeRecord s.params.decRejectNoncanonical rest = .error f ∨
      (∃ r, decodeRecord s.params.decRejectNoncanonical rest = .ok r ∧ s.arg 2 - (samplesOf rs).length < r.len ∧
        f = .overshoot)) →
    sub = (match f with
      | .exhausted => 1 | .truncated => 2 | .zeroLength => 3 | .nonCanonical => 4 | .overshoot => 5
      | .trailing => 6 | .shortHeader => 7 | .badMagic => 8 | .badVersion => 9) →
    ∃ t, exec .decch s = .next t ∧
      Reported 2 sub 0 0 (BitVec.ofNat 32 (streamOf rs).length) s t ∧
      HoldsSlots t.mem (s.arg 3) (s.arg 4) (samplesOf rs) ∧
      (∀ a, (∀ j < (samplesOf rs).length, a ≠ s.arg 3 + s.arg 4 * j) → t.mem.read a = s.mem.read a) ∧
      SameContainer s t ∧ SameHostSide s t ∧ t.draws = s.draws

/-- 41 R187, 60 R329: DECCH's argument checks in their order, each with its report and no other effect. -/
def Obligations.DecchReportsItsFirstArgumentError : Prop :=
  ∀ s : State, ∀ sp : Nat, sp = (if s.arg 2 = 0 then 0 else s.arg 4 * (s.arg 2 - 1) + 1) →
    (¬ (s.arg 4 = 1 ∨ s.arg 4 = 4) →
      ∃ t, exec .decch s = .next t ∧ OnlyReported 6 1 0 4 (s.argWord 4) s t) ∧
    ((s.arg 4 = 1 ∨ s.arg 4 = 4) →
      (s.params.maxPixels < s.arg 2 →
        ∃ t, exec .decch s = .next t ∧ OnlyReported 6 2 0 2 (s.argWord 2) s t) ∧
      (s.arg 2 ≤ s.params.maxPixels → 2 ^ 32 < s.arg 0 + s.arg 1 →
        ∃ t, exec .decch s = .next t ∧ OnlyReported 6 4 0 0 (s.argWord 0) s t) ∧
      (s.arg 2 ≤ s.params.maxPixels → s.arg 0 + s.arg 1 ≤ 2 ^ 32 → 2 ^ 32 < s.arg 3 + sp →
        ∃ t, exec .decch s = .next t ∧ OnlyReported 6 4 0 3 (s.argWord 3) s t) ∧
      (s.arg 2 ≤ s.params.maxPixels → s.arg 0 + s.arg 1 ≤ 2 ^ 32 → s.arg 3 + sp ≤ 2 ^ 32 →
        0 < s.arg 1 → 0 < sp → s.arg 0 < s.arg 3 + sp → s.arg 3 < s.arg 0 + s.arg 1 →
        ∃ t, exec .decch s = .next t ∧ OnlyReported 6 5 0 3 (s.argWord 3) s t))

/-- 41 R180: DecodeRecord on the bytes from the cursor on: EXHAUSTED on none, TRUNCATED on too few, then ZERO_LENGTH, then
NONCANONICAL, else the length, value and width of the record, whatever follows it. -/
def Obligations.DecodeRecordReadsLengthValueWidth : Prop :=
  ∀ (rej : Bool) (b0 b1 b2 : Byte) (rest : List Byte),
    decodeRecord rej [] = .error .exhausted ∧
    decodeRecord rej [b0] = .error .truncated ∧
    (128 ≤ b0.toNat → decodeRecord rej [b0, b1] = .error .truncated) ∧
    (b0.toNat = 0 → decodeRecord rej (b0 :: b1 :: rest) = .error .zeroLength) ∧
    (1 ≤ b0.toNat → b0.toNat ≤ 127 → decodeRecord rej (b0 :: b1 :: rest) = .ok ⟨b0.toNat, b1, 2⟩) ∧
    (128 ≤ b0.toNat → ∀ len, len = 256 * (b0.toNat - 128) + b1.toNat →
      (len = 0 → decodeRecord rej (b0 :: b1 :: b2 :: rest) = .error .zeroLength) ∧
      (1 ≤ len → len ≤ 127 → rej = true →
        decodeRecord rej (b0 :: b1 :: b2 :: rest) = .error .nonCanonical) ∧
      (1 ≤ len → (128 ≤ len ∨ rej = false) →
        decodeRecord rej (b0 :: b1 :: b2 :: rest) = .ok ⟨len, b2, 3⟩))

/-- 41 R188: the round trip of one channel: DECCH on the encoding of the samples, followed by any bytes, writes every sample to
its slot and returns the length of the encoding in RES0, for both values of `DEC_REJECT_NONCANONICAL`. -/
def Obligations.DecchInvertsTheEncoder : Prop :=
  ∀ (s : State) (samples e rest : List Byte), firstError (decchChecks s.params.maxPixels s.arg) = none →
    encodeSeq samples = .ok e → samples.length = s.arg 2 → s.arg 1 = (e ++ rest).length →
    HoldsAt s.mem (s.arg 0) (e ++ rest) →
    ∃ t, exec .decch s = .next t ∧ HoldsSlots t.mem (s.arg 3) (s.arg 4) samples ∧
      t.res[0] = BitVec.ofNat 32 e.length ∧ SameReport s t

/-- 41 R189: an encoding is the stream of a list of legal records for its samples, and such a stream cut short fails at record
`k`, the one that the cut splits or that would begin at the cut: with EXHAUSTED if the cut is the boundary before it and with
TRUNCATED if it falls inside it. Cut by one byte, it fails with TRUNCATED at the last record. -/
def Obligations.CutEncodingsAreTruncated : Prop :=
  (∀ samples e : List Byte, encodeSeq samples = .ok e →
    ∃ rs : List Instr, (∀ rej, rs.all (legalRecord rej) = true) ∧ streamOf rs = e ∧ samplesOf rs = samples) ∧
  (∀ (rej : Bool) (rs : List Instr) (cut dst stride fuel : Nat) (m : Memory), rs.all (legalRecord rej) = true →
    cut < (streamOf rs).length → cut < fuel →
    ∃ (r : ChannelResult) (k : Nat),
      r = decodeChannel rej (listStream ((streamOf rs).take cut)) dst stride fuel m ⟨0, (samplesOf rs).length, 0⟩ ∧
      k < rs.length ∧ (streamOf (rs.take k)).length ≤ cut ∧ cut < (streamOf (rs.take (k + 1))).length ∧
      r.dec.pos = (streamOf (rs.take k)).length ∧
      r.err = some (if cut = (streamOf (rs.take k)).length then .exhausted else .truncated) ∧
      (cut + 1 = (streamOf rs).length → k + 1 = rs.length ∧ r.err = some .truncated))

/-- 41 R185, 60 R336: whatever DECCH's outcome, it leaves every byte that is none of its slots, CWSTATE, SINKOFF, FRAMES, the
sink, the ARG registers and RES1..RES5 unchanged, and when it reports an error also RES0 and, for an ArgumentError, all of
memory. -/
def Obligations.DecchTouchesOnlyItsSlots : Prop :=
  ∀ s t : State, exec .decch s = .next t →
    (∀ a, (∀ j < s.arg 2, a ≠ s.arg 3 + s.arg 4 * j) → t.mem.read a = s.mem.read a) ∧
    SameResFrom 1 s t ∧ SameContainer s t ∧ SameHostSide s t ∧ t.draws = s.draws ∧ Completed t ∧
    (t.res[0] ≠ s.res[0] → SameReport s t) ∧
    (s.err = false → t.err = true → t.errCode = 6 → SameMem s t)

/-! ### Frame Compressor and Decompressor -/

/-- 42 R221, R222, R223: when CMPFR's checks pass, the payload at dst is the four channels' encodings in channel order, RES0 is
its length, RES1..RES4 are the four lengths, and every byte outside the capacity, every other register and the sink are
unchanged (the capacity's bytes past the payload hold any value, 42 R227). -/
def Obligations.CmpfrCompressesTheFrame : Prop :=
  ∀ s : State, s.arg 1 ≤ s.params.maxPixels → 8 * s.arg 1 ≤ s.arg 3 → s.arg 0 + 4 * s.arg 1 ≤ 2 ^ 32 →
    s.arg 2 + s.arg 3 ≤ 2 ^ 32 →
    (s.arg 1 = 0 ∨ s.arg 0 + 4 * s.arg 1 ≤ s.arg 2 ∨ s.arg 2 + s.arg 3 ≤ s.arg 0) →
    ∃ (t : State) (e : Fin 4 → List Byte), exec .cmpfr s = .next t ∧
      (∀ k : Fin 4, encodeSeq ((List.range (s.arg 1)).map fun i => s.mem.read (s.arg 0 + 4 * i + k.val)) = .ok (e k)) ∧
      HoldsAt t.mem (s.arg 2) (e 0 ++ e 1 ++ e 2 ++ e 3) ∧ SameMemOutside (s.arg 2) (s.arg 3) s t ∧
      t.res[0] = BitVec.ofNat 32 ((e 0).length + (e 1).length + (e 2).length + (e 3).length) ∧
      t.res[1] = BitVec.ofNat 32 (e 0).length ∧ t.res[2] = BitVec.ofNat 32 (e 1).length ∧
      t.res[3] = BitVec.ofNat 32 (e 2).length ∧ t.res[4] = BitVec.ofNat 32 (e 3).length ∧
      SameResFrom 5 s t ∧ SameReport s t ∧ SameContainer s t ∧ SameHostSide s t ∧ Completed t

/-- 42 R224: RES0 is at most 8N, with equality exactly when every channel is alternating. -/
def Obligations.CmpfrPayloadBound : Prop :=
  ∀ s t : State, s.params.fits → firstError (cmpfrChecks s.params.maxPixels s.arg) = none → exec .cmpfr s = .next t →
    t.res[0].toNat ≤ 8 * s.arg 1 ∧
    (t.res[0].toNat = 8 * s.arg 1 ↔
      ∀ k : Fin 4, Alternating ((List.range (s.arg 1)).map fun i => s.mem.read (s.arg 0 + 4 * i + k.val)))

/-- 42 R222, 60 R329: CMPFR's checks in their order, each with its report and no other effect. -/
def Obligations.CmpfrReportsItsFirstError : Prop :=
  ∀ s : State,
    (s.params.maxPixels < s.arg 1 →
      ∃ t, exec .cmpfr s = .next t ∧ OnlyReported 6 2 0 1 (s.argWord 1) s t) ∧
    (s.arg 1 ≤ s.params.maxPixels → s.arg 3 < 8 * s.arg 1 →
      ∃ t, exec .cmpfr s = .next t ∧ OnlyReported 6 3 0 3 (s.argWord 3) s t) ∧
    (s.arg 1 ≤ s.params.maxPixels → 8 * s.arg 1 ≤ s.arg 3 → 2 ^ 32 < s.arg 0 + 4 * s.arg 1 →
      ∃ t, exec .cmpfr s = .next t ∧ OnlyReported 6 4 0 0 (s.argWord 0) s t) ∧
    (s.arg 1 ≤ s.params.maxPixels → 8 * s.arg 1 ≤ s.arg 3 → s.arg 0 + 4 * s.arg 1 ≤ 2 ^ 32 →
      2 ^ 32 < s.arg 2 + s.arg 3 →
      ∃ t, exec .cmpfr s = .next t ∧ OnlyReported 6 4 0 2 (s.argWord 2) s t) ∧
    (s.arg 1 ≤ s.params.maxPixels → 8 * s.arg 1 ≤ s.arg 3 → s.arg 0 + 4 * s.arg 1 ≤ 2 ^ 32 →
      s.arg 2 + s.arg 3 ≤ 2 ^ 32 → 0 < s.arg 1 → s.arg 0 < s.arg 2 + s.arg 3 → s.arg 2 < s.arg 0 + 4 * s.arg 1 →
      ∃ t, exec .cmpfr s = .next t ∧ OnlyReported 6 5 0 2 (s.argWord 2) s t)

/-- 42 R228, R229: when DCMFR's checks pass and its payload is exactly four record lists, one a channel, whose lengths sum to N
each, the command completes: sample i of channel k is at dst + 4i + k, RES0 is the payload length, RES1..RES4 are the bytes of
the four channels, and every byte outside the pixel buffer, every other register and the sink are unchanged. -/
def Obligations.DcmfrDecodesFourChannels : Prop :=
  ∀ (s : State) (rs : Fin 4 → List Instr), firstError (dcmfrChecks s.params.maxPixels s.arg) = none →
    (∀ k, (rs k).all (legalRecord s.params.decRejectNoncanonical) = true) →
    (∀ k, (samplesOf (rs k)).length = s.arg 2) →
    s.arg 1 = (streamOf (rs 0) ++ streamOf (rs 1) ++ streamOf (rs 2) ++ streamOf (rs 3)).length →
    HoldsAt s.mem (s.arg 0) (streamOf (rs 0) ++ streamOf (rs 1) ++ streamOf (rs 2) ++ streamOf (rs 3)) →
    ∃ t, exec .dcmfr s = .next t ∧
      (∀ k : Fin 4, HoldsSlots t.mem (s.arg 3 + k.val) 4 (samplesOf (rs k))) ∧
      SameMemOutside (s.arg 3) (4 * s.arg 2) s t ∧
      t.res[0] = BitVec.ofNat 32 (s.arg 1) ∧
      t.res[1] = BitVec.ofNat 32 (streamOf (rs 0)).length ∧ t.res[2] = BitVec.ofNat 32 (streamOf (rs 1)).length ∧
      t.res[3] = BitVec.ofNat 32 (streamOf (rs 2)).length ∧ t.res[4] = BitVec.ofNat 32 (streamOf (rs 3)).length ∧
      SameResFrom 5 s t ∧ SameReport s t ∧ SameContainer s t ∧ SameHostSide s t ∧ t.draws = s.draws ∧ Completed t

/-- 42 R228, R229, 60 R336: when the channels before `k` are complete and the next record of channel `k` fails a check of 41
R180 or overshoots, DCMFR reports FormatError with CHANNEL = k at that record's offset; the channels and records before it have
written their slots, nothing else is written, and no RES register. Bytes left after channel 3 raise TRAILING with channel 3 and
the offset of the first of them, after the whole destination has been written. -/
def Obligations.DcmfrReportsFormatErrors : Prop :=
  (∀ (s : State) (k : Fin 4) (rs : Fin 4 → List Instr) (front rest : List Byte) (f : FormatSub),
    firstError (dcmfrChecks s.params.maxPixels s.arg) = none →
    (∀ j ≤ k, (rs j).all (legalRecord s.params.decRejectNoncanonical) = true) →
    (∀ j < k, (samplesOf (rs j)).length = s.arg 2) → (samplesOf (rs k)).length < s.arg 2 →
    front = ((List.finRange 4).take (k.val + 1)).flatMap (fun j => streamOf (rs j)) →
    s.arg 1 = (front ++ rest).length → HoldsAt s.mem (s.arg 0) (front ++ rest) →
    (decodeRecord s.params.decRejectNoncanonical rest = .error f ∨
      (∃ r, decodeRecord s.params.decRejectNoncanonical rest = .ok r ∧ s.arg 2 - (samplesOf (rs k)).length < r.len ∧
        f = .overshoot)) →
    ∃ t, exec .dcmfr s = .next t ∧
      Reported 2 (formatSubCode f) k.val 0 (BitVec.ofNat 32 front.length) s t ∧
      (∀ j ≤ k, HoldsSlots t.mem (s.arg 3 + j.val) 4 (samplesOf (rs j))) ∧
      (∀ a, (∀ j ≤ k, ∀ i < (samplesOf (rs j)).length, a ≠ s.arg 3 + j.val + 4 * i) → t.mem.read a = s.mem.read a) ∧
      SameContainer s t ∧ SameHostSide s t ∧ t.draws = s.draws) ∧
  (∀ (s : State) (rs : Fin 4 → List Instr) (rest : List Byte),
    firstError (dcmfrChecks s.params.maxPixels s.arg) = none →
    (∀ k, (rs k).all (legalRecord s.params.decRejectNoncanonical) = true) →
    (∀ k, (samplesOf (rs k)).length = s.arg 2) → rest ≠ [] →
    s.arg 1 = (streamOf (rs 0) ++ streamOf (rs 1) ++ streamOf (rs 2) ++ streamOf (rs 3) ++ rest).length →
    HoldsAt s.mem (s.arg 0) (streamOf (rs 0) ++ streamOf (rs 1) ++ streamOf (rs 2) ++ streamOf (rs 3) ++ rest) →
    ∃ t, exec .dcmfr s = .next t ∧ Reported 2 6 3 0 (BitVec.ofNat 32 (s.arg 1 - rest.length)) s t ∧
      (∀ k : Fin 4, HoldsSlots t.mem (s.arg 3 + k.val) 4 (samplesOf (rs k))) ∧
      SameMemOutside (s.arg 3) (4 * s.arg 2) s t ∧ SameContainer s t ∧ SameHostSide s t ∧ t.draws = s.draws)

/-- 42 R229, 60 R329: DCMFR's argument checks in their order, each with its report and no other effect. -/
def Obligations.DcmfrReportsItsFirstArgumentError : Prop :=
  ∀ s : State,
    (s.params.maxPixels < s.arg 2 →
      ∃ t, exec .dcmfr s = .next t ∧ OnlyReported 6 2 0 2 (s.argWord 2) s t) ∧
    (s.arg 2 ≤ s.params.maxPixels → 2 ^ 32 < s.arg 0 + s.arg 1 →
      ∃ t, exec .dcmfr s = .next t ∧ OnlyReported 6 4 0 0 (s.argWord 0) s t) ∧
    (s.arg 2 ≤ s.params.maxPixels → s.arg 0 + s.arg 1 ≤ 2 ^ 32 → 2 ^ 32 < s.arg 3 + 4 * s.arg 2 →
      ∃ t, exec .dcmfr s = .next t ∧ OnlyReported 6 4 0 3 (s.argWord 3) s t) ∧
    (s.arg 2 ≤ s.params.maxPixels → s.arg 0 + s.arg 1 ≤ 2 ^ 32 → s.arg 3 + 4 * s.arg 2 ≤ 2 ^ 32 →
      0 < s.arg 1 → 0 < s.arg 2 → s.arg 0 < s.arg 3 + 4 * s.arg 2 → s.arg 3 < s.arg 0 + s.arg 1 →
      ∃ t, exec .dcmfr s = .next t ∧ OnlyReported 6 5 0 3 (s.argWord 3) s t)

/-- 42 R230: the round trip of one frame: DCMFR on the payload that the compressor gives a pixel buffer `b` of N pixels writes
`b` exactly and sets RES0 to the payload's length and RES1..RES4 to the channels' lengths. -/
def Obligations.DcmfrInvertsTheCompressor : Prop :=
  ∀ (s : State) (b : List Byte) (e : Fin 4 → List Byte), firstError (dcmfrChecks s.params.maxPixels s.arg) = none →
    b.length = 4 * s.arg 2 →
    (∀ k : Fin 4, encodeSeq ((List.range (s.arg 2)).map fun i => b.getD (4 * i + k.val) 0) = .ok (e k)) →
    s.arg 1 = (e 0 ++ e 1 ++ e 2 ++ e 3).length → HoldsAt s.mem (s.arg 0) (e 0 ++ e 1 ++ e 2 ++ e 3) →
    ∃ t, exec .dcmfr s = .next t ∧ HoldsAt t.mem (s.arg 3) b ∧ SameReport s t ∧
      t.res[0] = BitVec.ofNat 32 (e 0 ++ e 1 ++ e 2 ++ e 3).length ∧
      t.res[1] = BitVec.ofNat 32 (e 0).length ∧ t.res[2] = BitVec.ofNat 32 (e 1).length ∧
      t.res[3] = BitVec.ofNat 32 (e 2).length ∧ t.res[4] = BitVec.ofNat 32 (e 3).length

/-- 42 R232: a frame's payload cut by one byte fails with TRUNCATED in channel 3, at the offset of the last record of channel
3's records `rs`; channels 0..2 and every record of channel 3 before the last have been written. -/
def Obligations.CutFramesAreTruncated : Prop :=
  ∀ (s : State) (b : List Byte) (e : Fin 4 → List Byte), firstError (dcmfrChecks s.params.maxPixels s.arg) = none →
    b.length = 4 * s.arg 2 → 1 ≤ s.arg 2 →
    (∀ k : Fin 4, encodeSeq ((List.range (s.arg 2)).map fun i => b.getD (4 * i + k.val) 0) = .ok (e k)) →
    s.arg 1 + 1 = (e 0 ++ e 1 ++ e 2 ++ e 3).length →
    HoldsAt s.mem (s.arg 0) ((e 0 ++ e 1 ++ e 2 ++ e 3).take (s.arg 1)) →
    ∃ (t : State) (rs : List Instr), exec .dcmfr s = .next t ∧
      rs.all (legalRecord s.params.decRejectNoncanonical) = true ∧ streamOf rs = e 3 ∧
      samplesOf rs = ((List.range (s.arg 2)).map fun i => b.getD (4 * i + 3) 0) ∧
      Reported 2 2 3 0 (BitVec.ofNat 32 (e 0 ++ e 1 ++ e 2 ++ streamOf rs.dropLast).length) s t ∧
      (∀ k : Fin 4, k ≠ 3 → ∀ i < s.arg 2, t.mem.read (s.arg 3 + 4 * i + k.val) = b.getD (4 * i + k.val) 0) ∧
      (∀ i < (samplesOf rs.dropLast).length, t.mem.read (s.arg 3 + 4 * i + 3) = b.getD (4 * i + 3) 0)

/-! ### Container -/

/-- 43 R251, R254, 20 R75, R80: WRGH in UNINIT, with a sink that accepts 24 bytes, appends the six little-endian fields, counts
them in SINKOFF, sets CWSTATE = HDR and RES0 = 24, and changes nothing else. -/
def Obligations.WrghWritesTheGlobalHeader : Prop :=
  ∀ s : State, s.cwState = .uninit → AcceptsNext s 24 →
    ∃ t, exec .wrgh s = .next t ∧
      t.sink = s.sink ++ le32 s.params.magic ++ [0x01, 0x00, 0x00, 0x00] ++ le32 (s.argWord 0) ++ le32 (s.argWord 1)
        ++ le32 (s.argWord 2) ++ le32 (s.argWord 3) ∧
      t.sinkOff = s.sinkOff + 24 ∧ t.sinkPlan = s.sinkPlan.drop 24 ∧ t.cwState = .hdr ∧ t.frames = s.frames ∧
      t.res[0] = 24 ∧ SameResFrom 1 s t ∧ SameReport s t ∧ SameHostSide s t ∧ t.mem = s.mem ∧
      t.draws = s.draws ∧ Completed t

/-- 43 R252, R255, 30 R110, R111: WRFR in HDR or FRAME, with a payload inside memory and a sink that accepts the frame, appends
the six little-endian fields, the payload verbatim and 0 to 3 zero bytes up to a multiple of 4, counts them in SINKOFF and the
frame in FRAMES, sets CWSTATE = FRAME, RES0 and RES1, and changes nothing else. The frame is a multiple of 4 bytes long (43
R262). -/
def Obligations.WrfrWritesTheFrame : Prop :=
  ∀ (s : State) (padding : Nat), (s.cwState = .hdr ∨ s.cwState = .frame) → s.arg 5 + s.arg 6 ≤ 2 ^ 32 →
    padding = (4 - s.arg 6 % 4) % 4 → AcceptsNext s (24 + s.arg 6 + padding) →
    ∃ t, exec .wrfr s = .next t ∧
      t.sink = s.sink ++ le32 (s.argWord 0) ++ le32 (s.argWord 1) ++ le32 (s.argWord 2) ++ le32 (s.argWord 3)
        ++ le32 (s.argWord 4) ++ le32 (s.argWord 6) ++ (List.range (s.arg 6)).map (fun i => s.mem.read (s.arg 5 + i))
        ++ List.replicate padding 0x00 ∧
      t.sinkOff = s.sinkOff + BitVec.ofNat 32 (24 + s.arg 6 + padding) ∧
      t.sinkPlan = s.sinkPlan.drop (24 + s.arg 6 + padding) ∧ t.cwState = .frame ∧ t.frames = s.frames + 1 ∧
      t.res[0] = BitVec.ofNat 32 (24 + s.arg 6 + padding) ∧ t.res[1] = BitVec.ofNat 32 padding ∧
      SameResFrom 2 s t ∧ SameReport s t ∧ SameHostSide s t ∧ t.mem = s.mem ∧ t.draws = s.draws ∧ Completed t ∧
      (24 + s.arg 6 + padding) % 4 = 0 ∧ padding ≤ 3

/-- 43 R253, R260, 20 R80: when the sink accepts `k` bytes of a header or a frame and rejects the next, the sink has gained
exactly those `k`, SINKOFF counts them, CWSTATE is FAILED, and IoError reports `k`; FRAMES is unchanged. What ERRINFO1 holds of
a `k` of 2^32 or more is a free value (log 27). -/
def Obligations.SinkRejectionFailsTheContainer : Prop :=
  ∀ (s : State) (k : Nat) (rest : List SinkAnswer), s.sinkPlan = List.replicate k .ok ++ .fail :: rest →
    (s.cwState = .uninit → k < 24 →
      ∃ (t : State) (info : Word), exec .wrgh s = .next t ∧ Reported 3 0 0 0 info s t ∧
        (k < 2 ^ 32 → info = BitVec.ofNat 32 k) ∧ t.cwState = .failed ∧
        t.sink = s.sink ++ (wrghBytes s).take k ∧ t.sinkOff = s.sinkOff + BitVec.ofNat 32 k ∧ t.sinkPlan = rest ∧
        t.frames = s.frames ∧ SameHostSide s t ∧ t.mem = s.mem ∧ t.draws = s.draws) ∧
    ((s.cwState = .hdr ∨ s.cwState = .frame) → s.arg 5 + s.arg 6 ≤ 2 ^ 32 → k < 24 + s.arg 6 + pad (s.arg 6) →
      ∃ (t : State) (info : Word), exec .wrfr s = .next t ∧ Reported 3 0 0 0 info s t ∧
        (k < 2 ^ 32 → info = BitVec.ofNat 32 k) ∧ t.cwState = .failed ∧
        t.sink = s.sink ++ (wrfrBytes s).take k ∧ t.sinkOff = s.sinkOff + BitVec.ofNat 32 k ∧ t.sinkPlan = rest ∧
        t.frames = s.frames ∧ SameHostSide s t ∧ t.mem = s.mem ∧ t.draws = s.draws)

/-- 60 R341 (the fault is log 5): a sink that leaves an append unanswered stops WRGH and WRFR, and no command stops otherwise.
-/
def Obligations.OnlyAnUnansweredSinkStops : Prop :=
  (∀ (s : State) (k : Nat) (rest : List SinkAnswer), s.sinkPlan = List.replicate k .ok ++ .never :: rest →
    (s.cwState = .uninit → k < 24 → exec .wrgh s = .fault .sinkNeverAnswers) ∧
    ((s.cwState = .hdr ∨ s.cwState = .frame) → s.arg 5 + s.arg 6 ≤ 2 ^ 32 → k < 24 + s.arg 6 + pad (s.arg 6) →
      exec .wrfr s = .fault .sinkNeverAnswers)) ∧
  (∀ (s : State) (i : Instr), SinkAnswer.never ∉ s.sinkPlan → ∃ t, exec i s = .next t) ∧
  (∀ (s : State) (i : Instr), i ≠ .wrgh → i ≠ .wrfr → ∃ t, exec i s = .next t)

/-- 43 R250, R255, 60 R324, R329: the InvalidUsage cells of the state table: the report's subcode is the container state, and
there is no other effect; where WRFR is allowed, a payload range that passes 2^32 raises ArgumentError(RANGE_WRAP) on argument
5 and appends nothing; PRGH and PRFH neither read nor change CWSTATE. -/
def Obligations.ContainerStateTable : Prop :=
  (∀ s : State, s.cwState ≠ .uninit →
    ∃ t, exec .wrgh s = .next t ∧ OnlyReported 4 (cwStateCode s.cwState) 0 0 0 s t) ∧
  (∀ s : State, s.cwState ≠ .hdr → s.cwState ≠ .frame →
    (∃ t, exec .wrfr s = .next t ∧ OnlyReported 4 (cwStateCode s.cwState) 0 0 0 s t) ∧
    (∃ t, exec .close s = .next t ∧ OnlyReported 4 (cwStateCode s.cwState) 0 0 0 s t)) ∧
  (∀ s : State, (s.cwState = .hdr ∨ s.cwState = .frame) → 2 ^ 32 < s.arg 5 + s.arg 6 →
    ∃ t, exec .wrfr s = .next t ∧ OnlyReported 6 4 0 5 (s.argWord 5) s t) ∧
  (∀ (s : State) (c : CwState), ∀ i ∈ [Instr.prgh, .prfh],
    ∃ t, exec i s = .next t ∧ exec i { s with cwState := c } = .next { t with cwState := c } ∧ t.cwState = s.cwState)

/-- 43 R256: CLOSE in HDR or FRAME sets CWSTATE = CLOSED, makes no sink operation and changes nothing else. -/
def Obligations.CloseClosesTheContainer : Prop :=
  ∀ s : State, (s.cwState = .hdr ∨ s.cwState = .frame) →
    ∃ t, exec .close s = .next t ∧ t.cwState = .closed ∧ t.sink = s.sink ∧ t.sinkPlan = s.sinkPlan ∧
      t.sinkOff = s.sinkOff ∧ t.frames = s.frames ∧ t.res = s.res ∧ SameReport s t ∧ SameHostSide s t ∧
      t.mem = s.mem ∧ t.draws = s.draws ∧ Completed t

/-- 43 R257, 20 R78: PRGH returns the four fields of a global header whose magic and version match, or reports its first failing
check with no other effect. -/
def Obligations.PrghParsesTheGlobalHeader : Prop :=
  ∀ (s : State) (magic version w h fr fc : Word),
    (2 ^ 32 < s.arg 0 + s.arg 1 → ∃ t, exec .prgh s = .next t ∧ OnlyReported 6 4 0 0 (s.argWord 0) s t) ∧
    (s.arg 0 + s.arg 1 ≤ 2 ^ 32 → s.arg 1 < 24 →
      ∃ t, exec .prgh s = .next t ∧ OnlyReported 2 7 0 0 (s.argWord 1) s t) ∧
    (s.arg 0 + s.arg 1 ≤ 2 ^ 32 → 24 ≤ s.arg 1 →
      HoldsAt s.mem (s.arg 0) (le32 magic ++ le32 version ++ le32 w ++ le32 h ++ le32 fr ++ le32 fc) →
      (magic ≠ s.params.magic → ∃ t, exec .prgh s = .next t ∧ OnlyReported 2 8 0 0 0 s t) ∧
      (magic = s.params.magic → version ≠ 1 → ∃ t, exec .prgh s = .next t ∧ OnlyReported 2 9 0 0 4 s t) ∧
      (magic = s.params.magic → version = 1 →
        ∃ t, exec .prgh s = .next t ∧ t.res[0] = w ∧ t.res[1] = h ∧ t.res[2] = fr ∧ t.res[3] = fc ∧
          SameResFrom 4 s t ∧ SameReport s t ∧ SameContainer s t ∧ SameHostSide s t ∧ t.mem = s.mem ∧
          t.draws = s.draws ∧ Completed t))

/-- 43 R258, R261, 20 R78: PRFH returns the six fields as they are stored, or reports its first failing check with no other
effect. -/
def Obligations.PrfhParsesTheFrameHeader : Prop :=
  ∀ (s : State) (w h xo yo fmt len : Word),
    (2 ^ 32 < s.arg 0 + s.arg 1 → ∃ t, exec .prfh s = .next t ∧ OnlyReported 6 4 0 0 (s.argWord 0) s t) ∧
    (s.arg 0 + s.arg 1 ≤ 2 ^ 32 → s.arg 1 < 24 →
      ∃ t, exec .prfh s = .next t ∧ OnlyReported 2 7 0 0 (s.argWord 1) s t) ∧
    (s.arg 0 + s.arg 1 ≤ 2 ^ 32 → 24 ≤ s.arg 1 →
      HoldsAt s.mem (s.arg 0) (le32 w ++ le32 h ++ le32 xo ++ le32 yo ++ le32 fmt ++ le32 len) →
      ∃ t, exec .prfh s = .next t ∧ t.res[0] = w ∧ t.res[1] = h ∧ t.res[2] = xo ∧ t.res[3] = yo ∧ t.res[4] = fmt ∧
        t.res[5] = len ∧ SameReport s t ∧ SameContainer s t ∧ SameHostSide s t ∧ t.mem = s.mem ∧
        t.draws = s.draws ∧ Completed t)

/-! ### Whole-machine rules -/

/-- 20 R72, R81: the sink is append-only: no step but the host's opening of a new sink takes a byte away or changes one. -/
def Obligations.SinkIsAppendOnly : Prop :=
  ∀ s t : State, step s = .next t → (∀ c rest, s.inbox ≠ .openSink c :: rest) → s.sink <+: t.sink

/-- 10 R39, R40, R52: no command but SRST writes an ARG register, no command that ends in an error writes a RES register, and
only WRGH, WRFR, CLOSE and SRST change CWSTATE, SINKOFF, FRAMES or the sink. -/
def Obligations.CommandsKeepWhatTheyDoNotName : Prop :=
  ∀ (i : Instr) (s t : State), exec i s = .next t → i ≠ .srst →
    SameHostSide s t ∧ (s.err = false → t.err = true → t.res = s.res) ∧
    (i ≠ .wrgh → i ≠ .wrfr → i ≠ .close → SameContainer s t)

/-- 44 R305: every command completes: after its engine turn BUSY is 0 and nothing is latched (the internal state is log 10). -/
def Obligations.EveryCommandCompletes : Prop :=
  ∀ (w : Word) (i : Instr) (s t : State), decode (.command w) = .ok i → exec i s = .next t →
    t.busy = false ∧ t.latch = none ∧ t.latchOk

/-- 10 R44, 60 R338, 44 R302: an error report stays as it is until CLRERR, SRST or reset: while ERR = 1 a step changes ERR,
ERRCODE, ERRINFO0 or ERRINFO1 only by running a latched CLRERR or SRST, or by the reset input. That the engine holds no other
command while ERR = 1 is kept by every step. -/
def Obligations.ErrorReportIsSticky : Prop :=
  (∀ s t : State, s.latchOk → s.blockedOk → s.err = true → step s = .next t → (∀ rest, s.inbox ≠ .resetInput :: rest) →
    SameReport s t ∨ (s.busy = true ∧ (s.running.word = 0x0E ∨ s.running.word = 0x0F) ∧ t.err = false)) ∧
  (∀ s t : State, s.latchOk → s.blockedOk → step s = .next t → t.blockedOk)

/-- The canonical form of memory is kept by every step (a property of the model's memory, log 3, 4). -/
def Obligations.StepKeepsMemoryCanonical : Prop :=
  ∀ s t : State, s.mem.wf = true → step s = .next t → t.mem.wf = true

/-- 10 R32, R33, R34: ERR = 0 implies ERRCODE = 0 (and ERRINFO0, ERRINFO1 = 0), and ERR = 1 implies ERRCODE in 1..6: every step
keeps this. -/
def Obligations.StepKeepsTheReportLegal : Prop :=
  ∀ s t : State, s.reportOk → step s = .next t → t.reportOk

/-- 10 R43, R51, R53: a command is latched exactly while BUSY = 1, and no internal state survives it: every step keeps this. -/
def Obligations.StepKeepsLatchAndBusyTogether : Prop :=
  ∀ s t : State, s.latchOk → step s = .next t → t.latchOk

/-- 10 R46, R49: at every record boundary of a running channel decode `j + owed = N`, and the cursor never passes the end of the
stream: every step keeps this. -/
def Obligations.StepKeepsTheDecoderCounts : Prop :=
  ∀ s t : State, s.latchOk → s.decodesOk → s.decoderOk → step s = .next t → t.decodesOk ∧ t.decoderOk

/-- 10 R47, R48, R50, 40 R149: in a running channel encode the open run is shorter than 32767 samples, the sample index stays
inside the channel, and the bytes written fit two per sample: every step keeps this. -/
def Obligations.StepKeepsTheEncoderCounts : Prop :=
  ∀ s t : State, s.latchOk → s.encodesOk → s.encoderOk → step s = .next t → t.encodesOk ∧ t.encoderOk

/-- 20 R70, R71: no step lists a byte outside the 2^32 bytes of host memory. -/
def Obligations.StepStaysInsideMemory : Prop :=
  ∀ s t : State, s.latchOk → s.decodesOk → s.decoderOk → s.encodesOk → s.encoderOk → s.mem.inSpace = true →
    step s = .next t → t.mem.inSpace = true

/-- The reset state satisfies everything the statements above keep. -/
def Obligations.ResetStateMeetsTheInvariants : Prop :=
  State.reset.memOk ∧ State.reset.reportOk ∧ State.reset.latchOk ∧ State.reset.blockedOk ∧ State.reset.decodesOk ∧
  State.reset.decoderOk ∧ State.reset.encodesOk ∧ State.reset.encoderOk

/-- 44 R309 (log 20): a DECCH or DCMFR that runs record by record, each record an instruction of its own, ends in the same
state as the command executed at once. -/
def Obligations.RecordByRecordDecodingAgrees : Prop :=
  ∀ (s : State) (l : Latch), s.busy = true → s.phase = .issued → s.latch = some l → s.inbox = [] →
    ∀ i ∈ [Instr.decch, .dcmfr], decode (.command l.word) = .ok i →
    ∃ (n : Nat) (t : State), exec i s = .next t ∧
      Host.Core.run Sys2Proof.core n { s with inbox := [.engineBegin] } = .next t

/-- 44 R309, 10 R47 (log 20): an ENCCH or CMPFR that runs sample by sample ends in the same state as the command executed at
once. -/
def Obligations.SampleBySampleEncodingAgrees : Prop :=
  ∀ (s : State) (l : Latch), s.busy = true → s.phase = .issued → s.latch = some l → s.inbox = [] →
    ∀ i ∈ [Instr.encch, .cmpfr], decode (.command l.word) = .ok i →
    ∃ (n : Nat) (t : State), exec i s = .next t ∧
      Host.Core.run Sys2Proof.core n { s with inbox := [.engineBegin] } = .next t
end

