-- ==== Sys2Proof/Laws/Memory.lean ====
section
/-!
SUPPORT. Host memory: reads after writes, and the canonical form under every memory operation.
-/

namespace Sys2Proof.Machine

/-! ### Lists of addressed values -/

variable {α : Type}

@[simp] theorem lookupKey_dropKey_same (a : Nat) (l : List (Nat × α)) : lookupKey a (dropKey a l) = none := by
  induction l with
  | nil => rfl
  | cons c l ih =>
    obtain ⟨b, v⟩ := c
    by_cases h : b = a <;> simp [dropKey, lookupKey, h, ih]

theorem lookupKey_dropKey_ne {a b : Nat} (h : a ≠ b) (l : List (Nat × α)) :
    lookupKey a (dropKey b l) = lookupKey a l := by
  induction l with
  | nil => rfl
  | cons c l ih =>
    obtain ⟨k, v⟩ := c
    by_cases hk : k = b
    · have : k ≠ a := fun e => h (e ▸ hk)
      simp only [dropKey, hk, if_true, ih, lookupKey]
      rw [if_neg (fun e => h e.symm)]
    · simp [dropKey, lookupKey, hk, ih]

@[simp] theorem lookupKey_putKey_same (a : Nat) (v : α) (l : List (Nat × α)) :
    lookupKey a (putKey a v l) = some v := by
  induction l with
  | nil => simp [putKey, lookupKey]
  | cons c l ih =>
    obtain ⟨b, w⟩ := c
    by_cases h1 : b < a
    · have : b ≠ a := by omega
      simp [putKey, lookupKey, h1, this, ih]
    · by_cases h2 : b = a <;> simp [putKey, lookupKey, h1, h2]

theorem lookupKey_putKey_ne {a b : Nat} (h : a ≠ b) (v : α) (l : List (Nat × α)) :
    lookupKey a (putKey b v l) = lookupKey a l := by
  induction l with
  | nil => simp [putKey, lookupKey, h.symm]
  | cons c l ih =>
    obtain ⟨k, w⟩ := c
    by_cases h1 : k < b
    · simp [putKey, lookupKey, h1, ih]
    · by_cases h2 : k = b
      · subst h2
        simp [putKey, lookupKey, h.symm]
      · simp [putKey, lookupKey, h1, h2, h.symm]

theorem all_dropKey {p : Nat × α → Bool} (a : Nat) {l : List (Nat × α)} (h : l.all p) : (dropKey a l).all p := by
  induction l with
  | nil => rfl
  | cons c l ih =>
    obtain ⟨b, v⟩ := c
    simp only [List.all_cons, Bool.and_eq_true] at h
    by_cases hb : b = a
    · simpa only [dropKey, hb, if_true] using ih h.2
    · simp only [dropKey, hb, if_false, List.all_cons, Bool.and_eq_true]
      exact ⟨h.1, ih h.2⟩

theorem all_putKey {p : Nat × α → Bool} {a : Nat} {v : α} {l : List (Nat × α)} (hv : p (a, v)) (h : l.all p) :
    (putKey a v l).all p := by
  induction l with
  | nil => simp [putKey, hv]
  | cons c l ih =>
    obtain ⟨b, w⟩ := c
    simp only [List.all_cons, Bool.and_eq_true] at h
    by_cases h1 : b < a
    · simp [putKey, h1, ih h.2, h.1]
    · by_cases h2 : b = a
      · subst h2
        simp [putKey, hv, h.2]
      · simp [putKey, h1, h2, hv, h.1, h.2]

theorem risingKeys_dropKey (a : Nat) {l : List (Nat × α)} (h : risingKeys l) : risingKeys (dropKey a l) := by
  induction l with
  | nil => rfl
  | cons c l ih =>
    obtain ⟨b, v⟩ := c
    simp only [risingKeys, Bool.and_eq_true] at h
    by_cases hb : b = a
    · simpa [dropKey, hb] using ih h.2
    · simp only [dropKey, hb, if_false, risingKeys, Bool.and_eq_true]
      exact ⟨all_dropKey a h.1, ih h.2⟩

theorem risingKeys_putKey (a : Nat) (v : α) {l : List (Nat × α)} (h : risingKeys l) : risingKeys (putKey a v l) := by
  induction l with
  | nil => rfl
  | cons c l ih =>
    obtain ⟨b, w⟩ := c
    simp only [risingKeys, Bool.and_eq_true] at h
    by_cases h1 : b < a
    · simp only [putKey, h1, if_true, risingKeys, Bool.and_eq_true]
      exact ⟨all_putKey (by simpa using h1) h.1, ih h.2⟩
    · by_cases h2 : b = a
      · subst h2
        simpa [putKey, risingKeys] using h
      · have hab : a < b := by omega
        simp only [putKey, h1, h2, if_false, risingKeys, Bool.and_eq_true, List.all_cons, decide_eq_true_eq]
        refine ⟨⟨hab, ?_⟩, h.1, h.2⟩
        simp only [List.all_eq_true, decide_eq_true_eq] at h ⊢
        exact fun c hc => lt_trans hab (h.1 c hc)

/-! ### One byte -/

@[simp] theorem read_write_same (m : Memory) (a : Nat) (v : Byte) : (m.write a v).read a = v := by
  by_cases h : v = unlistedByte <;> simp [Memory.read, Memory.write, h]

theorem read_write_ne {a b : Nat} (h : a ≠ b) (m : Memory) (v : Byte) : (m.write b v).read a = m.read a := by
  by_cases hv : v = unlistedByte <;>
    simp [Memory.read, Memory.write, hv, lookupKey_dropKey_ne h, lookupKey_putKey_ne h]

/-- A forgotten byte reads as the free value of its number. -/
@[simp] theorem read_forget_same (m : Memory) (a k : Nat) : (m.forget a k).read a = Config.freeByte k := by
  simp [Memory.read, Memory.forget]

theorem read_forget_ne {a b : Nat} (h : a ≠ b) (m : Memory) (k : Nat) : (m.forget b k).read a = m.read a := by
  simp [Memory.read, Memory.forget, lookupKey_dropKey_ne h, lookupKey_putKey_ne h]

/-! ### Ranges of bytes -/

theorem read_writeBytes_outside {a b : Nat} {bs : List Byte} (h : a < b ∨ b + bs.length ≤ a) (m : Memory) :
    (m.writeBytes b bs).read a = m.read a := by
  induction bs generalizing m b with
  | nil => rfl
  | cons x bs ih =>
    simp only [List.length_cons] at h
    rw [Memory.writeBytes, ih (by omega), read_write_ne (by omega)]

theorem read_writeBytes_inside {b t : Nat} {bs : List Byte} (h : t < bs.length) (m : Memory) :
    (m.writeBytes b bs).read (b + t) = bs[t] := by
  induction bs generalizing m b t with
  | nil => simp at h
  | cons x bs ih =>
    cases t with
    | zero => rw [Memory.writeBytes, read_writeBytes_outside (by omega)]; simp
    | succ t =>
      simp only [List.length_cons] at h
      rw [Memory.writeBytes, show b + (t + 1) = b + 1 + t by omega, ih (by omega)]
      rfl

theorem writeBytes_append (m : Memory) (a : Nat) (xs ys : List Byte) :
    m.writeBytes a (xs ++ ys) = (m.writeBytes a xs).writeBytes (a + xs.length) ys := by
  induction xs generalizing m a with
  | nil => rfl
  | cons x xs ih => simp [Memory.writeBytes, ih, Nat.add_assoc, Nat.add_comm 1]

theorem read_forgetRange_outside {a b n : Nat} (h : a < b ∨ b + n ≤ a) (m : Memory) (k : Nat) :
    (m.forgetRange b n k).read a = m.read a := by
  induction n generalizing m b k with
  | zero => rfl
  | succ n ih => rw [Memory.forgetRange, ih (by omega), read_forget_ne (by omega)]

/-! ### Slots -/

/-- An address that is none of the slots written reads as before. -/
theorem read_fillSlots_outside {a dst stride j len : Nat} (v : Byte)
    (h : ∀ t, j ≤ t → t < j + len → a ≠ dst + stride * t) (m : Memory) :
    (m.fillSlots dst stride v j len).read a = m.read a := by
  induction len generalizing m j with
  | zero => rfl
  | succ len ih =>
    rw [Memory.fillSlots, ih (fun t h1 h2 => h t (by omega) (by omega)),
      read_write_ne (h j (by omega) (by omega))]

/-- Each slot written holds the value. -/
theorem read_fillSlots_inside {dst stride j len t : Nat} (v : Byte) (hs : 0 < stride) (h1 : j ≤ t) (h2 : t < j + len)
    (m : Memory) : (m.fillSlots dst stride v j len).read (dst + stride * t) = v := by
  induction len generalizing m j with
  | zero => omega
  | succ len ih =>
    rw [Memory.fillSlots]
    by_cases h : t = j
    · subst h
      rw [read_fillSlots_outside]
      · simp
      · intro u hu _ e
        have := Nat.eq_of_mul_eq_mul_left hs (Nat.add_left_cancel e)
        omega
    · exact ih (by omega) (by omega) _

/-! ### Views -/

theorem view_length (m : Memory) (base stride count : Nat) : (m.view base stride count).length = count := by
  simp [Memory.view]

theorem view_getElem (m : Memory) (base stride count : Nat) {i : Nat} (h : i < (m.view base stride count).length) :
    (m.view base stride count)[i] = m.read (base + stride * i) := by
  simp [Memory.view]

/-- A view depends only on the bytes it reads. -/
theorem view_congr {m m' : Memory} {base stride count : Nat}
    (h : ∀ i < count, m.read (base + stride * i) = m'.read (base + stride * i)) :
    m.view base stride count = m'.view base stride count := by
  simp only [Memory.view, List.map_inj_left, List.mem_range]
  exact h

/-- The bytes at the cursor are the stream from there on, at most three (41 R180). -/
theorem window_eq_drop_take (m : Memory) (src len pos : Nat) :
    m.window src len pos = ((m.view src 1 len).drop pos).take 3 := by
  apply List.ext_getElem
  · simp [Memory.window, Memory.view, Nat.min_comm]
  · intro i h1 h2
    simp [Memory.window, Memory.view, Nat.add_assoc]

/-! ### The canonical form -/

theorem wf_iff (m : Memory) :
    m.wf = true ↔ risingKeys m.bytes = true ∧ risingKeys m.free = true ∧
      (∀ c ∈ m.bytes, c.2 ≠ unlistedByte) ∧ ∀ c ∈ m.bytes, lookupKey c.1 m.free = none := by
  simp [Memory.wf, and_assoc]

theorem mem_of_mem_dropKey {a : Nat} {c : Nat × α} {l : List (Nat × α)} (h : c ∈ dropKey a l) : c ∈ l ∧ c.1 ≠ a := by
  induction l with
  | nil => simp [dropKey] at h
  | cons d l ih =>
    obtain ⟨b, v⟩ := d
    by_cases hb : b = a
    · simp only [dropKey, hb, if_true] at h
      exact ⟨List.mem_cons_of_mem _ (ih h).1, (ih h).2⟩
    · simp only [dropKey, hb, if_false, List.mem_cons] at h
      rcases h with rfl | h
      · exact ⟨List.mem_cons_self, hb⟩
      · exact ⟨List.mem_cons_of_mem _ (ih h).1, (ih h).2⟩

theorem mem_of_mem_putKey {a : Nat} {v : α} {c : Nat × α} {l : List (Nat × α)} (h : c ∈ putKey a v l) :
    c = (a, v) ∨ c ∈ l := by
  induction l with
  | nil => simpa [putKey] using h
  | cons d l ih =>
    obtain ⟨b, w⟩ := d
    by_cases h1 : b < a
    · simp only [putKey, h1, if_true, List.mem_cons] at h
      rcases h with rfl | h
      · exact .inr List.mem_cons_self
      · exact (ih h).imp id (List.mem_cons_of_mem _)
    · by_cases h2 : b = a
      · subst h2
        simp only [putKey, lt_irrefl, if_false, if_true, List.mem_cons] at h
        exact h.imp id (List.mem_cons_of_mem _)
      · simpa [putKey, h1, h2] using h

theorem lookupKey_dropKey_none {a b : Nat} {l : List (Nat × α)} (h : lookupKey a l = none) :
    lookupKey a (dropKey b l) = none := by
  by_cases e : a = b
  · subst e; simp
  · rwa [lookupKey_dropKey_ne e]

/-- A write keeps the canonical form. -/
theorem write_wf {m : Memory} (h : m.wf = true) (a : Nat) (v : Byte) : (m.write a v).wf = true := by
  obtain ⟨h1, h2, h3, h4⟩ := (wf_iff m).1 h
  rw [wf_iff]
  by_cases hv : v = unlistedByte
  · refine ⟨by simpa [Memory.write, hv] using risingKeys_dropKey a h1, risingKeys_dropKey a h2, ?_, ?_⟩
    · intro c hc
      simp only [Memory.write, hv, if_true] at hc
      exact h3 c (mem_of_mem_dropKey hc).1
    · intro c hc
      simp only [Memory.write, hv, if_true] at hc
      exact lookupKey_dropKey_none (h4 c (mem_of_mem_dropKey hc).1)
  · refine ⟨by simpa [Memory.write, hv] using risingKeys_putKey a v h1, risingKeys_dropKey a h2, ?_, ?_⟩
    · intro c hc
      simp only [Memory.write, hv, if_false] at hc
      rcases mem_of_mem_putKey hc with rfl | hc
      · exact hv
      · exact h3 c hc
    · intro c hc
      simp only [Memory.write, hv, if_false] at hc
      rcases mem_of_mem_putKey hc with rfl | hc
      · simp [Memory.write]
      · exact lookupKey_dropKey_none (h4 c hc)

/-- Forgetting a byte keeps the canonical form. -/
theorem forget_wf {m : Memory} (h : m.wf = true) (a k : Nat) : (m.forget a k).wf = true := by
  obtain ⟨h1, h2, h3, h4⟩ := (wf_iff m).1 h
  rw [wf_iff]
  refine ⟨risingKeys_dropKey a h1, risingKeys_putKey a k h2, ?_, ?_⟩
  · intro c hc
    exact h3 c (mem_of_mem_dropKey hc).1
  · intro c hc
    obtain ⟨hm, hne⟩ := mem_of_mem_dropKey hc
    simp only [Memory.forget]
    rw [lookupKey_putKey_ne hne]
    exact h4 c hm

theorem writeBytes_wf {m : Memory} (h : m.wf = true) (a : Nat) (bs : List Byte) : (m.writeBytes a bs).wf = true := by
  induction bs generalizing m a with
  | nil => exact h
  | cons b bs ih => exact ih (write_wf h a b) (a + 1)

theorem fillSlots_wf {m : Memory} (h : m.wf = true) (dst stride : Nat) (v : Byte) (j len : Nat) :
    (m.fillSlots dst stride v j len).wf = true := by
  induction len generalizing m j with
  | zero => exact h
  | succ len ih => exact ih (write_wf h _ v) (j + 1)

theorem forgetRange_wf {m : Memory} (h : m.wf = true) (a n k : Nat) : (m.forgetRange a n k).wf = true := by
  induction n generalizing m a k with
  | zero => exact h
  | succ n ih => exact ih (forget_wf h a k) (a + 1) (k + 1)

/-! ### Inside the address space (20 R70) -/

theorem inSpace_iff (m : Memory) :
    m.inSpace = true ↔ (m.bytes.all fun c => decide (c.1 < 2 ^ 32)) = true ∧
      (m.free.all fun c => decide (c.1 < 2 ^ 32)) = true := by
  simp only [Memory.inSpace, Bool.and_eq_true]

theorem write_inSpace {m : Memory} (h : m.inSpace = true) {a : Nat} (ha : a < 2 ^ 32) (v : Byte) :
    (m.write a v).inSpace = true := by
  obtain ⟨h1, h2⟩ := (inSpace_iff m).1 h
  rw [inSpace_iff]
  refine ⟨?_, all_dropKey a h2⟩
  by_cases hv : v = unlistedByte
  · simpa only [Memory.write, hv, if_true] using all_dropKey a h1
  · simpa only [Memory.write, hv, if_false] using
      all_putKey (p := fun c => decide (c.1 < 2 ^ 32)) (v := v) (by simpa using ha) h1

theorem forget_inSpace {m : Memory} (h : m.inSpace = true) {a : Nat} (ha : a < 2 ^ 32) (k : Nat) :
    (m.forget a k).inSpace = true := by
  obtain ⟨h1, h2⟩ := (inSpace_iff m).1 h
  rw [inSpace_iff]
  exact ⟨all_dropKey a h1, all_putKey (p := fun c => decide (c.1 < 2 ^ 32)) (v := k) (by simpa using ha) h2⟩

theorem writeBytes_inSpace {m : Memory} (h : m.inSpace = true) {a : Nat} {bs : List Byte}
    (ha : a + bs.length ≤ 2 ^ 32) : (m.writeBytes a bs).inSpace = true := by
  induction bs generalizing m a with
  | nil => exact h
  | cons b bs ih =>
    simp only [List.length_cons] at ha
    exact ih (write_inSpace h (by omega) b) (by omega)

theorem fillSlots_inSpace {m : Memory} (h : m.inSpace = true) {dst stride j len : Nat} (v : Byte)
    (ha : ∀ t, j ≤ t → t < j + len → dst + stride * t < 2 ^ 32) : (m.fillSlots dst stride v j len).inSpace = true := by
  induction len generalizing m j with
  | zero => exact h
  | succ len ih =>
    exact ih (write_inSpace h (ha j (by omega) (by omega)) v) fun t h1 h2 => ha t (by omega) (by omega)

theorem forgetRange_inSpace {m : Memory} (h : m.inSpace = true) {a n : Nat} (ha : a + n ≤ 2 ^ 32) (k : Nat) :
    (m.forgetRange a n k).inSpace = true := by
  induction n generalizing m a k with
  | zero => exact h
  | succ n ih => exact ih (forget_inSpace h (by omega) k) (by omega) (k + 1)

end Sys2Proof.Machine
end

