-- ==== Sys2Proof/Laws/Codec.lean ====
section
/-!
SUPPORT. Records: what the decoder reads from the bytes the encoder gives, what EncodeSeq gives, and what a channel decode does
with a list of legal records.
-/

namespace Sys2Proof.Machine

/-! ### One record form -/

theorem decodeRecordForm_short (len : BitVec 7) (val : Byte) (rest : List Byte) :
    decodeRecordForm (shortBytes len val ++ rest) = .ok (.recShort len val) := by
  have h7 : (0#1 ++ len : BitVec (1 + 7)).getLsbD 7 = false := by
    rw [BitVec.getLsbD_append]; simp
  have hl : (0#1 ++ len : BitVec (1 + 7)).extractLsb' 0 7 = len := by
    revert len; decide
  simp only [shortBytes, List.cons_append, decodeRecordForm, h7]
  simp [hl]

theorem decodeRecordForm_long (hi : BitVec 7) (lo val : Byte) (rest : List Byte) :
    decodeRecordForm (longBytes hi lo val ++ rest) = .ok (.recLong hi lo val) := by
  have h7 : (1#1 ++ hi : BitVec (1 + 7)).getLsbD 7 = true := by
    rw [BitVec.getLsbD_append]; simp
  have hl : (1#1 ++ hi : BitVec (1 + 7)).extractLsb' 0 7 = hi := by
    revert hi; decide
  simp only [longBytes, List.cons_append, decodeRecordForm, h7]
  simp [hl]

/-- The decoder looks at no more than three bytes. -/
theorem decodeRecordForm_take (bs : List Byte) : decodeRecordForm (bs.take 3) = decodeRecordForm bs := by
  match bs with
  | [] => rfl
  | [_] => rfl
  | [_, _] => rfl
  | [_, _, _] => rfl
  | b0 :: b1 :: b2 :: b3 :: bs => simp [decodeRecordForm]

theorem decodeRecord_take (rej : Bool) (bs : List Byte) : decodeRecord rej (bs.take 3) = decodeRecord rej bs := by
  simp only [decodeRecord, decodeRecordForm_take]

/-! ### Legal records -/

/-- What a legal record is: its bytes decode to its length, value and width, whatever follows. -/
theorem legalRecord_spec {rej : Bool} {i : Instr} (h : legalRecord rej i = true) :
    (∀ rest, decodeRecord rej (recordBytes i ++ rest) = .ok (recordOf i)) ∧
      (recordBytes i).length = (recordOf i).width ∧ 1 ≤ (recordOf i).len ∧
      2 ≤ (recordOf i).width ∧ (recordOf i).width ≤ 3 := by
  cases i with
  | recShort len val =>
    simp only [legalRecord, Option.isNone_iff_eq_none] at h
    refine ⟨fun rest => ?_, rfl, ?_, by simp [recordOf], by simp [recordOf]⟩
    · simp only [recordBytes, encode, decodeRecord, decodeRecordForm_short, h]
    · by_contra h0
      simp [recordError, show (recordOf (.recShort len val)).len = 0 by omega] at h
  | recLong hi lo val =>
    simp only [legalRecord, Option.isNone_iff_eq_none] at h
    refine ⟨fun rest => ?_, rfl, ?_, by simp [recordOf], by simp [recordOf]⟩
    · simp only [recordBytes, encode, decodeRecord, decodeRecordForm_long, h]
    · by_contra h0
      simp [recordError, show (recordOf (.recLong hi lo val)).len = 0 by omega] at h
  | _ => simp [legalRecord] at h

@[simp] theorem streamOf_nil : streamOf [] = [] := rfl
@[simp] theorem streamOf_cons (i : Instr) (rs : List Instr) : streamOf (i :: rs) = recordBytes i ++ streamOf rs := rfl
@[simp] theorem streamOf_append (rs rs' : List Instr) : streamOf (rs ++ rs') = streamOf rs ++ streamOf rs' := by
  simp [streamOf]
@[simp] theorem samplesOf_nil : samplesOf [] = [] := rfl
@[simp] theorem samplesOf_cons (i : Instr) (rs : List Instr) :
    samplesOf (i :: rs) = List.replicate (recordOf i).len (recordOf i).val ++ samplesOf rs := rfl
@[simp] theorem samplesOf_append (rs rs' : List Instr) : samplesOf (rs ++ rs') = samplesOf rs ++ samplesOf rs' := by
  simp [samplesOf]

/-- Legal records have two bytes or more each. -/
theorem length_le_streamOf {rej : Bool} {rs : List Instr} (h : rs.all (legalRecord rej) = true) :
    2 * rs.length ≤ (streamOf rs).length := by
  induction rs with
  | nil => simp
  | cons i rs ih =>
    simp only [List.all_cons, Bool.and_eq_true] at h
    obtain ⟨-, hw, -, h2, -⟩ := legalRecord_spec h.1
    have := ih h.2
    simp only [streamOf_cons, List.length_append, List.length_cons]
    omega

/-! ### EmitRecord and EncodeSeq (40 R140, R142, R149) -/

theorem emitRecord_zero (val : Byte) : emitRecord 0 val = .error (.lenZero, 0) := rfl

/-- A legal length gives the bytes of one record, legal for both values of `DEC_REJECT_NONCANONICAL`. -/
theorem emitRecord_ok {len : Nat} (h1 : 1 ≤ len) (h2 : len ≤ 32767) (val : Byte) :
    ∃ i, emitRecord len val = .ok (recordBytes i) ∧ (∀ rej, legalRecord rej i = true) ∧
      recordOf i = ⟨len, val, widthOf len⟩ := by
  by_cases h : len ≤ 127
  · have hn : (BitVec.ofNat 7 len).toNat = len := by simp; omega
    refine ⟨.recShort (BitVec.ofNat 7 len) val, ?_, fun rej => ?_, ?_⟩
    · simp [emitRecord, show len ≠ 0 by omega, show ¬ 32767 < len by omega, h, recordBytes, encode]
    · simp [legalRecord, recordError, recordOf, hn]; omega
    · simp [recordOf, hn, widthOf, h]
  · have hn : (BitVec.ofNat 7 (len / 256) ++ BitVec.ofNat 8 len : BitVec (7 + 8)).toNat = len := by
      rw [BitVec.toNat_append, Nat.shiftLeft_eq, ← Nat.shiftLeft_eq,
        ← Nat.shiftLeft_add_eq_or_of_lt (BitVec.isLt _)]
      simp only [BitVec.toNat_ofNat, Nat.shiftLeft_eq]
      omega
    refine ⟨.recLong (BitVec.ofNat 7 (len / 256)) (BitVec.ofNat 8 len) val, ?_, fun rej => ?_, ?_⟩
    · simp [emitRecord, show len ≠ 0 by omega, show ¬ 32767 < len by omega, h, recordBytes, encode]
    · simp only [legalRecord, recordError, recordOf, hn]
      simp [show len ≠ 0 by omega, show ¬ len < 128 by omega]
    · simp only [recordOf, hn, widthOf, h, if_false]

/-- The invariant of the encoder (40 R149): from a run state with `n <= 32766`, EncodeSeq gives a list of legal records that
stands for the open run and the samples after it. -/
theorem encodeFrom_spec {n : Nat} (h : n ≤ 32766) (c : Byte) (s : List Byte) :
    ∃ rs, encodeFrom n c s = .ok (streamOf rs) ∧ (∀ rej, rs.all (legalRecord rej) = true) ∧
      samplesOf rs = List.replicate n c ++ s := by
  induction s generalizing n c with
  | nil =>
    by_cases h0 : n = 0
    · exact ⟨[], by simp [encodeFrom, flushRun, h0], by simp, by simp [h0]⟩
    · obtain ⟨i, h1, h2, h3⟩ := emitRecord_ok (len := n) (by omega) (by omega) c
      exact ⟨[i], by simp [encodeFrom, flushRun, h0, h1], by simp [h2], by simp [h3]⟩
  | cons x s ih =>
    by_cases h0 : n = 0
    · obtain ⟨rs, h1, h2, h3⟩ := ih (n := 1) (by omega) x
      exact ⟨rs, by simp [encodeFrom, encoderStep, h0, h1, Except.map], h2, by simp [h3, h0]⟩
    · by_cases hx : x = c
      · subst hx
        by_cases hm : n + 1 = 32767
        · obtain ⟨i, e1, e2, e3⟩ := emitRecord_ok (len := 32767) (by omega) (by omega) x
          obtain ⟨rs, h1, h2, h3⟩ := ih (n := 0) (by omega) x
          refine ⟨i :: rs, ?_, fun rej => by simp [e2, h2], ?_⟩
          · simp [encodeFrom, encoderStep, h0, hm, e1, h1, Except.map]
          · rw [samplesOf_cons, e3, h3, ← hm, List.replicate_succ']; simp
        · obtain ⟨rs, h1, h2, h3⟩ := ih (n := n + 1) (by omega) x
          exact ⟨rs, by simp [encodeFrom, encoderStep, h0, hm, h1, Except.map], h2, by
            rw [h3, List.replicate_succ']; simp⟩
      · obtain ⟨i, e1, e2, e3⟩ := emitRecord_ok (len := n) (by omega) (by omega) c
        obtain ⟨rs, h1, h2, h3⟩ := ih (n := 1) (by omega) x
        refine ⟨i :: rs, ?_, fun rej => by simp [e2, h2], ?_⟩
        · simp [encodeFrom, encoderStep, h0, hx, e1, h1, Except.map]
        · simp [e3, h3]

/-- EncodeSeq gives a list of legal records that stands for the samples. -/
theorem encodeSeq_spec (s : List Byte) :
    ∃ rs, encodeSeq s = .ok (streamOf rs) ∧ (∀ rej, rs.all (legalRecord rej) = true) ∧ samplesOf rs = s := by
  obtain ⟨rs, h1, h2, h3⟩ := encodeFrom_spec (n := 0) (by omega) encIdle.c s
  exact ⟨rs, h1, h2, by simpa using h3⟩

/-- A record takes at most two bytes a sample. -/
theorem widthOf_le {len : Nat} (h : 1 ≤ len) : widthOf len ≤ 2 * len := by
  unfold widthOf; split <;> omega

/-- Only a record of length 1 takes two bytes a sample. -/
theorem widthOf_lt {len : Nat} (h : 2 ≤ len) : widthOf len < 2 * len := by
  unfold widthOf; split <;> omega

/-- What a flush writes is at most two bytes a sample of the run. -/
theorem emitRecord_length {len : Nat} {val : Byte} {r : List Byte} (h : emitRecord len val = .ok r) :
    1 ≤ len ∧ len ≤ 32767 ∧ r.length = widthOf len := by
  unfold emitRecord at h
  split at h
  · cases h
  · split at h
    · cases h
    · split at h <;> cases h <;> rename_i h0 h1 h2
      · exact ⟨by omega, by omega, by simp [shortBytes, widthOf, h2]⟩
      · exact ⟨by omega, by omega, by simp [longBytes, widthOf, h2]⟩

/-! ### A channel decode over legal records (41 R183) -/

/-- Memory after the records of a list have filled their slots, from slot `j` on. -/
def fillRecords (m : Memory) (dst stride : Nat) : Nat → List Instr → Memory
  | _, [] => m
  | j, i :: rs =>
    fillRecords (m.fillSlots dst stride (recordOf i).val j (recordOf i).len) dst stride (j + (recordOf i).len) rs

/-- Legal records that do not overshoot are consumed: memory, cursor, owed count and slot index advance over all of them. -/
theorem decodeChannel_records {rej : Bool} {rs : List Instr} (hl : rs.all (legalRecord rej) = true)
    {bs rest : List Byte} {pos owed j fuel : Nat} (hb : bs.drop pos = streamOf rs ++ rest)
    (ho : (samplesOf rs).length ≤ owed) (dst stride : Nat) (m : Memory) :
    decodeChannel rej (listStream bs) dst stride (rs.length + fuel) m ⟨pos, owed, j⟩ =
      decodeChannel rej (listStream bs) dst stride fuel (fillRecords m dst stride j rs)
        ⟨pos + (streamOf rs).length, owed - (samplesOf rs).length, j + (samplesOf rs).length⟩ := by
  induction rs generalizing pos owed j m with
  | nil => simp [fillRecords]
  | cons i rs ih =>
    simp only [List.all_cons, Bool.and_eq_true] at hl
    obtain ⟨hd, hw, h1, -, -⟩ := legalRecord_spec hl.1
    simp only [samplesOf_cons, List.length_append, List.length_replicate] at ho
    have hdec : decodeRecord rej (listStream bs pos) = .ok (recordOf i) := by
      rw [listStream, decodeRecord_take, hb, streamOf_cons, List.append_assoc, hd]
    have hdrop : bs.drop (pos + (recordOf i).width) = streamOf rs ++ rest := by
      rw [← List.drop_drop, hb, ← hw, streamOf_cons, List.append_assoc, List.drop_left]
    rw [List.length_cons, show rs.length + 1 + fuel = (rs.length + fuel) + 1 by omega, decodeChannel,
      if_neg (show ¬ owed = 0 by omega)]
    simp only [hdec]
    rw [if_neg (show ¬ owed < (recordOf i).len by omega), advance,
      ih (pos := pos + (recordOf i).width) (owed := owed - (recordOf i).len) (j := j + (recordOf i).len)
        hl.2 hdrop (by omega)]
    simp only [fillRecords, streamOf_cons, samplesOf_cons, List.length_append, List.length_replicate, hw]
    rw [Nat.add_assoc, Nat.add_assoc, Nat.sub_sub]

/-- A channel decode that owes nothing is done, whatever the fuel. -/
theorem decodeChannel_done (rej : Bool) (stream : Nat → List Byte) (dst stride fuel : Nat) (m : Memory) (pos j : Nat) :
    decodeChannel rej stream dst stride fuel m ⟨pos, 0, j⟩ = ⟨m, ⟨pos, 0, j⟩, none⟩ := by
  cases fuel <;> simp [decodeChannel]

/-- A byte that is none of the records' slots is unchanged. -/
theorem read_fillRecords_outside {dst stride a : Nat} (rs : List Instr) (m : Memory) (j : Nat)
    (h : ∀ t, j ≤ t → t < j + (samplesOf rs).length → a ≠ dst + stride * t) :
    (fillRecords m dst stride j rs).read a = m.read a := by
  induction rs generalizing m j with
  | nil => rfl
  | cons i rs ih =>
    simp only [samplesOf_cons, List.length_append, List.length_replicate] at h
    rw [fillRecords, ih _ _ fun t h1 h2 => h t (by omega) (by omega),
      read_fillSlots_outside _ fun t h1 h2 => h t (by omega) (by omega)]

/-- The slots of the records hold their samples. -/
theorem read_fillRecords_inside {dst stride : Nat} (hs : 0 < stride) (rs : List Instr) (m : Memory) (j t : Nat)
    (h : t < (samplesOf rs).length) :
    (fillRecords m dst stride j rs).read (dst + stride * (j + t)) = (samplesOf rs)[t] := by
  induction rs generalizing m j t with
  | nil => simp at h
  | cons i rs ih =>
    simp only [samplesOf_cons, List.length_append, List.length_replicate] at h
    simp only [fillRecords, samplesOf_cons]
    by_cases ht : t < (recordOf i).len
    · rw [read_fillRecords_outside _ _ _ (fun u hu _ e => ?_),
        read_fillSlots_inside _ hs (by omega) (by omega), List.getElem_append_left (by simpa using ht)]
      · simp
      · have := Nat.eq_of_mul_eq_mul_left hs (Nat.add_left_cancel e)
        omega
    · have := ih (m.fillSlots dst stride (recordOf i).val j (recordOf i).len) (j + (recordOf i).len)
        (t - (recordOf i).len) (by omega)
      rw [show j + (recordOf i).len + (t - (recordOf i).len) = j + t by omega] at this
      rw [this, List.getElem_append_right (by simpa using ht)]
      simp

/-! ### What any channel decode keeps -/

theorem fillSlots_keeps {P : Memory → Prop} {dst stride : Nat} {v : Byte} {j len : Nat} {m : Memory}
    (hw : ∀ (m : Memory) (t : Nat), j ≤ t → t < j + len → P m → P (m.write (dst + stride * t) v)) (h : P m) :
    P (m.fillSlots dst stride v j len) := by
  induction len generalizing m j with
  | zero => exact h
  | succ len ih =>
    exact ih (fun m t h1 h2 => hw m t (by omega) (by omega)) (hw m j (by omega) (by omega) h)

/-- A property of memory that a write of any slot keeps holds after a channel decode, whatever its outcome. -/
theorem decodeChannel_keeps {P : Memory → Prop} {dst stride count : Nat} {rej : Bool} {stream : Nat → List Byte}
    (hw : ∀ (m : Memory) (t : Nat) (v : Byte), t < count → P m → P (m.write (dst + stride * t) v))
    (fuel : Nat) (m : Memory) (d : DecState) (hd : d.j + d.owed ≤ count) (h : P m) :
    P (decodeChannel rej stream dst stride fuel m d).mem := by
  induction fuel generalizing m d with
  | zero => exact h
  | succ fuel ih =>
    unfold decodeChannel
    split
    · exact h
    · split
      · exact h
      · split
        · exact h
        · exact ih _ _ (by simp only [advance]; omega)
            (fillSlots_keeps (fun m t _ h2 hp => hw m t _ (by omega) hp) h)

/-- The same for the channels of a frame decode, whose slots lie at `dst + 4 * t + k`. -/
theorem decodeChannels_keeps {P : Memory → Prop} {dst n fuel : Nat} {rej : Bool} {stream : Nat → List Byte}
    (hw : ∀ (m : Memory) (t : Nat) (k : Fin 4) (v : Byte), t < n → P m → P (m.write (dst + k.val + 4 * t) v))
    (ks : List (Fin 4)) (m : Memory) (pos : Nat) (lens : List Nat) (h : P m) :
    P (decodeChannels rej stream fuel dst n ks m pos lens).mem := by
  induction ks generalizing m pos lens with
  | nil => exact h
  | cons k ks ih =>
    have := decodeChannel_keeps (P := P) (dst := dst + k.val) (stride := 4) (count := n) (rej := rej) (stream := stream)
      (fun m t v ht hp => hw m t k v ht hp) fuel m ⟨pos, n, 0⟩ (by simp) h
    simp only [decodeChannels]
    split
    · exact this
    · exact ih _ _ _ this

/-- A record that is read has the width of its form and fits in the bytes it was read from. -/
theorem decodeRecord_ok {rej : Bool} {bs : List Byte} {r : Record} (h : decodeRecord rej bs = .ok r) :
    r.width ≤ bs.length ∧ 2 ≤ r.width ∧ r.width ≤ 3 ∧ 1 ≤ r.len := by
  unfold decodeRecord at h
  split at h
  · cases h
  · rename_i i hi
    split at h
    · cases h
    · rename_i he
      cases h
      have h1 : 1 ≤ (recordOf i).len := by
        by_contra h0
        simp [recordError, show (recordOf i).len = 0 by omega] at he
      unfold decodeRecordForm at hi
      split at hi
      · cases hi
      · split at hi
        · split at hi <;> cases hi
          exact ⟨by simp [recordOf], by simp [recordOf], by simp [recordOf], h1⟩
        · split at hi <;> cases hi
          exact ⟨by simp [recordOf], by simp [recordOf], by simp [recordOf], h1⟩

theorem window_length (m : Memory) (src len pos : Nat) : (m.window src len pos).length = min 3 (len - pos) := by
  simp [Memory.window, Memory.view]

/-- The cursor stays inside the stream, and `j + owed` does not change. -/
theorem decodeChannel_counts {rej : Bool} {src : Memory} {base len dst stride : Nat} (fuel : Nat) (m : Memory)
    (d : DecState) (h : d.pos ≤ len) :
    let r := decodeChannel rej (src.window base len) dst stride fuel m d
    d.pos ≤ r.dec.pos ∧ r.dec.pos ≤ len ∧ r.dec.j + r.dec.owed = d.j + d.owed := by
  induction fuel generalizing m d with
  | zero => exact ⟨le_refl _, h, rfl⟩
  | succ fuel ih =>
    simp only [decodeChannel]
    split
    · exact ⟨le_refl _, h, rfl⟩
    · split
      · exact ⟨le_refl _, h, rfl⟩
      · rename_i r hr
        obtain ⟨h1, h2, h3, h4⟩ := decodeRecord_ok hr
        rw [window_length] at h1
        split
        · exact ⟨le_refl _, h, rfl⟩
        · obtain ⟨i1, i2, i3⟩ := ih (m.fillSlots dst stride r.val d.j r.len) (advance r d)
            (by simp only [advance]; omega)
          simp only [advance] at i1 i2 i3 ⊢
          exact ⟨by omega, i2, by omega⟩

/-- With more fuel than the stream has bytes left, the fuel is never used up: a channel decode without an error owes nothing
and one with an error stopped at a record (41 R184). -/
theorem decodeChannel_fuel {rej : Bool} {src : Memory} {base len dst stride : Nat} (fuel extra : Nat) (m : Memory)
    (d : DecState) (hf : len - d.pos < fuel) :
    decodeChannel rej (src.window base len) dst stride (fuel + extra) m d =
      decodeChannel rej (src.window base len) dst stride fuel m d := by
  induction fuel generalizing m d with
  | zero => omega
  | succ fuel ih =>
    rw [show fuel + 1 + extra = (fuel + extra) + 1 by omega, decodeChannel, decodeChannel]
    split
    · rfl
    · split
      · rfl
      · rename_i r hr
        obtain ⟨h1, h2, h3, h4⟩ := decodeRecord_ok hr
        rw [window_length] at h1
        split
        · rfl
        · exact ih _ _ (by simp only [advance]; omega)

/-- The decoder of a channel reads the stream that stands in memory. -/
theorem window_eq_listStream (m : Memory) (src len : Nat) : m.window src len = listStream (m.view src 1 len) := by
  funext pos
  rw [window_eq_drop_take, listStream]

/-- The view of bytes that stand in memory is those bytes. -/
theorem view_eq_of_holdsAt {m : Memory} {a : Nat} {bs : List Byte} (h : HoldsAt m a bs) : m.view a 1 bs.length = bs := by
  apply List.ext_getElem
  · simp [Memory.view]
  · intro i h1 h2
    simp [Memory.view, h i h2]

end Sys2Proof.Machine
end

