-- ==== Sys2Proof/Laws/State.lean ====
section
/-!
SUPPORT. One lemma per field and update, each true by unfolding the update once, so that no later proof unfolds it.
-/

namespace Sys2Proof.Machine

/-! ### setRes -/

@[simp] theorem setRes_busy (s : State) (i : Fin 6) (v : Word) : (s.setRes i v).busy = s.busy := rfl
@[simp] theorem setRes_err (s : State) (i : Fin 6) (v : Word) : (s.setRes i v).err = s.err := rfl
@[simp] theorem setRes_errCode (s : State) (i : Fin 6) (v : Word) : (s.setRes i v).errCode = s.errCode := rfl
@[simp] theorem setRes_cwState (s : State) (i : Fin 6) (v : Word) : (s.setRes i v).cwState = s.cwState := rfl
@[simp] theorem setRes_errInfo0 (s : State) (i : Fin 6) (v : Word) : (s.setRes i v).errInfo0 = s.errInfo0 := rfl
@[simp] theorem setRes_errInfo1 (s : State) (i : Fin 6) (v : Word) : (s.setRes i v).errInfo1 = s.errInfo1 := rfl
@[simp] theorem setRes_sinkOff (s : State) (i : Fin 6) (v : Word) : (s.setRes i v).sinkOff = s.sinkOff := rfl
@[simp] theorem setRes_frames (s : State) (i : Fin 6) (v : Word) : (s.setRes i v).frames = s.frames := rfl
@[simp] theorem setRes_args (s : State) (i : Fin 6) (v : Word) : (s.setRes i v).args = s.args := rfl
@[simp] theorem setRes_argWritten (s : State) (i : Fin 6) (v : Word) : (s.setRes i v).argWritten = s.argWritten := rfl
@[simp] theorem setRes_res (s : State) (i : Fin 6) (v : Word) : (s.setRes i v).res = s.res.set i v := rfl
@[simp] theorem setRes_latch (s : State) (i : Fin 6) (v : Word) : (s.setRes i v).latch = s.latch := rfl
@[simp] theorem setRes_phase (s : State) (i : Fin 6) (v : Word) : (s.setRes i v).phase = s.phase := rfl
@[simp] theorem setRes_enc (s : State) (i : Fin 6) (v : Word) : (s.setRes i v).enc = s.enc := rfl
@[simp] theorem setRes_dec (s : State) (i : Fin 6) (v : Word) : (s.setRes i v).dec = s.dec := rfl
@[simp] theorem setRes_frame (s : State) (i : Fin 6) (v : Word) : (s.setRes i v).frame = s.frame := rfl
@[simp] theorem setRes_mem (s : State) (i : Fin 6) (v : Word) : (s.setRes i v).mem = s.mem := rfl
@[simp] theorem setRes_sink (s : State) (i : Fin 6) (v : Word) : (s.setRes i v).sink = s.sink := rfl
@[simp] theorem setRes_sinkPlan (s : State) (i : Fin 6) (v : Word) : (s.setRes i v).sinkPlan = s.sinkPlan := rfl
@[simp] theorem setRes_inbox (s : State) (i : Fin 6) (v : Word) : (s.setRes i v).inbox = s.inbox := rfl
@[simp] theorem setRes_hostData (s : State) (i : Fin 6) (v : Word) : (s.setRes i v).hostData = s.hostData := rfl
@[simp] theorem setRes_draws (s : State) (i : Fin 6) (v : Word) : (s.setRes i v).draws = s.draws := rfl
@[simp] theorem setRes_params (s : State) (i : Fin 6) (v : Word) : (s.setRes i v).params = s.params := rfl

/-! ### complete -/

@[simp] theorem complete_busy (s : State) : (complete s).busy = false := rfl
@[simp] theorem complete_err (s : State) : (complete s).err = s.err := rfl
@[simp] theorem complete_errCode (s : State) : (complete s).errCode = s.errCode := rfl
@[simp] theorem complete_cwState (s : State) : (complete s).cwState = s.cwState := rfl
@[simp] theorem complete_errInfo0 (s : State) : (complete s).errInfo0 = s.errInfo0 := rfl
@[simp] theorem complete_errInfo1 (s : State) : (complete s).errInfo1 = s.errInfo1 := rfl
@[simp] theorem complete_sinkOff (s : State) : (complete s).sinkOff = s.sinkOff := rfl
@[simp] theorem complete_frames (s : State) : (complete s).frames = s.frames := rfl
@[simp] theorem complete_args (s : State) : (complete s).args = s.args := rfl
@[simp] theorem complete_argWritten (s : State) : (complete s).argWritten = s.argWritten := rfl
@[simp] theorem complete_res (s : State) : (complete s).res = s.res := rfl
@[simp] theorem complete_latch (s : State) : (complete s).latch = none := rfl
@[simp] theorem complete_phase (s : State) : (complete s).phase = .issued := rfl
@[simp] theorem complete_enc (s : State) : (complete s).enc = encIdle := rfl
@[simp] theorem complete_dec (s : State) : (complete s).dec = decIdle := rfl
@[simp] theorem complete_frame (s : State) : (complete s).frame = frameIdle := rfl
@[simp] theorem complete_mem (s : State) : (complete s).mem = s.mem := rfl
@[simp] theorem complete_sink (s : State) : (complete s).sink = s.sink := rfl
@[simp] theorem complete_sinkPlan (s : State) : (complete s).sinkPlan = s.sinkPlan := rfl
@[simp] theorem complete_inbox (s : State) : (complete s).inbox = s.inbox := rfl
@[simp] theorem complete_hostData (s : State) : (complete s).hostData = s.hostData := rfl
@[simp] theorem complete_draws (s : State) : (complete s).draws = s.draws := rfl
@[simp] theorem complete_params (s : State) : (complete s).params = s.params := rfl

/-! ### report -/

@[simp] theorem report_busy (e : BlockError) (s : State) : (report e s).busy = s.busy := rfl
@[simp] theorem report_err (e : BlockError) (s : State) : (report e s).err = true := rfl
@[simp] theorem report_errCode (e : BlockError) (s : State) : (report e s).errCode = errorCode e := rfl
@[simp] theorem report_cwState (e : BlockError) (s : State) : (report e s).cwState = s.cwState := rfl
@[simp] theorem report_errInfo0 (e : BlockError) (s : State) : (report e s).errInfo0 = errInfo0Word (errorSub e) (errorChannel e) (errorArgIdx e) s.runningOp := rfl
@[simp] theorem report_errInfo1 (e : BlockError) (s : State) : (report e s).errInfo1 = errorInfo s.running.args e := rfl
@[simp] theorem report_sinkOff (e : BlockError) (s : State) : (report e s).sinkOff = s.sinkOff := rfl
@[simp] theorem report_frames (e : BlockError) (s : State) : (report e s).frames = s.frames := rfl
@[simp] theorem report_args (e : BlockError) (s : State) : (report e s).args = s.args := rfl
@[simp] theorem report_argWritten (e : BlockError) (s : State) : (report e s).argWritten = s.argWritten := rfl
@[simp] theorem report_res (e : BlockError) (s : State) : (report e s).res = s.res := rfl
@[simp] theorem report_latch (e : BlockError) (s : State) : (report e s).latch = s.latch := rfl
@[simp] theorem report_phase (e : BlockError) (s : State) : (report e s).phase = s.phase := rfl
@[simp] theorem report_enc (e : BlockError) (s : State) : (report e s).enc = s.enc := rfl
@[simp] theorem report_dec (e : BlockError) (s : State) : (report e s).dec = s.dec := rfl
@[simp] theorem report_frame (e : BlockError) (s : State) : (report e s).frame = s.frame := rfl
@[simp] theorem report_mem (e : BlockError) (s : State) : (report e s).mem = s.mem := rfl
@[simp] theorem report_sink (e : BlockError) (s : State) : (report e s).sink = s.sink := rfl
@[simp] theorem report_sinkPlan (e : BlockError) (s : State) : (report e s).sinkPlan = s.sinkPlan := rfl
@[simp] theorem report_inbox (e : BlockError) (s : State) : (report e s).inbox = s.inbox := rfl
@[simp] theorem report_hostData (e : BlockError) (s : State) : (report e s).hostData = s.hostData := rfl
@[simp] theorem report_draws (e : BlockError) (s : State) : (report e s).draws = s.draws := rfl
@[simp] theorem report_params (e : BlockError) (s : State) : (report e s).params = s.params := rfl

/-! ### raise -/

@[simp] theorem raise_busy (e : BlockError) (s : State) : (raise e s).busy = false := rfl
@[simp] theorem raise_err (e : BlockError) (s : State) : (raise e s).err = true := rfl
@[simp] theorem raise_errCode (e : BlockError) (s : State) : (raise e s).errCode = errorCode e := rfl
@[simp] theorem raise_cwState (e : BlockError) (s : State) : (raise e s).cwState = s.cwState := rfl
@[simp] theorem raise_errInfo0 (e : BlockError) (s : State) : (raise e s).errInfo0 = errInfo0Word (errorSub e) (errorChannel e) (errorArgIdx e) s.runningOp := rfl
@[simp] theorem raise_errInfo1 (e : BlockError) (s : State) : (raise e s).errInfo1 = errorInfo s.running.args e := rfl
@[simp] theorem raise_sinkOff (e : BlockError) (s : State) : (raise e s).sinkOff = s.sinkOff := rfl
@[simp] theorem raise_frames (e : BlockError) (s : State) : (raise e s).frames = s.frames := rfl
@[simp] theorem raise_args (e : BlockError) (s : State) : (raise e s).args = s.args := rfl
@[simp] theorem raise_argWritten (e : BlockError) (s : State) : (raise e s).argWritten = s.argWritten := rfl
@[simp] theorem raise_res (e : BlockError) (s : State) : (raise e s).res = s.res := rfl
@[simp] theorem raise_latch (e : BlockError) (s : State) : (raise e s).latch = none := rfl
@[simp] theorem raise_phase (e : BlockError) (s : State) : (raise e s).phase = .issued := rfl
@[simp] theorem raise_enc (e : BlockError) (s : State) : (raise e s).enc = encIdle := rfl
@[simp] theorem raise_dec (e : BlockError) (s : State) : (raise e s).dec = decIdle := rfl
@[simp] theorem raise_frame (e : BlockError) (s : State) : (raise e s).frame = frameIdle := rfl
@[simp] theorem raise_mem (e : BlockError) (s : State) : (raise e s).mem = s.mem := rfl
@[simp] theorem raise_sink (e : BlockError) (s : State) : (raise e s).sink = s.sink := rfl
@[simp] theorem raise_sinkPlan (e : BlockError) (s : State) : (raise e s).sinkPlan = s.sinkPlan := rfl
@[simp] theorem raise_inbox (e : BlockError) (s : State) : (raise e s).inbox = s.inbox := rfl
@[simp] theorem raise_hostData (e : BlockError) (s : State) : (raise e s).hostData = s.hostData := rfl
@[simp] theorem raise_draws (e : BlockError) (s : State) : (raise e s).draws = s.draws := rfl
@[simp] theorem raise_params (e : BlockError) (s : State) : (raise e s).params = s.params := rfl

/-! ### clearError -/

@[simp] theorem clearError_busy (s : State) : (clearError s).busy = s.busy := rfl
@[simp] theorem clearError_err (s : State) : (clearError s).err = false := rfl
@[simp] theorem clearError_errCode (s : State) : (clearError s).errCode = 0 := rfl
@[simp] theorem clearError_cwState (s : State) : (clearError s).cwState = s.cwState := rfl
@[simp] theorem clearError_errInfo0 (s : State) : (clearError s).errInfo0 = 0 := rfl
@[simp] theorem clearError_errInfo1 (s : State) : (clearError s).errInfo1 = 0 := rfl
@[simp] theorem clearError_sinkOff (s : State) : (clearError s).sinkOff = s.sinkOff := rfl
@[simp] theorem clearError_frames (s : State) : (clearError s).frames = s.frames := rfl
@[simp] theorem clearError_args (s : State) : (clearError s).args = s.args := rfl
@[simp] theorem clearError_argWritten (s : State) : (clearError s).argWritten = s.argWritten := rfl
@[simp] theorem clearError_res (s : State) : (clearError s).res = s.res := rfl
@[simp] theorem clearError_latch (s : State) : (clearError s).latch = s.latch := rfl
@[simp] theorem clearError_phase (s : State) : (clearError s).phase = s.phase := rfl
@[simp] theorem clearError_enc (s : State) : (clearError s).enc = s.enc := rfl
@[simp] theorem clearError_dec (s : State) : (clearError s).dec = s.dec := rfl
@[simp] theorem clearError_frame (s : State) : (clearError s).frame = s.frame := rfl
@[simp] theorem clearError_mem (s : State) : (clearError s).mem = s.mem := rfl
@[simp] theorem clearError_sink (s : State) : (clearError s).sink = s.sink := rfl
@[simp] theorem clearError_sinkPlan (s : State) : (clearError s).sinkPlan = s.sinkPlan := rfl
@[simp] theorem clearError_inbox (s : State) : (clearError s).inbox = s.inbox := rfl
@[simp] theorem clearError_hostData (s : State) : (clearError s).hostData = s.hostData := rfl
@[simp] theorem clearError_draws (s : State) : (clearError s).draws = s.draws := rfl
@[simp] theorem clearError_params (s : State) : (clearError s).params = s.params := rfl

/-! ### softReset -/

@[simp] theorem softReset_busy (s : State) : (softReset s).busy = false := rfl
@[simp] theorem softReset_err (s : State) : (softReset s).err = false := rfl
@[simp] theorem softReset_errCode (s : State) : (softReset s).errCode = 0 := rfl
@[simp] theorem softReset_cwState (s : State) : (softReset s).cwState = .uninit := rfl
@[simp] theorem softReset_errInfo0 (s : State) : (softReset s).errInfo0 = 0 := rfl
@[simp] theorem softReset_errInfo1 (s : State) : (softReset s).errInfo1 = 0 := rfl
@[simp] theorem softReset_sinkOff (s : State) : (softReset s).sinkOff = 0 := rfl
@[simp] theorem softReset_frames (s : State) : (softReset s).frames = 0 := rfl
@[simp] theorem softReset_args (s : State) : (softReset s).args = Vector.replicate 8 0 := rfl
@[simp] theorem softReset_argWritten (s : State) : (softReset s).argWritten = Vector.replicate 8 false := rfl
@[simp] theorem softReset_res (s : State) : (softReset s).res = Vector.replicate 6 0 := rfl
@[simp] theorem softReset_latch (s : State) : (softReset s).latch = none := rfl
@[simp] theorem softReset_phase (s : State) : (softReset s).phase = .issued := rfl
@[simp] theorem softReset_enc (s : State) : (softReset s).enc = encIdle := rfl
@[simp] theorem softReset_dec (s : State) : (softReset s).dec = decIdle := rfl
@[simp] theorem softReset_frame (s : State) : (softReset s).frame = frameIdle := rfl
@[simp] theorem softReset_mem (s : State) : (softReset s).mem = s.mem := rfl
@[simp] theorem softReset_sink (s : State) : (softReset s).sink = s.sink := rfl
@[simp] theorem softReset_sinkPlan (s : State) : (softReset s).sinkPlan = s.sinkPlan := rfl
@[simp] theorem softReset_inbox (s : State) : (softReset s).inbox = s.inbox := rfl
@[simp] theorem softReset_hostData (s : State) : (softReset s).hostData = s.hostData := rfl
@[simp] theorem softReset_draws (s : State) : (softReset s).draws = s.draws := rfl
@[simp] theorem softReset_params (s : State) : (softReset s).params = s.params := rfl

/-! ### srstReset -/

@[simp] theorem srstReset_busy (s : State) : (srstReset s).busy = false := rfl
@[simp] theorem srstReset_err (s : State) : (srstReset s).err = false := rfl
@[simp] theorem srstReset_errCode (s : State) : (srstReset s).errCode = 0 := rfl
@[simp] theorem srstReset_cwState (s : State) : (srstReset s).cwState = .uninit := rfl
@[simp] theorem srstReset_errInfo0 (s : State) : (srstReset s).errInfo0 = 0 := rfl
@[simp] theorem srstReset_errInfo1 (s : State) : (srstReset s).errInfo1 = 0 := rfl
@[simp] theorem srstReset_sinkOff (s : State) : (srstReset s).sinkOff = 0 := rfl
@[simp] theorem srstReset_frames (s : State) : (srstReset s).frames = 0 := rfl
@[simp] theorem srstReset_args (s : State) : (srstReset s).args = argsAfterSrst s := rfl
@[simp] theorem srstReset_argWritten (s : State) : (srstReset s).argWritten = Vector.replicate 8 false := rfl
@[simp] theorem srstReset_res (s : State) : (srstReset s).res = Vector.replicate 6 0 := rfl
@[simp] theorem srstReset_latch (s : State) : (srstReset s).latch = none := rfl
@[simp] theorem srstReset_phase (s : State) : (srstReset s).phase = .issued := rfl
@[simp] theorem srstReset_enc (s : State) : (srstReset s).enc = encIdle := rfl
@[simp] theorem srstReset_dec (s : State) : (srstReset s).dec = decIdle := rfl
@[simp] theorem srstReset_frame (s : State) : (srstReset s).frame = frameIdle := rfl
@[simp] theorem srstReset_mem (s : State) : (srstReset s).mem = s.mem := rfl
@[simp] theorem srstReset_sink (s : State) : (srstReset s).sink = s.sink := rfl
@[simp] theorem srstReset_sinkPlan (s : State) : (srstReset s).sinkPlan = s.sinkPlan := rfl
@[simp] theorem srstReset_inbox (s : State) : (srstReset s).inbox = s.inbox := rfl
@[simp] theorem srstReset_hostData (s : State) : (srstReset s).hostData = s.hostData := rfl
@[simp] theorem srstReset_draws (s : State) : (srstReset s).draws = s.draws := rfl
@[simp] theorem srstReset_params (s : State) : (srstReset s).params = s.params := rfl

/-- An ARG register after SRST. -/
theorem argsAfterSrst_getElem (s : State) (i : Fin 8) :
    (argsAfterSrst s)[i] = if s.argWritten[i] then s.args[i] else 0 := by
  simp [argsAfterSrst]

/-! ### latchCommand -/

@[simp] theorem latchCommand_busy (w : Word) (s : State) : (latchCommand w s).busy = true := rfl
@[simp] theorem latchCommand_err (w : Word) (s : State) : (latchCommand w s).err = s.err := rfl
@[simp] theorem latchCommand_errCode (w : Word) (s : State) : (latchCommand w s).errCode = s.errCode := rfl
@[simp] theorem latchCommand_cwState (w : Word) (s : State) : (latchCommand w s).cwState = s.cwState := rfl
@[simp] theorem latchCommand_errInfo0 (w : Word) (s : State) : (latchCommand w s).errInfo0 = s.errInfo0 := rfl
@[simp] theorem latchCommand_errInfo1 (w : Word) (s : State) : (latchCommand w s).errInfo1 = s.errInfo1 := rfl
@[simp] theorem latchCommand_sinkOff (w : Word) (s : State) : (latchCommand w s).sinkOff = s.sinkOff := rfl
@[simp] theorem latchCommand_frames (w : Word) (s : State) : (latchCommand w s).frames = s.frames := rfl
@[simp] theorem latchCommand_args (w : Word) (s : State) : (latchCommand w s).args = s.args := rfl
@[simp] theorem latchCommand_argWritten (w : Word) (s : State) : (latchCommand w s).argWritten = Vector.replicate 8 false := rfl
@[simp] theorem latchCommand_res (w : Word) (s : State) : (latchCommand w s).res = s.res := rfl
@[simp] theorem latchCommand_latch (w : Word) (s : State) : (latchCommand w s).latch = some ⟨w, s.args⟩ := rfl
@[simp] theorem latchCommand_phase (w : Word) (s : State) : (latchCommand w s).phase = .issued := rfl
@[simp] theorem latchCommand_enc (w : Word) (s : State) : (latchCommand w s).enc = s.enc := rfl
@[simp] theorem latchCommand_dec (w : Word) (s : State) : (latchCommand w s).dec = s.dec := rfl
@[simp] theorem latchCommand_frame (w : Word) (s : State) : (latchCommand w s).frame = s.frame := rfl
@[simp] theorem latchCommand_mem (w : Word) (s : State) : (latchCommand w s).mem = s.mem := rfl
@[simp] theorem latchCommand_sink (w : Word) (s : State) : (latchCommand w s).sink = s.sink := rfl
@[simp] theorem latchCommand_sinkPlan (w : Word) (s : State) : (latchCommand w s).sinkPlan = s.sinkPlan := rfl
@[simp] theorem latchCommand_inbox (w : Word) (s : State) : (latchCommand w s).inbox = s.inbox := rfl
@[simp] theorem latchCommand_hostData (w : Word) (s : State) : (latchCommand w s).hostData = s.hostData := rfl
@[simp] theorem latchCommand_draws (w : Word) (s : State) : (latchCommand w s).draws = s.draws := rfl
@[simp] theorem latchCommand_params (w : Word) (s : State) : (latchCommand w s).params = s.params := rfl

/-! ### acceptByte -/

@[simp] theorem acceptByte_busy (b : Byte) (s : State) : (acceptByte b s).busy = s.busy := rfl
@[simp] theorem acceptByte_err (b : Byte) (s : State) : (acceptByte b s).err = s.err := rfl
@[simp] theorem acceptByte_errCode (b : Byte) (s : State) : (acceptByte b s).errCode = s.errCode := rfl
@[simp] theorem acceptByte_cwState (b : Byte) (s : State) : (acceptByte b s).cwState = s.cwState := rfl
@[simp] theorem acceptByte_errInfo0 (b : Byte) (s : State) : (acceptByte b s).errInfo0 = s.errInfo0 := rfl
@[simp] theorem acceptByte_errInfo1 (b : Byte) (s : State) : (acceptByte b s).errInfo1 = s.errInfo1 := rfl
@[simp] theorem acceptByte_sinkOff (b : Byte) (s : State) : (acceptByte b s).sinkOff = s.sinkOff + 1 := rfl
@[simp] theorem acceptByte_frames (b : Byte) (s : State) : (acceptByte b s).frames = s.frames := rfl
@[simp] theorem acceptByte_args (b : Byte) (s : State) : (acceptByte b s).args = s.args := rfl
@[simp] theorem acceptByte_argWritten (b : Byte) (s : State) : (acceptByte b s).argWritten = s.argWritten := rfl
@[simp] theorem acceptByte_res (b : Byte) (s : State) : (acceptByte b s).res = s.res := rfl
@[simp] theorem acceptByte_latch (b : Byte) (s : State) : (acceptByte b s).latch = s.latch := rfl
@[simp] theorem acceptByte_phase (b : Byte) (s : State) : (acceptByte b s).phase = s.phase := rfl
@[simp] theorem acceptByte_enc (b : Byte) (s : State) : (acceptByte b s).enc = s.enc := rfl
@[simp] theorem acceptByte_dec (b : Byte) (s : State) : (acceptByte b s).dec = s.dec := rfl
@[simp] theorem acceptByte_frame (b : Byte) (s : State) : (acceptByte b s).frame = s.frame := rfl
@[simp] theorem acceptByte_mem (b : Byte) (s : State) : (acceptByte b s).mem = s.mem := rfl
@[simp] theorem acceptByte_sink (b : Byte) (s : State) : (acceptByte b s).sink = s.sink ++ [b] := rfl
@[simp] theorem acceptByte_sinkPlan (b : Byte) (s : State) : (acceptByte b s).sinkPlan = s.sinkPlan := rfl
@[simp] theorem acceptByte_inbox (b : Byte) (s : State) : (acceptByte b s).inbox = s.inbox := rfl
@[simp] theorem acceptByte_hostData (b : Byte) (s : State) : (acceptByte b s).hostData = s.hostData := rfl
@[simp] theorem acceptByte_draws (b : Byte) (s : State) : (acceptByte b s).draws = s.draws := rfl
@[simp] theorem acceptByte_params (b : Byte) (s : State) : (acceptByte b s).params = s.params := rfl

/-! ### setChannelResults -/

@[simp] theorem setChannelResults_busy (n : Nat) (ls : List Nat) (s : State) : (setChannelResults n ls s).busy = s.busy := rfl
@[simp] theorem setChannelResults_err (n : Nat) (ls : List Nat) (s : State) : (setChannelResults n ls s).err = s.err := rfl
@[simp] theorem setChannelResults_errCode (n : Nat) (ls : List Nat) (s : State) : (setChannelResults n ls s).errCode = s.errCode := rfl
@[simp] theorem setChannelResults_cwState (n : Nat) (ls : List Nat) (s : State) : (setChannelResults n ls s).cwState = s.cwState := rfl
@[simp] theorem setChannelResults_errInfo0 (n : Nat) (ls : List Nat) (s : State) : (setChannelResults n ls s).errInfo0 = s.errInfo0 := rfl
@[simp] theorem setChannelResults_errInfo1 (n : Nat) (ls : List Nat) (s : State) : (setChannelResults n ls s).errInfo1 = s.errInfo1 := rfl
@[simp] theorem setChannelResults_sinkOff (n : Nat) (ls : List Nat) (s : State) : (setChannelResults n ls s).sinkOff = s.sinkOff := rfl
@[simp] theorem setChannelResults_frames (n : Nat) (ls : List Nat) (s : State) : (setChannelResults n ls s).frames = s.frames := rfl
@[simp] theorem setChannelResults_args (n : Nat) (ls : List Nat) (s : State) : (setChannelResults n ls s).args = s.args := rfl
@[simp] theorem setChannelResults_argWritten (n : Nat) (ls : List Nat) (s : State) : (setChannelResults n ls s).argWritten = s.argWritten := rfl
@[simp] theorem setChannelResults_latch (n : Nat) (ls : List Nat) (s : State) : (setChannelResults n ls s).latch = s.latch := rfl
@[simp] theorem setChannelResults_phase (n : Nat) (ls : List Nat) (s : State) : (setChannelResults n ls s).phase = s.phase := rfl
@[simp] theorem setChannelResults_enc (n : Nat) (ls : List Nat) (s : State) : (setChannelResults n ls s).enc = s.enc := rfl
@[simp] theorem setChannelResults_dec (n : Nat) (ls : List Nat) (s : State) : (setChannelResults n ls s).dec = s.dec := rfl
@[simp] theorem setChannelResults_frame (n : Nat) (ls : List Nat) (s : State) : (setChannelResults n ls s).frame = s.frame := rfl
@[simp] theorem setChannelResults_mem (n : Nat) (ls : List Nat) (s : State) : (setChannelResults n ls s).mem = s.mem := rfl
@[simp] theorem setChannelResults_sink (n : Nat) (ls : List Nat) (s : State) : (setChannelResults n ls s).sink = s.sink := rfl
@[simp] theorem setChannelResults_sinkPlan (n : Nat) (ls : List Nat) (s : State) : (setChannelResults n ls s).sinkPlan = s.sinkPlan := rfl
@[simp] theorem setChannelResults_inbox (n : Nat) (ls : List Nat) (s : State) : (setChannelResults n ls s).inbox = s.inbox := rfl
@[simp] theorem setChannelResults_hostData (n : Nat) (ls : List Nat) (s : State) : (setChannelResults n ls s).hostData = s.hostData := rfl
@[simp] theorem setChannelResults_draws (n : Nat) (ls : List Nat) (s : State) : (setChannelResults n ls s).draws = s.draws := rfl
@[simp] theorem setChannelResults_params (n : Nat) (ls : List Nat) (s : State) : (setChannelResults n ls s).params = s.params := rfl

/-- The result registers after a frame command: RES0 the total, RES1..RES4 the channels, RES5 as before. -/
theorem setChannelResults_res (n : Nat) (ls : List Nat) (s : State) :
    (setChannelResults n ls s).res =
      ((((s.res.set 0 (BitVec.ofNat 32 n)).set 1 (BitVec.ofNat 32 (ls.getD 0 0))).set 2
        (BitVec.ofNat 32 (ls.getD 1 0))).set 3 (BitVec.ofNat 32 (ls.getD 2 0))).set 4
        (BitVec.ofNat 32 (ls.getD 3 0)) := rfl

/-! ### The latch -/

@[simp] theorem setRes_running (s : State) (i : Fin 6) (v : Word) : (s.setRes i v).running = s.running := rfl

@[simp] theorem setRes_arg (s : State) (i : Fin 6) (v : Word) : (s.setRes i v).arg = s.arg := rfl

@[simp] theorem report_running (e : BlockError) (s : State) : (report e s).running = s.running := rfl

@[simp] theorem acceptByte_running (b : Byte) (s : State) : (acceptByte b s).running = s.running := rfl

/-- The arguments of a latched command are the latch's copies (44 R301). -/
theorem arg_of_latch {s : State} {l : Latch} (h : s.latch = some l) (i : Fin 8) : s.arg i = l.args[i].toNat := by
  simp [State.arg, State.running, h]

/-- An argument fits 32 bits. -/
theorem arg_lt (s : State) (i : Fin 8) : s.arg i < 2 ^ 32 := (s.running.args[i]).isLt

/-! ### Result registers by number -/

theorem res_set_ne {r : Vector Word 6} {k : Nat} (hk : k < 6) {i : Fin 6} (h : k ≠ i.val) (v : Word) :
    (r.set k v hk)[i] = r[i] :=
  Vector.getElem_set_ne hk i.isLt h

end Sys2Proof.Machine
end

