-- ==== Sys2Proof/Laws/Ops.lean ====
section
/-!
SUPPORT. The shared operations: checks in order, the error report, and the append to the sink, each said once.
-/

namespace Sys2Proof.Machine

/-! ### Checks in order (60 R328) -/

@[simp] theorem firstError_nil : firstError [] = none := rfl
@[simp] theorem firstError_cons_true (e : BlockError) (cs : List (Bool × BlockError)) :
    firstError ((true, e) :: cs) = some e := rfl
@[simp] theorem firstError_cons_false (e : BlockError) (cs : List (Bool × BlockError)) :
    firstError ((false, e) :: cs) = firstError cs := rfl

theorem firstError_cons (b : Bool) (e : BlockError) (cs : List (Bool × BlockError)) :
    firstError ((b, e) :: cs) = if b then some e else firstError cs := rfl

/-- No check fails exactly when every condition is false. -/
theorem firstError_eq_none {cs : List (Bool × BlockError)} : firstError cs = none ↔ ∀ c ∈ cs, c.1 = false := by
  induction cs with
  | nil => simp
  | cons c cs ih =>
    obtain ⟨b, e⟩ := c
    cases b <;> simp [ih]

/-- The error reported is one of the list's. -/
theorem mem_of_firstError {cs : List (Bool × BlockError)} {e : BlockError} (h : firstError cs = some e) :
    e ∈ cs.map Prod.snd := by
  induction cs with
  | nil => cases h
  | cons c cs ih =>
    obtain ⟨b, d⟩ := c
    cases b with
    | true => simp only [firstError_cons_true, Option.some.injEq] at h; simp [h]
    | false => exact List.mem_cons_of_mem _ (ih h)

theorem firstError_append_none {cs ds : List (Bool × BlockError)} (h : firstError cs = none) :
    firstError (cs ++ ds) = firstError ds := by
  induction cs with
  | nil => rfl
  | cons c cs ih =>
    obtain ⟨b, d⟩ := c
    cases b with
    | true => cases h
    | false => exact ih h

theorem firstError_append_some {cs ds : List (Bool × BlockError)} {e : BlockError} (h : firstError cs = some e) :
    firstError (cs ++ ds) = some e := by
  induction cs with
  | nil => cases h
  | cons c cs ih =>
    obtain ⟨b, d⟩ := c
    cases b with
    | true => exact h
    | false => exact ih h

theorem guarded_of_none {cs : List (Bool × BlockError)} (h : firstError cs = none) (body : State → State) (s : State) :
    guarded cs body s = body s := by
  simp only [guarded, h]

theorem guarded_of_some {cs : List (Bool × BlockError)} {e : BlockError} (h : firstError cs = some e)
    (body : State → State) (s : State) : guarded cs body s = raise e s := by
  simp only [guarded, h]

/-- A guarded command reports its first error, one of its list's, or runs its body. -/
theorem guarded_cases (cs : List (Bool × BlockError)) (body : State → State) (s : State) :
    (firstError cs = none ∧ guarded cs body s = body s) ∨
      ∃ e ∈ cs.map Prod.snd, firstError cs = some e ∧ guarded cs body s = raise e s := by
  cases h : firstError cs with
  | none => exact .inl ⟨rfl, guarded_of_none h body s⟩
  | some e => exact .inr ⟨e, mem_of_firstError h, rfl, guarded_of_some h body s⟩

/-! ### Ranges -/

@[simp] theorem wraps_eq_false {base len : Nat} : wraps base len = false ↔ base + len ≤ 2 ^ 32 := by
  simp [wraps]

@[simp] theorem wraps_eq_true {base len : Nat} : wraps base len = true ↔ 2 ^ 32 < base + len := by
  simp [wraps]

@[simp] theorem badStride_eq_false {stride : Nat} : badStride stride = false ↔ stride = 1 ∨ stride = 4 := by
  simp only [badStride, Bool.and_eq_false_iff, bne_eq_false_iff_eq]

@[simp] theorem badStride_eq_true {stride : Nat} : badStride stride = true ↔ ¬ (stride = 1 ∨ stride = 4) := by
  rw [← badStride_eq_false, Bool.not_eq_false]

@[simp] theorem overlaps_eq_true {a la b lb : Nat} :
    overlaps a la b lb = true ↔ 0 < la ∧ 0 < lb ∧ a < b + lb ∧ b < a + la := by
  simp [overlaps, and_assoc]

@[simp] theorem overlaps_eq_false {a la b lb : Nat} :
    overlaps a la b lb = false ↔ la = 0 ∨ lb = 0 ∨ b + lb ≤ a ∨ a + la ≤ b := by
  rw [← Bool.not_eq_true, overlaps_eq_true]; omega

/-! ### The error report (60 R335) -/

theorem errInfo0Word_toNat {sub channel argIdx : Nat} (h1 : sub < 16) (h2 : channel < 16) (h3 : argIdx < 256) (op : Byte) :
    (errInfo0Word sub channel argIdx op).toNat = sub + 16 * channel + 256 * argIdx + 65536 * op.toNat := by
  have e1 : sub ||| channel <<< 4 = sub + 16 * channel := by
    rw [Nat.or_comm, ← Nat.shiftLeft_add_eq_or_of_lt (by omega), Nat.shiftLeft_eq]; omega
  have e2 : sub ||| channel <<< 4 ||| argIdx <<< 8 = sub + 16 * channel + 256 * argIdx := by
    rw [e1, Nat.or_comm, ← Nat.shiftLeft_add_eq_or_of_lt (by omega), Nat.shiftLeft_eq]; omega
  have e3 : sub ||| channel <<< 4 ||| argIdx <<< 8 ||| op.toNat <<< 16 =
      sub + 16 * channel + 256 * argIdx + 65536 * op.toNat := by
    rw [e2, Nat.or_comm, ← Nat.shiftLeft_add_eq_or_of_lt (by omega), Nat.shiftLeft_eq]; omega
  have := op.isLt
  rw [errInfo0Word, e3, BitVec.toNat_ofNat, Nat.mod_eq_of_lt (by omega)]

theorem errorSub_lt (e : BlockError) : errorSub e < 16 := by
  cases e with
  | encInvariant sub => cases sub <;> simp [errorSub, encSubCode]
  | format sub => cases sub <;> simp [errorSub, formatSubCode]
  | io => simp [errorSub]
  | invalidUsage st => cases st <;> simp [errorSub, cwStateCode]
  | illegalCommand => simp [errorSub]
  | argument sub => cases sub <;> simp [errorSub, argSubCode]

theorem errorChannel_lt (e : BlockError) : errorChannel e < 16 := by
  cases e <;> simp [errorChannel]; omega

theorem errorArgIdx_lt (e : BlockError) : errorArgIdx e < 256 := by
  cases e <;> simp [errorArgIdx]; omega

theorem errorCode_range (e : BlockError) : 1 ≤ (errorCode e).toNat ∧ (errorCode e).toNat ≤ 6 := by
  cases e <;> simp [errorCode]

/-- Below 2^32 no width question arises (log 27). -/
theorem word32_of_lt {n : Nat} (h : n < 2 ^ 32) : word32 n = BitVec.ofNat 32 n := if_pos h

/-- `raise` makes the report of its error, completes the command, and has no other effect. -/
theorem raise_spec (e : BlockError) (s : State) :
    OnlyReported (errorCode e).toNat (errorSub e) (errorChannel e) (errorArgIdx e) (errorInfo s.running.args e) s
      (raise e s) := by
  refine ⟨⟨rfl, rfl, ?_, rfl, rfl, rfl, rfl⟩, ⟨rfl, rfl, rfl, rfl, rfl⟩, ⟨rfl, rfl, rfl, rfl, rfl⟩, rfl, rfl⟩
  exact errInfo0Word_toNat (errorSub_lt e) (errorChannel_lt e) (errorArgIdx_lt e) _

/-- A command whose checks fail reports the first failing one, and has no other effect. -/
theorem guarded_reports {checks : List (Bool × BlockError)} {e : BlockError} (body : State → State) (s : State)
    (h : firstError checks = some e) :
    OnlyReported (errorCode e).toNat (errorSub e) (errorChannel e) (errorArgIdx e) (errorInfo s.running.args e) s
      (guarded checks body s) := by
  rw [guarded_of_some h]
  exact raise_spec e s

/-! ### The Byte Sink (20 R80, 43 R253) -/

/-- A sink that accepts every byte gains all of them. -/
theorem sinkWrite_accepted {bs : List Byte} {rest : List SinkAnswer} {s : State}
    (h : s.sinkPlan = List.replicate bs.length .ok ++ rest) (t : Nat) :
    sinkWrite bs t s =
      ({ s with sink := s.sink ++ bs, sinkOff := s.sinkOff + BitVec.ofNat 32 bs.length, sinkPlan := rest }, none) := by
  induction bs generalizing s t with
  | nil =>
    simp only [List.length_nil, List.replicate_zero, List.nil_append] at h
    subst h
    simp [sinkWrite]
  | cons b bs ih =>
    simp only [List.length_cons, List.replicate_succ, List.cons_append] at h
    simp only [sinkWrite, takeAnswer, h, beq_self_eq_true, if_true]
    rw [ih (by simp [acceptByte])]
    simp only [acceptByte, List.append_assoc, List.singleton_append, List.length_cons, BitVec.ofNat_add, BitVec.add_assoc,
      BitVec.add_comm 1]
    rfl

/-- A sink that accepts `k` bytes and rejects the next gains exactly `k`, and the container fails. -/
theorem sinkWrite_rejected {bs : List Byte} {k : Nat} {rest : List SinkAnswer} {s : State}
    (h : s.sinkPlan = List.replicate k .ok ++ .fail :: rest) (hk : k < bs.length) (t : Nat) :
    sinkWrite bs t s =
      ({ s with sink := s.sink ++ bs.take k, sinkOff := s.sinkOff + BitVec.ofNat 32 k, sinkPlan := rest,
                cwState := .failed }, some (t + k)) := by
  induction k generalizing bs s t with
  | zero =>
    cases bs with
    | nil => simp at hk
    | cons b bs => simp [sinkWrite, takeAnswer, h]
  | succ k ih =>
    cases bs with
    | nil => simp at hk
    | cons b bs =>
      simp only [List.replicate_succ, List.cons_append] at h
      simp only [List.length_cons] at hk
      simp only [sinkWrite, takeAnswer, h, beq_self_eq_true, if_true]
      rw [ih (by simp [acceptByte]) (by omega)]
      simp only [acceptByte, List.append_assoc, List.singleton_append, List.take_succ_cons, BitVec.ofNat_add,
        BitVec.add_assoc, BitVec.add_comm 1, Nat.add_comm 1, Nat.add_assoc]
      rfl

/-- Asking the sink changes its plan and the count of free values only. -/
theorem takeAnswer_frame (s : State) :
    ∃ (d : Nat) (plan : List SinkAnswer), (takeAnswer s).2 = { s with draws := d, sinkPlan := plan } := by
  unfold takeAnswer
  split
  · exact ⟨s.draws, _, rfl⟩
  · exact ⟨s.draws + 1, s.sinkPlan, rfl⟩

/-- Whatever the sink answers: it is only appended to, and only the sink's registers, CWSTATE, the plan and the count of free
values change. -/
theorem sinkWrite_frame (bs : List Byte) (t : Nat) (s : State) :
    ∃ (d : Nat) (off : Word) (plan : List SinkAnswer) (cw : CwState) (added : List Byte),
      (sinkWrite bs t s).1 =
        { s with draws := d, sinkOff := off, sinkPlan := plan, cwState := cw, sink := s.sink ++ added } := by
  induction bs generalizing s t with
  | nil => exact ⟨s.draws, s.sinkOff, s.sinkPlan, s.cwState, [], by simp [sinkWrite]⟩
  | cons b bs ih =>
    obtain ⟨d₀, plan₀, e₀⟩ := takeAnswer_frame s
    simp only [sinkWrite]
    split
    · obtain ⟨d, off, plan, cw, added, e⟩ := ih (t + 1) (acceptByte b (takeAnswer s).2)
      refine ⟨d, off, plan, cw, b :: added, ?_⟩
      rw [e, e₀]
      simp [acceptByte]
    · exact ⟨d₀, s.sinkOff, plan₀, .failed, [], by simp [e₀]⟩

/-- A plan of accepted appends does not hang. -/
theorem sinkHangs_accepted (n : Nat) (rest : List SinkAnswer) :
    sinkHangs (List.replicate n .ok ++ rest) n = false := by
  induction n with
  | zero => simp [sinkHangs]
  | succ n ih => simpa [List.replicate_succ, sinkHangs] using ih

/-- A plan that rejects before `n` appends does not hang within `n`. -/
theorem sinkHangs_rejected {k n : Nat} (h : k < n) (rest : List SinkAnswer) :
    sinkHangs (List.replicate k .ok ++ .fail :: rest) n = false := by
  induction k generalizing n with
  | zero => obtain ⟨n, rfl⟩ : ∃ m, n = m + 1 := ⟨n - 1, by omega⟩; rfl
  | succ k ih =>
    obtain ⟨n, rfl⟩ : ∃ m, n = m + 1 := ⟨n - 1, by omega⟩
    simpa [List.replicate_succ, sinkHangs] using ih (by omega)

/-- A plan that leaves an append unanswered within `n` hangs. -/
theorem sinkHangs_never {k n : Nat} (h : k < n) (rest : List SinkAnswer) :
    sinkHangs (List.replicate k .ok ++ .never :: rest) n = true := by
  induction k generalizing n with
  | zero => obtain ⟨n, rfl⟩ : ∃ m, n = m + 1 := ⟨n - 1, by omega⟩; rfl
  | succ k ih =>
    obtain ⟨n, rfl⟩ : ∃ m, n = m + 1 := ⟨n - 1, by omega⟩
    simpa [List.replicate_succ, sinkHangs] using ih (by omega)

/-- Without an unanswered append in the plan nothing hangs. -/
theorem sinkHangs_of_not_mem {plan : List SinkAnswer} (h : SinkAnswer.never ∉ plan) (n : Nat) : sinkHangs plan n = false := by
  induction plan generalizing n with
  | nil => cases n <;> rfl
  | cons a plan ih =>
    simp only [List.mem_cons, not_or] at h
    cases n with
    | zero => cases a <;> rfl
    | succ n =>
      cases a with
      | ok => exact ih h.2 n
      | fail => rfl
      | never => exact absurd rfl h.1

/-! ### The byte strings of the container -/

@[simp] theorem le32_length (v : Word) : (le32 v).length = 4 := rfl

@[simp] theorem wrghBytes_length (s : State) : (wrghBytes s).length = 24 := by
  simp [wrghBytes, globalHeaderBytes]

@[simp] theorem wrfrBytes_length (s : State) : (wrfrBytes s).length = 24 + s.arg 6 + pad (s.arg 6) := by
  simp [wrfrBytes, frameBytes, frameHeaderBytes, Memory.view]; omega

/-- A field that stands in memory little-endian is the word it came from (20 R75, R78). -/
theorem field_of_holdsAt {m : Memory} {a : Nat} {v : Word} (h : HoldsAt m a (le32 v)) : m.field a = v := by
  have h0 := h 0 (by simp)
  have h1 := h 1 (by simp)
  have h2 := h 2 (by simp)
  have h3 := h 3 (by simp)
  simp only [le32, Nat.add_zero, List.getElem_cons_zero, List.getElem_cons_succ] at h0 h1 h2 h3
  rw [Memory.field, h0, h1, h2, h3]
  apply BitVec.eq_of_getLsbD_eq
  intro i hi
  simp only [BitVec.getLsbD_append, BitVec.getLsbD_extractLsb']
  split
  · simp [*]
  · split
    · simp only [show i - 8 < 8 by omega, decide_true, Bool.true_and]; congr 1; omega
    · split
      · simp only [show i - 8 - 8 < 8 by omega, decide_true, Bool.true_and]; congr 1; omega
      · simp only [show i - 8 - 8 - 8 < 8 by omega, decide_true, Bool.true_and]; congr 1; omega

end Sys2Proof.Machine
end

