-- ==== Sys2Proof/Laws/Frame.lean ====
section
/-!
SUPPORT. The lengths EncodeSeq gives, the four channels of a frame, and what the engine's moves write.
-/

namespace Sys2Proof.Machine

/-! ### Lengths -/

theorem streamOf_length_le {rs : List Instr} (h : rs.all (legalRecord true) = true) :
    (streamOf rs).length ≤ 2 * (samplesOf rs).length := by
  induction rs with
  | nil => simp
  | cons i rs ih =>
    simp only [List.all_cons, Bool.and_eq_true] at h
    obtain ⟨-, hw, h1, -, h3⟩ := legalRecord_spec h.1
    have := ih h.2
    simp only [streamOf_cons, samplesOf_cons, List.length_append, List.length_replicate, hw]
    by_cases h2 : 2 ≤ (recordOf i).len
    · omega
    · have hw2 : (recordOf i).width = 2 := by
        cases i with
        | recShort => rfl
        | recLong hi lo val =>
          simp only [legalRecord, recordError, Option.isNone_iff_eq_none, recordOf] at h h2
          simp only [show (hi ++ lo : BitVec (7 + 8)).toNat < 128 by omega, true_and, if_true] at h
          split at h <;> cases h.1
        | _ => simp [legalRecord] at h
      omega

/-- From any run state the encoder meets, the output takes at most two bytes a sample (40 R144). -/
theorem encodeFrom_length_le {n : Nat} (hn : n ≤ 32766) {c : Byte} {s out : List Byte}
    (h : encodeFrom n c s = .ok out) : out.length ≤ 2 * (n + s.length) := by
  obtain ⟨rs, h1, h2, h3⟩ := encodeFrom_spec hn c s
  rw [h1] at h
  cases h
  have := streamOf_length_le (h2 true)
  rw [h3] at this
  simpa using this

/-- One sample keeps the run shorter than 32767, and what it writes and what the run still owes grow by at most two bytes
(40 R141, R144, R149). -/
theorem encoderStep_ok {n : Nat} {c x : Byte} {r : List Byte} {n' : Nat} {c' : Byte} (hn : n ≤ 32766)
    (h : encoderStep n c x = .ok (r, n', c')) : n' ≤ 32766 ∧ r.length + 2 * n' ≤ 2 * n + 2 := by
  unfold encoderStep at h
  split at h
  · cases h; simp
  · split at h
    · split at h
      · cases he : emitRecord 32767 c with
        | error e => rw [he] at h; cases h
        | ok r₀ =>
          rw [he] at h; cases h
          have hr : r.length = 3 := by rw [(emitRecord_length he).2.2]; rfl
          omega
      · cases h; simp; omega
    · cases he : emitRecord n c with
      | error e => rw [he] at h; cases h
      | ok r₀ =>
        rw [he] at h; cases h
        have h1 := emitRecord_length he
        have h2 := widthOf_le h1.1
        omega

/-- The flush at the end writes at most two bytes a sample of the run. -/
theorem flushRun_length {n : Nat} {c : Byte} {r : List Byte} (h : flushRun n c = .ok r) : r.length ≤ 2 * n := by
  unfold flushRun at h
  split at h
  · cases h; simp
  · have h1 := emitRecord_length h
    have h2 := widthOf_le h1.1
    omega

/-- The records of the channels of a frame, in order (42 R221). -/
theorem compressChannels_spec (m : Memory) (buf n : Nat) (ks : List (Fin 4)) :
    ∃ outs, compressChannels m buf n ks = .ok outs ∧ outs.length = ks.length ∧
      (∀ (i : Nat) (h : i < ks.length) (h' : i < outs.length),
        encodeSeq (channelSamples m buf n ks[i]) = .ok outs[i]) ∧
      outs.flatten.length ≤ 2 * n * ks.length := by
  induction ks with
  | nil => exact ⟨[], rfl, rfl, by simp, by simp⟩
  | cons k ks ih =>
    obtain ⟨outs, h1, h2, h3, h4⟩ := ih
    obtain ⟨rs, e1, -, -⟩ := encodeSeq_spec (channelSamples m buf n k)
    have hl := encodeFrom_length_le (by omega) e1
    have hv : (channelSamples m buf n k).length = n := by simp [channelSamples, Memory.view]
    refine ⟨streamOf rs :: outs, by simp [compressChannels, e1, h1, Except.map], by simp [h2], ?_, ?_⟩
    · intro i h h'
      cases i with
      | zero => exact e1
      | succ i => exact h3 i (by simpa using h) (by simpa using h')
    · simp only [List.flatten_cons, List.length_append, List.length_cons, Nat.mul_add, Nat.mul_one]
      omega

/-! ### The end of EMITREC and ENCCH -/

/-- A command that writes the bytes `r` at `a`, sets RES0 and completes has no other effect (40 R145). -/
theorem written_spec (s : State) (a : Nat) (r : List Byte) (v : Word) :
    let t := complete (({ s with mem := s.mem.writeBytes a r }).setRes 0 v)
    HoldsAt t.mem a r ∧ SameMemOutside a r.length s t ∧ t.res[0] = v ∧ SameResFrom 1 s t ∧
      SameReport s t ∧ SameContainer s t ∧ SameHostSide s t ∧ t.draws = s.draws ∧ Completed t := by
  refine ⟨fun t ht => ?_, fun b hb => ?_, ?_, fun i hi => ?_, ?_⟩
  · simp [read_writeBytes_inside ht]
  · simpa using read_writeBytes_outside (by omega) _
  · simp
  · simpa using Vector.getElem_set_ne _ _ (by omega)
  · simp [SameReport, SameContainer, SameHostSide, Completed]

/-! ### What is written, byte by byte -/

/-- A property of memory that every write inside `[a, a + n)` keeps is kept by writing bytes there. -/
theorem writeBytes_keeps {P : Memory → Prop} {m : Memory} {a : Nat} {bs : List Byte}
    (hw : ∀ (m : Memory) (t : Nat) (v : Byte), a ≤ t → t < a + bs.length → P m → P (m.write t v)) (h : P m) :
    P (m.writeBytes a bs) := by
  induction bs generalizing m a with
  | nil => exact h
  | cons b bs ih =>
    simp only [List.length_cons] at hw
    exact ih (fun m t v h1 h2 => hw m t v (by omega) (by omega)) (hw m a b (by omega) (by omega) h)

theorem forgetRange_keeps {P : Memory → Prop} {m : Memory} {a n k : Nat}
    (hf : ∀ (m : Memory) (t k : Nat), a ≤ t → t < a + n → P m → P (m.forget t k)) (h : P m) : P (m.forgetRange a n k) := by
  induction n generalizing m a k with
  | zero => exact h
  | succ n ih =>
    exact ih (fun m t k h1 h2 => hf m t k (by omega) (by omega)) (hf m a k (by omega) (by omega) h)

end Sys2Proof.Machine
end

