-- ==== Sys2Proof/Laws/PerInstr.lean ====
section
/-!
SUPPORT. Facts that hold of every instruction as syntax, one lemma a constructor.
-/

namespace Sys2Proof.Laws.EncodedForm

/-- The code of a record is as many bytes as its own first byte says (30 R106). The code of a command is its opcode alone, with
bits [31:8] zero, and the opcode names the command (30 R114, R115). -/
def Statement (i : Instr) : Prop :=
  match opcode i with
  | none => ∃ b0 rest, encode i = .stream (b0 :: rest) ∧ rest.length + 1 = recordWidth b0
  | some op =>
    ∃ w : Word, encode i = .command w ∧ reservedField w = 0 ∧ opField w = op ∧ opcodeInstr op = some i

theorem recShort (len : BitVec 7) (val : Byte) : Statement (.recShort len val) := by
  have h : (0#1 ++ len : BitVec (1 + 7)).getLsbD 7 = false := by rw [BitVec.getLsbD_append]; simp
  exact ⟨_, [val], rfl, by rw [recordWidth, h]; rfl⟩

theorem recLong (hi : BitVec 7) (lo val : Byte) : Statement (.recLong hi lo val) := by
  have h : (1#1 ++ hi : BitVec (1 + 7)).getLsbD 7 = true := by rw [BitVec.getLsbD_append]; simp
  exact ⟨_, [lo, val], rfl, by rw [recordWidth, h]; rfl⟩

theorem emitrec : Statement .emitrec := ⟨_, rfl, by decide⟩
theorem encch : Statement .encch := ⟨_, rfl, by decide⟩
theorem decch : Statement .decch := ⟨_, rfl, by decide⟩
theorem cmpfr : Statement .cmpfr := ⟨_, rfl, by decide⟩
theorem dcmfr : Statement .dcmfr := ⟨_, rfl, by decide⟩
theorem wrgh : Statement .wrgh := ⟨_, rfl, by decide⟩
theorem wrfr : Statement .wrfr := ⟨_, rfl, by decide⟩
theorem close : Statement .close := ⟨_, rfl, by decide⟩
theorem prgh : Statement .prgh := ⟨_, rfl, by decide⟩
theorem prfh : Statement .prfh := ⟨_, rfl, by decide⟩
theorem clrerr : Statement .clrerr := ⟨_, rfl, by decide⟩
theorem srst : Statement .srst := ⟨_, rfl, by decide⟩

end Sys2Proof.Laws.EncodedForm
end

