-- ==== Sys2Proof/Laws/Step.lean ====
section
/-!
SUPPORT. What one step can do, said once: the inversion that invariants are proved from.
-/

namespace Sys2Proof.Machine

/-! ### Where a step goes -/

/-- A run goes on from the next state. -/
theorem run_next {s s' : State} (h : step s = .next s') (n : Nat) :
    Host.Core.run Sys2Proof.core (n + 1) s = Host.Core.run Sys2Proof.core n s' := by
  have h' : Sys2Proof.core.step s = .next s' := h
  simp only [Host.Core.run, h']

theorem step_of_empty {s : State} (h : s.inbox = []) : step s = engineTurn s := by
  simp only [step, turn, h]

theorem step_of_pending {s : State} {op : HostOp} {rest : List HostOp} (h : s.inbox = op :: rest) :
    step s = hostTurn op { s with inbox := rest } := by
  simp only [step, turn, h]

theorem engineTurn_idle {s : State} (h : s.busy = false) : engineTurn s = .next s := by
  simp [engineTurn, h]

theorem engineTurn_issued {s : State} (hb : s.busy = true) (hp : s.phase = .issued) : engineTurn s = runLatched s := by
  simp only [engineTurn, hb, hp, if_true]

theorem engineTurn_encode {s : State} (hb : s.busy = true) (hp : s.phase = .encode) :
    engineTurn s = .next (encodeStep s) := by
  simp only [engineTurn, hb, hp, if_true]

theorem engineTurn_decode {s : State} (hb : s.busy = true) (hp : s.phase = .decode) : engineTurn s = decodeStep s := by
  simp only [engineTurn, hb, hp, if_true]

theorem runLatched_of_ok {s : State} {i : Instr} (h : decode (.command s.running.word) = .ok i) :
    runLatched s = exec i s := by
  simp only [runLatched, h]

theorem decodeStep_of_ok {s : State} {i : Instr} (ho : s.dec.owed ≠ 0) (h : fetchRecord s = .ok i) :
    decodeStep s = exec i s := by
  simp only [decodeStep, ho, if_false, h]

/-- What a latched command is read as. -/
theorem running_of_latch {s : State} {l : Latch} (h : s.latch = some l) : s.running = l := by
  simp only [State.running, h, Option.getD_some]

/-- A decoded command word is one of the twelve opcodes, with the reserved bits at 0. -/
theorem decodeCommand_ok {w : Word} {i : Instr} (h : decodeCommand w = .ok i) :
    ∃ op, opcode i = some op ∧ w = commandWord op := by
  have heq : decodeCommand w =
      if reservedField w = 0 then
        (match opcodeInstr (opField w) with
          | some i => .ok i
          | none => .error (.illegalCommand w))
      else .error (.illegalCommand w) := rfl
  rw [heq] at h
  split at h
  · rename_i h0
    have hw : w = commandWord (opField w) := by
      have := congrArg BitVec.toNat h0
      apply BitVec.eq_of_toNat_eq
      simp [reservedField, commandWord, opField] at this ⊢
      omega
    have hop : ∀ (op : Byte) (i : Instr), opcodeInstr op = some i → opcode i = some op := by decide +revert
    split at h
    · rename_i j hj
      cases h
      exact ⟨_, hop _ _ hj, hw⟩
    · cases h
  · cases h

/-- A decoded stream is one of the two record forms. -/
theorem decodeRecordForm_ok {bs : List Byte} {i : Instr} (h : decodeRecordForm bs = .ok i) :
    (∃ len val, i = .recShort len val) ∨ ∃ hi lo val, i = .recLong hi lo val := by
  unfold decodeRecordForm at h
  split at h
  · cases h
  · split at h
    · split at h <;> cases h
      exact .inr ⟨_, _, _, rfl⟩
    · split at h <;> cases h
      exact .inl ⟨_, _, rfl⟩

/-! ### The running job -/

@[simp] theorem decodeJob_src (s : State) : (decodeJob s).src = s.arg 0 := by unfold decodeJob; split <;> rfl
@[simp] theorem decodeJob_len (s : State) : (decodeJob s).len = s.arg 1 := by unfold decodeJob; split <;> rfl
@[simp] theorem decodeJob_count (s : State) : (decodeJob s).count = s.arg 2 := by unfold decodeJob; split <;> rfl

theorem decodeJob_dcmfr {s : State} (h : s.runningOp = 0x05) :
    decodeJob s = ⟨s.arg 0, s.arg 1, s.arg 2, s.arg 3 + s.frame.ch.val, 4⟩ := by
  rw [decodeJob, if_pos h]

theorem decodeJob_decch {s : State} (h : s.runningOp ≠ 0x05) :
    decodeJob s = ⟨s.arg 0, s.arg 1, s.arg 2, s.arg 3, s.arg 4⟩ := by
  rw [decodeJob, if_neg h]

theorem encodeJob_cmpfr {s : State} (h : s.runningOp = 0x04) :
    encodeJob s = ⟨s.arg 0 + s.frame.ch.val, 4, s.arg 1, s.arg 2 + s.frame.total⟩ := by
  rw [encodeJob, if_pos h]

theorem encodeJob_encch {s : State} (h : s.runningOp ≠ 0x04) :
    encodeJob s = ⟨s.arg 0, s.arg 1, s.arg 2, s.arg 3⟩ := by
  rw [encodeJob, if_neg h]

/-- The arguments of a command depend on the latch, and on the live registers only when it is empty (44 R301). -/
theorem running_congr {s t : State} (h : t.latch = s.latch) (h' : s.latch.isSome = true) : t.running = s.running := by
  obtain ⟨l, hl⟩ := Option.isSome_iff_exists.1 h'
  rw [running_of_latch hl, running_of_latch (h.trans hl)]

theorem arg_congr {s t : State} (h : t.running = s.running) : t.arg = s.arg := by
  funext i
  simp only [State.arg, h]

theorem runningOp_congr {s t : State} (h : t.running = s.running) : t.runningOp = s.runningOp := by
  simp only [State.runningOp, h]

/-! ### Inversion -/

/-- The ways in which a step leads from `s` to `t`. `s₀` is `s` after the step has taken the host's action off the list and
delivered what it read. -/
inductive Move (s s₀ t : State) : Prop where
  /-- Nothing of the block changes: a read, an ignored or lost write, an idle engine turn. -/
  | quiet (h : t = s₀)
  | writeArg (i : Fin 8) (v : Word) (h : t = { s₀ with args := s₀.args.set i v, argWritten := s₀.argWritten.set i true })
  | issued (v : Word) (hb : s.busy = false) (he : s.err = true → v = 0x0E ∨ v = 0x0F)
      (h : t = latchCommand v s₀)
  | writeMem (a : Word) (v : Byte) (h1 : inRange (activeSource s) a.toNat = false)
      (h2 : inRange (activeDest s) a.toNat = false) (h : t = { s₀ with mem := s₀.mem.write a.toNat v })
  | reset (hi : s.inbox = .resetInput :: s₀.inbox) (h : t = resetInput s₀)
  | openSink (contents : List Byte) (hi : s.inbox = .openSink contents :: s₀.inbox) (hb : s.busy = false)
      (h : t = { s₀ with sink := contents })
  /-- The latched command runs whole. -/
  | command (i : Instr) (hb : s.busy = true) (hp : s.phase = .issued) (hd : decodeCommand s.running.word = .ok i)
      (h : exec i s₀ = .next t)
  | illegal (hb : s.busy = true) (hp : s.phase = .issued) (hd : ∀ i, decodeCommand s.running.word ≠ .ok i)
      (h : t = raise (.illegalCommand s.running.word) s₀)
  /-- A codec command goes to its first internal boundary. -/
  | begun (i : Instr) (hb : s.busy = true) (hp : s.phase = .issued) (hd : decodeCommand s.running.word = .ok i)
      (h : beginCommand i s₀ = some t)
  | encoding (hb : s.busy = true) (hp : s.phase = .encode) (h : t = encodeStep s₀)
  | channelEnd (hb : s.busy = true) (hp : s.phase = .decode) (ho : s.dec.owed = 0) (h : t = decodeEnd s₀)
  | record (i : Instr) (hb : s.busy = true) (hp : s.phase = .decode) (ho : s.dec.owed ≠ 0) (hf : fetchRecord s = .ok i)
      (h : exec i s₀ = .next t)
  | badRecord (e : DecodeReject) (hb : s.busy = true) (hp : s.phase = .decode) (ho : s.dec.owed ≠ 0)
      (hf : fetchRecord s = .error e) (h : t = raise (.format (streamError e) s₀.frame.ch s₀.dec.pos) s₀)

/-- `s₀` differs from `s` only in the host's list, the value read and the count of free values. -/
abbrev Taken (s s₀ : State) : Prop :=
  ∃ (ib : List HostOp) (hd : Word) (d : Nat), s₀ = { s with inbox := ib, hostData := hd, draws := d }

theorem Taken.refl (s : State) : Taken s s := ⟨s.inbox, s.hostData, s.draws, rfl⟩

/-- An engine turn is one of the engine's moves. -/
theorem engineTurn_cases {s s₀ t : State} (h₀ : Taken s s₀) (h : engineTurn s₀ = .next t) : Move s s₀ t := by
  obtain ⟨ib, hd, d, rfl⟩ := h₀
  by_cases hb : s.busy = true
  · have hp : s.phase = .issued ∨ s.phase = .encode ∨ s.phase = .decode := by cases s.phase <;> simp
    rcases hp with hp | hp | hp
    · rw [engineTurn_issued (by exact hb) (by exact hp)] at h
      cases hd : decodeCommand s.running.word with
      | ok i =>
        rw [runLatched_of_ok (by exact hd)] at h
        exact .command i hb hp hd h
      | error e =>
        have hd' : decode (.command s.running.word) = .error e := hd
        simp only [runLatched, State.running] at h hd'
        simp only [hd'] at h
        cases h
        exact .illegal hb hp (fun i hi => by rw [hd] at hi; cases hi) rfl
    · rw [engineTurn_encode (by exact hb) (by exact hp)] at h
      cases h
      exact .encoding hb hp rfl
    · rw [engineTurn_decode (by exact hb) (by exact hp)] at h
      by_cases ho : s.dec.owed = 0
      · simp only [decodeStep, ho, if_true] at h
        cases h
        exact .channelEnd hb hp ho rfl
      · cases hf : fetchRecord s with
        | ok i =>
          rw [decodeStep_of_ok (by exact ho) (by exact hf)] at h
          exact .record i hb hp ho hf h
        | error e =>
          have hf' : fetchRecord { s with inbox := ib, hostData := hd, draws := d } = .error e := hf
          simp only [decodeStep, ho, if_false, hf'] at h
          cases h
          exact .badRecord e hb hp ho hf rfl
  · rw [engineTurn_idle (by simpa using hb)] at h
    cases h
    exact .quiet rfl

/-- A read of a register changes the value read and the count of free values only. -/
theorem readRegister_taken (r : Reg) (s : State) :
    ∃ (hd : Word) (d : Nat), readRegister r s = { s with hostData := hd, draws := d } := by
  unfold readRegister
  split
  · split
    · exact ⟨_, _, rfl⟩
    · exact ⟨_, s.draws, rfl⟩
  · exact ⟨_, s.draws, rfl⟩

/-- A step is one of the moves. -/
theorem step_cases {s t : State} (h : step s = .next t) : ∃ s₀, Taken s s₀ ∧ Move s s₀ t := by
  cases hi : s.inbox with
  | nil =>
    rw [step_of_empty hi] at h
    exact ⟨s, .refl s, engineTurn_cases (.refl s) h⟩
  | cons op rest =>
    rw [step_of_pending hi] at h
    have h₁ : Taken s { s with inbox := rest } := ⟨rest, s.hostData, s.draws, rfl⟩
    cases op with
    | writeReg off width v =>
      simp only [hostTurn, hostWriteReg] at h
      split at h
      · rename_i r hr
        cases h
        refine ⟨_, h₁, ?_⟩
        cases r with
        | cmd =>
          simp only [writeRegister, issue]
          split
          · exact .quiet rfl
          · split
            · exact .quiet rfl
            · rename_i hb he
              refine .issued (hostValue v { s with inbox := rest }) (by simpa using hb) (fun h => ?_) rfl
              rw [h] at he
              by_contra hc
              simp_all
        | arg i => exact .writeArg i _ rfl
        | _ => exact .quiet rfl
      · cases h
    | readReg off width =>
      simp only [hostTurn, hostReadReg] at h
      split at h
      · rename_i r hr
        cases h
        obtain ⟨hd, d, e⟩ := readRegister_taken r { s with inbox := rest }
        exact ⟨_, ⟨rest, hd, d, by rw [e]⟩, .quiet rfl⟩
      · cases h
    | writeMem a v =>
      simp only [hostTurn, hostWriteMem] at h
      split at h
      · cases h
      · rename_i hr
        cases h
        simp only [Bool.or_eq_true, not_or, Bool.not_eq_true] at hr
        exact ⟨_, h₁, .writeMem a v hr.1 hr.2 rfl⟩
    | readMem a =>
      simp only [hostTurn, hostReadMem] at h
      split at h
      · cases h
        exact ⟨_, ⟨rest, _, _, rfl⟩, .quiet rfl⟩
      · cases h
        exact ⟨_, ⟨rest, _, s.draws, rfl⟩, .quiet rfl⟩
    | resetInput =>
      simp only [hostTurn] at h
      cases h
      exact ⟨_, h₁, .reset hi rfl⟩
    | openSink contents =>
      simp only [hostTurn, hostOpenSink] at h
      split at h
      · cases h
      · rename_i hb
        cases h
        exact ⟨_, h₁, .openSink contents hi (by simpa using hb) rfl⟩
    | wait =>
      simp only [hostTurn, waitTurn] at h
      split at h
      · obtain ⟨hd, d, e⟩ := readRegister_taken .status { s with inbox := .wait :: rest }
        rw [e] at h
        have h₂ : Taken s { s with inbox := .wait :: rest, hostData := hd, draws := d } := ⟨_, hd, d, rfl⟩
        exact ⟨_, h₂, engineTurn_cases h₂ h⟩
      · obtain ⟨hd, d, e⟩ := readRegister_taken .status { s with inbox := rest }
        rw [e] at h
        cases h
        exact ⟨_, ⟨rest, hd, d, rfl⟩, .quiet rfl⟩
    | engine => exact ⟨_, h₁, engineTurn_cases h₁ h⟩
    | engineBegin =>
      simp only [hostTurn, engineBeginTurn] at h
      split at h
      · rename_i hbp
        split at h
        · rename_i i hd
          split at h
          · rename_i t' hbg
            cases h
            exact ⟨_, h₁, .begun i hbp.1 hbp.2 hd hbg⟩
          · exact ⟨_, h₁, .command i hbp.1 hbp.2 hd h⟩
        · refine ⟨_, h₁, engineTurn_cases h₁ ?_⟩
          rw [engineTurn_issued (s := { s with inbox := rest }) hbp.1 hbp.2]
          exact h
      · exact ⟨_, h₁, engineTurn_cases h₁ h⟩

/-! ### What the instructions do, by name -/

/-- A record form of a running channel decode: an error before any write, or its slots and the decoder's registers. -/
theorem runRecord_cases (r : Record) (s : State) :
    (∃ f, runRecord r s = raise (.format f s.frame.ch s.dec.pos) s) ∨
      (recordError s.params.decRejectNoncanonical r = none ∧ r.len ≤ s.dec.owed ∧
        runRecord r s =
          { s with
            mem := s.mem.fillSlots (decodeJob s).dst (decodeJob s).stride r.val s.dec.j r.len
            dec := advance r s.dec }) := by
  unfold runRecord
  split
  · exact .inl ⟨_, rfl⟩
  · split
    · exact .inl ⟨_, rfl⟩
    · rename_i h1 h2
      exact .inr ⟨h1, by omega, rfl⟩

/-- A codec command that begins reports its first error, or has passed its checks. -/
theorem beginCommand_cases {i : Instr} {s t : State} (h : beginCommand i s = some t) :
    (∃ e, t = raise e s) ∨
      (i = .encch ∧ firstError (encchChecks s.params.maxPixels s.arg) = none ∧ t = startEncode s) ∨
      (i = .cmpfr ∧ firstError (cmpfrChecks s.params.maxPixels s.arg) = none ∧ t = startEncode s) ∨
      (i = .decch ∧ firstError (decchChecks s.params.maxPixels s.arg) = none ∧ t = startDecode (s.arg 2) s) ∨
      (i = .dcmfr ∧ firstError (dcmfrChecks s.params.maxPixels s.arg) = none ∧ t = startDecode (s.arg 2) s) := by
  have hg : ∀ (cs : List (Bool × BlockError)) (body : State → State), guarded cs body s = t →
      (∃ e, t = raise e s) ∨ (firstError cs = none ∧ t = body s) := by
    rintro cs body rfl
    rcases guarded_cases cs body s with ⟨h1, h2⟩ | ⟨e, -, -, h2⟩
    · exact .inr ⟨h1, h2⟩
    · exact .inl ⟨e, h2⟩
  cases i with
  | encch => exact (hg _ _ (Option.some.inj h)).imp_right fun h => .inl ⟨rfl, h⟩
  | cmpfr => exact (hg _ _ (Option.some.inj h)).imp_right fun h => .inr (.inl ⟨rfl, h⟩)
  | decch => exact (hg _ _ (Option.some.inj h)).imp_right fun h => .inr (.inr (.inl ⟨rfl, h⟩))
  | dcmfr => exact (hg _ _ (Option.some.inj h)).imp_right fun h => .inr (.inr (.inr ⟨rfl, h⟩))
  | _ => cases h

end Sys2Proof.Machine
end

