-- ==== Sys2Proof/Tests/Slice0.lean ====
section
/-!
SUPPORT. The model's own tests: ill-formed terms, words written out from the encodings, one step each on small states with the
results of 95_test_vectors, and for every statement with hypotheses a state that meets them.
-/

namespace Sys2Proof.Tests

open Sys2Proof Sys2Proof.Machine

/-! ### WellFormed refuses each ill-formed term (30 R104, R105) -/

theorem test_wellFormed_short_zero : WellFormed (.recShort 0 7) = false := by decide
theorem test_wellFormed_long_zero : WellFormed (.recLong 0 0 7) = false := by decide
theorem test_wellFormed_long_127 : WellFormed (.recLong 0 127 7) = false := by decide
theorem test_wellFormed_accepts :
    ∀ i ∈ [Instr.recShort 1 7, .recShort 127 7, .recLong 0 128 7, .recLong 127 255 7, .cmpfr], WellFormed i = true := by decide

/-! ### Words written out bit by bit (30 R101, R102, R114, R115; spec/opcode_table.json) -/

theorem test_decode_recShort :
    decodeTableWord 16 0b0_0000101_00001001 = some (.recShort 5 9) ∧
    decodeTableWord 16 0b0_1111111_10101011 = some (.recShort 127 0xAB) := by decide
theorem test_decode_recLong :
    decodeTableWord 24 0b1_0000001_00101100_00000111 = some (.recLong 1 0x2C 7) ∧
    decodeTableWord 24 0b1_1111111_11111111_00000000 = some (.recLong 127 0xFF 0) := by decide
theorem test_decode_codec_commands :
    decodeTableWord 32 0b000000000000000000000000_00000001 = some .emitrec ∧
    decodeTableWord 32 0b000000000000000000000000_00000010 = some .encch ∧
    decodeTableWord 32 0b000000000000000000000000_00000011 = some .decch ∧
    decodeTableWord 32 0b000000000000000000000000_00000100 = some .cmpfr ∧
    decodeTableWord 32 0b000000000000000000000000_00000101 = some .dcmfr := by decide
theorem test_decode_container_commands :
    decodeTableWord 32 0b000000000000000000000000_00000110 = some .wrgh ∧
    decodeTableWord 32 0b000000000000000000000000_00000111 = some .wrfr ∧
    decodeTableWord 32 0b000000000000000000000000_00001000 = some .close ∧
    decodeTableWord 32 0b000000000000000000000000_00001001 = some .prgh ∧
    decodeTableWord 32 0b000000000000000000000000_00001010 = some .prfh := by decide
theorem test_decode_control_commands :
    decodeTableWord 32 0b000000000000000000000000_00001110 = some .clrerr ∧
    decodeTableWord 32 0b000000000000000000000000_00001111 = some .srst := by decide
/-- 30 R116: the reserved opcodes and any set bit of [31:8] are no instruction. -/
theorem test_decode_reserved :
    ∀ w ∈ [0x00, 0x0B, 0x0C, 0x0D, 0x10, 0xFF, 0x101, 0x8000000E], decodeTableWord 32 w = none := by decide
/-- 41 R180: a stream that ends before or inside a record is refused by name. -/
theorem test_decode_short_streams :
    decode (.stream []) = .error .exhausted ∧ decode (.stream [0x05]) = .error .truncated ∧
    decode (.stream [0x81, 0x2C]) = .error .truncated := by decide

/-! ### Small states -/

/-- Parameters that can be evaluated: MAGIC and FMT_RLE are free in the model (log 6). -/
def params : Params := ⟨0xAABBCCDD, 0x11223344, 536870911, true⟩

/-- The bytes `bs` stand at `a`, and nothing else is listed. -/
def memAt (a : Nat) (bs : List Byte) : Memory := Memory.writeBytes ⟨[], []⟩ a bs

/-- The command word `w` has just been issued with these arguments, and `bs` stands at `a`. -/
def issued (w : Word) (args : List Nat) (a : Nat) (bs : List Byte) : State :=
  { State.reset with
    params := params
    busy := true
    latch := some ⟨w, Vector.ofFn fun i => BitVec.ofNat 32 (args.getD i.val 0)⟩
    mem := memAt a bs }

/-- The same, with the engine at a record boundary of the channel decode. -/
def decoding (w : Word) (args : List Nat) (dec : DecState) (a : Nat) (bs : List Byte) : State :=
  { issued w args a bs with phase := .decode, dec := dec }

/-- The same, with the engine between two samples of the channel encode. -/
def encoding (w : Word) (args : List Nat) (enc : EncState) (a : Nat) (bs : List Byte) : State :=
  { issued w args a bs with phase := .encode, enc := enc }

/-- The state a step leads to, or the reset state where it stops. -/
def after : Host.Outcome State Fault Refusal → State
  | .next t => t
  | .fault _ => State.reset
  | .refused _ => State.reset

/-- The three report words as the host reads them. -/
def reportWords (t : State) : Word × Word × Word := (statusWord t, t.errInfo0, t.errInfo1)

/-- The pixel buffer of 95 S6. -/
def pixels : List Byte := [0x0A, 0x14, 0x1E, 0x28, 0x0A, 0x14, 0x1E, 0x29]

/-- The payload of 95 S6. -/
def payload : List Byte := [0x02, 0x0A, 0x02, 0x14, 0x02, 0x1E, 0x01, 0x28, 0x01, 0x29]

/-- The global header of 95 H1 with the parameters above. -/
def header : List Byte :=
  [0xDD, 0xCC, 0xBB, 0xAA, 1, 0, 0, 0, 2, 0, 0, 0, 1, 0, 0, 0, 12, 0, 0, 0, 1, 0, 0, 0]

/-- A sink that accepts the next `n` bytes. -/
def accepting (n : Nat) (s : State) : State := { s with sinkPlan := List.replicate n SinkAnswer.ok }

/-! ### One step each -/

/-- 41 R181: {2, 0A} in the second round of 95 D21. -/
theorem test_recShort :
    let t := after (step (decoding 0x03 [0x2000, 4, 4, 0x9000, 1] ⟨0, 4, 0⟩ 0x2000 [0x02, 0x0A, 0x00, 0x07]))
    t.mem.view 0x9000 1 3 = [0x0A, 0x0A, 0x00] ∧ t.dec = ⟨2, 2, 2⟩ ∧ t.busy = true := by decide
/-- 95 D21: the next record has length 0. -/
theorem test_recShort_zero :
    reportWords (after (step (decoding 0x03 [0x2000, 4, 4, 0x9000, 1] ⟨2, 2, 2⟩ 0x2000 [0x02, 0x0A, 0x00, 0x07])))
      = (0x00000022, 0x00030003, 0x00000002) := by decide
/-- 95 D10: a long record of length 5, accepted without `DEC_REJECT_NONCANONICAL`. -/
theorem test_recLong :
    let t := after (step { decoding 0x03 [0x2000, 3, 6, 0x9000, 4] ⟨0, 6, 1⟩ 0x2000 [0x80, 0x05, 0x07] with
      params := { params with decRejectNoncanonical := false } })
    t.mem.view (0x9000 + 4 * 4) 1 6 = [7, 0, 0, 0, 7, 0] ∧ t.mem.view 0x9000 1 5 = [0, 0, 0, 0, 7] ∧
      t.dec = ⟨3, 1, 6⟩ := by decide
/-- 95 D22. -/
theorem test_recLong_noncanonical :
    reportWords (after (step (decoding 0x03 [0x2000, 3, 5, 0x9000, 1] ⟨0, 5, 0⟩ 0x2000 [0x80, 0x05, 0x07])))
      = (0x00000022, 0x00030004, 0x00000000) := by decide
/-- 95 E6. -/
theorem test_emitrec :
    let t := after (step (issued 0x01 [300, 7, 0x8000, 3] 0 []))
    t.mem.bytes = [(0x8000, 0x81), (0x8001, 0x2C), (0x8002, 0x07)] ∧ t.res[0] = 3 ∧ statusWord t = 0 := by decide
/-- 95 E17. -/
theorem test_emitrec_capacity :
    reportWords (after (step (issued 0x01 [200, 7, 0x8000, 2] 0 []))) = (0x00000062, 0x00010303, 0x00000002) := by decide
/-- 95 C13. -/
theorem test_encch :
    let t := after (step (issued 0x02 [0x1000, 1, 6, 0x8000, 12] 0x1000 [1, 1, 2, 2, 2, 3]))
    t.mem.view 0x8000 1 7 = [2, 1, 3, 2, 1, 3, 0] ∧ t.res[0] = 6 := by decide
/-- 95 C18: stride 4, channel 3. -/
theorem test_encch_stride :
    let t := after (step (issued 0x02 [0x1003, 4, 2, 0x8000, 4] 0x1000 pixels))
    t.mem.view 0x8000 1 5 = [0x01, 0x28, 0x01, 0x29, 0x00] ∧ t.res[0] = 4 := by decide
/-- 95 D9. -/
theorem test_decch :
    let t := after (step (issued 0x03 [0x2000, 4, 2, 0x9003, 4] 0x2000 [0x01, 0x28, 0x01, 0x29]))
    t.mem.view 0x9003 1 5 = [0x28, 0x00, 0x00, 0x00, 0x29] ∧ t.res[0] = 4 := by decide
/-- 95 D25: the first record stands. -/
theorem test_decch_overshoot :
    let t := after (step (issued 0x03 [0x2000, 4, 3, 0x9000, 1] 0x2000 [0x02, 0x0A, 0x02, 0x14]))
    reportWords t = (0x00000022, 0x00030005, 0x00000002) ∧ t.mem.view 0x9000 1 3 = [0x0A, 0x0A, 0x00] := by decide
/-- 95 F3. -/
theorem test_cmpfr :
    let t := after (step (issued 0x04 [0x1000, 2, 0x8000, 16] 0x1000 pixels))
    t.mem.view 0x8000 1 10 = payload ∧ t.res = #v[10, 2, 2, 2, 4, 0] := by decide
/-- 95 F14. -/
theorem test_cmpfr_overlap :
    reportWords (after (step (issued 0x04 [0x1000, 2, 0x1004, 16] 0x1000 pixels)))
      = (0x00000062, 0x00040205, 0x00001004) := by decide
/-- 95 G1. -/
theorem test_dcmfr :
    let t := after (step (issued 0x05 [0x2000, 10, 2, 0x9000] 0x2000 payload))
    t.mem.view 0x9000 1 8 = pixels ∧ t.res = #v[10, 2, 2, 2, 4, 0] := by decide
/-- 95 G8, S8. -/
theorem test_dcmfr_truncated :
    let t := after (step (issued 0x05 [0x2000, 9, 2, 0x9000] 0x2000 payload))
    reportWords t = (0x00000022, 0x00050032, 0x00000008) ∧
      t.mem.view 0x9000 1 8 = [0x0A, 0x14, 0x1E, 0x28, 0x0A, 0x14, 0x1E, 0x00] := by decide
/-- 95 H1, S7. -/
theorem test_wrgh :
    let t := after (step (accepting 24 (issued 0x06 [2, 1, 12, 1] 0 [])))
    t.sink = header ∧ t.sinkOff = 24 ∧ t.res[0] = 24 ∧ statusWord t = 0x00000100 := by decide
/-- 95 T14. -/
theorem test_wrgh_rejected :
    let t := after (step { issued 0x06 [2, 1, 12, 1] 0 [] with sinkPlan := [.fail] })
    reportWords t = (0x00000432, 0x00060000, 0x00000000) ∧ t.sink = [] := by decide
/-- 95 H5. -/
theorem test_wrfr :
    let t := after (step (accepting 36 { issued 0x07 [2, 1, 0, 0, 0x11223344, 0x2000, 10] 0x2000 payload with
      cwState := .hdr }))
    t.sink = [2, 0, 0, 0, 1, 0, 0, 0, 0, 0, 0, 0, 0, 0, 0, 0, 0x44, 0x33, 0x22, 0x11, 10, 0, 0, 0] ++ payload ++ [0, 0] ∧
      t.res[0] = 36 ∧ t.res[1] = 2 ∧ t.frames = 1 ∧ statusWord t = 0x00000200 := by decide
/-- 95 T15. -/
theorem test_wrfr_rejected :
    let t := after (step { issued 0x07 [2, 1, 0, 0, 0, 0x2000, 10] 0x2000 payload with
      cwState := .frame, sinkPlan := List.replicate 30 SinkAnswer.ok ++ [SinkAnswer.fail] })
    reportWords t = (0x00000432, 0x00070000, 0x0000001E) ∧ t.sink.length = 30 ∧ t.frames = 0 := by decide
/-- 95 T6 and T3. -/
theorem test_close :
    statusWord (after (step { issued 0x08 [] 0 [] with cwState := .hdr })) = 0x00000300 ∧
      reportWords (after (step (issued 0x08 [] 0 []))) = (0x00000042, 0x00080000, 0) := by decide
/-- 95 H9. -/
theorem test_prgh :
    (after (step (issued 0x09 [0x3000, 24] 0x3000 header))).res = #v[2, 1, 12, 1, 0, 0] := by decide
/-- 95 H14: the version reads 0x01000000. -/
theorem test_prgh_version :
    reportWords (after (step (issued 0x09 [0x3000, 24] 0x3000 ((header.set 4 0).set 7 1))))
      = (0x00000022, 0x00090009, 0x00000004) := by decide
/-- 95 H18. -/
theorem test_prfh :
    (after (step (issued 0x0A [0x3000, 24] 0x3000
      [2, 0, 0, 0, 1, 0, 0, 0, 5, 0, 0, 0, 0xFF, 0xFF, 0xFF, 0xFF, 0x78, 0x56, 0x34, 0x12, 0, 0, 0, 0]))).res
      = #v[2, 1, 5, 0xFFFFFFFF, 0x12345678, 0] := by decide
/-- 95 H19. -/
theorem test_prfh_short :
    reportWords (after (step (issued 0x0A [0x3000, 0] 0 []))) = (0x00000022, 0x000A0007, 0) := by decide
/-- 95 K9. -/
theorem test_clrerr :
    reportWords (after (step { issued 0x0E [] 0 [] with
      err := true, errCode := 3, errInfo0 := 0x00060000, errInfo1 := 7, cwState := .failed }))
      = (0x00000400, 0, 0) := by decide
/-- 95 K10. -/
theorem test_srst :
    let t := after (step { issued 0x0F [1, 2] 0x1000 [5] with
      err := true, errCode := 3, cwState := .failed, sinkOff := 9, args := Vector.replicate 8 3, sink := [1] })
    statusWord t = 0 ∧ t.sinkOff = 0 ∧ t.args = Vector.replicate 8 0 ∧ t.sink = [1] ∧ t.mem.read 0x1000 = 5 := by decide
/-- 70 R380 (log 29): ARG1 written while SRST is BUSY counts for the next command; the other ARG registers are 0. -/
theorem test_srst_late_argument :
    (after (step { issued 0x0F [] 0 [] with
      args := #v[3, 7, 3, 3, 3, 3, 3, 3], argWritten := (Vector.replicate 8 false).set 1 true })).args
      = #v[0, 7, 0, 0, 0, 0, 0, 0] := by decide
/-- 95 K5. -/
theorem test_illegal_command :
    reportWords (after (step (issued 0x8000000E [] 0 []))) = (0x00000052, 0x000E0000, 0x8000000E) := by decide

/-! ### The host's side -/

/-- 95 Q5 and K12: ARG3 reads back; a CMD write while BUSY = 1 is lost. -/
theorem test_register_accesses :
    (after (step (after (step { State.reset with
      inbox := [.writeReg 0x2C 32 (.lit 0xDEADBEEF), .readReg 0x2C 32] })))).hostData = 0xDEADBEEF ∧
    (after (step { issued 0x02 [] 0 [] with inbox := [.writeReg 0x00 32 (.lit 0x0F)] })).latch = (issued 0x02 [] 0 []).latch := by
  decide
/-- 20 R86 (log 13): while BUSY = 1 an ARG register and a byte outside the destination read as they are. -/
theorem test_busy_reads :
    (after (step { issued 0x02 [0, 1, 4, 0x8000, 8] 0x7FFF [9] with
      args := Vector.replicate 8 3, inbox := [.readReg 0x20 32] })).hostData = 3 ∧
    (after (step { issued 0x02 [0, 1, 4, 0x8000, 8] 0x7FFF [9] with inbox := [.readMem 0x7FFF] })).hostData = 9 := by
  decide
/-- 95 Z2: the bytes of the destination become free values, the pixel buffer is unchanged. -/
theorem test_reset_while_busy :
    let t := after (step { issued 0x04 [0x1000, 2, 0x8000, 16] 0x1000 pixels with inbox := [.resetInput] })
    t.mem.view 0x1000 1 8 = pixels ∧ t.mem.free.map Prod.fst = List.range' 0x8000 16 ∧ t.busy = false := by decide
/-- 30 R120: the expansion of CONVERT for one image of 2 x 1 pixels, and the implied WAIT of a program's command. -/
theorem test_convert :
    convert 2 1 [0x1000] 0x8000 16 =
      assembleProgram [.command .wrgh [.num 2, .num 1, .num 12, .num 1],
        .command .cmpfr [.num 0x1000, .num 2, .num 0x8000, .num 16],
        .command .wrfr [.num 2, .num 1, .num 0, .num 0, .fmtRle, .num 0x8000, .res 0], .command .close []] ∧
    assembleProgram [.command .clrerr [], .command .emitrec [.num 5, .res 1]] =
      [.writeReg 0x00 32 (.lit 0x0E), .wait, .writeReg 0x20 32 (.lit 5), .readReg 0x44 32, .writeReg 0x24 32 .last,
        .writeReg 0x00 32 (.lit 0x01), .wait] := by decide
/-- Log 9: `withFetchWord` places an instruction where the next step runs it. -/
theorem test_withFetchWord :
    (after (step (State.reset.withFetchWord 16 0x0509))).mem.view 0x10000 1 6 = [9, 9, 9, 9, 9, 0] ∧
    (after (step (State.reset.withFetchWord 24 0x800509))).errCode = 2 ∧
    (after (step (State.reset.withFetchWord 32 0x01))).errInfo0 = 0x00010001 := by decide

/-! ### A state that meets the hypotheses of each statement, clause by clause, at the ends of their ranges

`witness_<statement>` names the statement it is for. -/

theorem witness_IllegalCommandReportsItsWord :
    (∀ w : Word, let s := issued w [] 0 []
      s.inbox = [] ∧ s.busy = true ∧ s.phase = .issued ∧ ∃ l, s.latch = some l ∧ l.word = w) ∧
    256 ≤ (0x100 : Word).toNat ∧ 256 ≤ (0xFFFFFFFF : Word).toNat ∧
    (∀ n ∈ [0x00, 0x0B, 0x0D, 0x10], n ∉ [0x01, 0x02, 0x03, 0x04, 0x05, 0x06, 0x07, 0x08, 0x09, 0x0A, 0x0E, 0x0F]) ∧
    (0x00 : Word).toNat = 0x00 ∧ (0x0D : Word).toNat = 0x0D ∧ (0x10 : Word).toNat = 0x10 :=
  ⟨fun _ => ⟨rfl, rfl, rfl, _, rfl, rfl⟩, by decide, by decide, by decide, rfl, rfl, rfl⟩

theorem witness_StepRunsTheLatchedCommand :
    (issued 0x04 [] 0 []).busy = true ∧ (issued 0x04 [] 0 []).phase = .issued ∧ (issued 0x04 [] 0 []).inbox = [] ∧
    (issued 0x04 [] 0 []).latch.map Latch.word = some 0x04 ∧ decode (.command 0x04) = .ok .cmpfr ∧
    ({ issued 0x04 [] 0 [] with inbox := [.engine, .wait] } : State).inbox = .engine :: [.wait] := by decide

theorem witness_StepRunsTheFetchedRecord :
    let s := decoding 0x03 [0x2000, 4, 4, 0x9000, 1] ⟨2, 2, 2⟩ 0x2000 [0x02, 0x0A, 0x02, 0x07]
    s.busy = true ∧ s.phase = .decode ∧ 0 < s.dec.owed ∧ HoldsAt s.mem ((decodeJob s).src + s.dec.pos) [0x02, 0x07] ∧
    s.dec.pos + [0x02, 0x07].length ≤ (decodeJob s).len ∧ encode (.recShort 2 7) = .stream [0x02, 0x07] ∧
    s.inbox = [] ∧ ({ s with inbox := [.engine] } : State).inbox = .engine :: [] := by decide

theorem witness_CommandWriteLatchesArguments :
    (let s := { State.reset with inbox := [.writeReg 0x00 32 (.lit 0x01)] }
     (0x01 : Word) = hostValue (.lit 0x01) s ∧ s.busy = false ∧ s.err = false ∧ s.inbox = .writeReg 0x00 32 (.lit 0x01) :: []) ∧
    (let s := { State.reset with err := true, errCode := 1, inbox := [.writeReg 0x00 32 (.lit 0x0E)] }
     (0x0E : Word) = hostValue (.lit 0x0E) s ∧ s.busy = false ∧ s.inbox = .writeReg 0x00 32 (.lit 0x0E) :: []) ∧
    (let s := { State.reset with hostData := 10, inbox := [.writeReg 0x38 32 .last] }
     (10 : Word) = hostValue .last s ∧ s.inbox = .writeReg (0x20 + 4 * (6 : Fin 8).val) 32 .last :: []) ∧
    (let s := { issued 0x02 [] 0 [] with inbox := [.writeReg 0x20 32 (.lit 5)] }
     s.latch.isSome = true ∧ s.inbox = .writeReg (0x20 + 4 * (0 : Fin 8).val) 32 (.lit 5) :: []) ∧
    (let s := { issued 0x02 [] 0 [] with inbox := [.writeReg 0x3C 32 (.lit 5)] }
     s.latch.isSome = true ∧ s.inbox = .writeReg (0x20 + 4 * (7 : Fin 8).val) 32 (.lit 5) :: []) := by decide

theorem witness_BlockedCommandWritesAreLost :
    (let s := { State.reset with err := true, errCode := 1, inbox := [.writeReg 0x00 32 (.lit 0x0D)] }
     s.inbox = .writeReg 0x00 32 (.lit 0x0D) :: [] ∧ s.err = true ∧ (0x0D : Word) ≠ 0x0E ∧ (0x0D : Word) ≠ 0x0F) ∧
    (let s := { issued 0x02 [] 0 [] with inbox := [.writeReg 0x00 32 (.lit 0x0E)] }
     s.inbox = .writeReg 0x00 32 (.lit 0x0E) :: [] ∧ s.busy = true) := by decide

/-- The ends of the reserved range, every read-only register, and the registers read while idle. -/
theorem witness_RegisterAccesses :
    (∀ k ∈ [22, 63], 0x58 ≤ 4 * k ∧ 4 * k ≤ 0xFC ∧
      ({ State.reset with inbox := [.readReg (4 * k) 32] } : State).inbox = .readReg (4 * k) 32 :: [] ∧
      ({ State.reset with inbox := [.writeReg (4 * k) 32 .last] } : State).inbox = .writeReg (4 * k) 32 .last :: []) ∧
    (∀ off ∈ [0x04, 0x54], off ∈ [0x04, 0x08, 0x0C, 0x10, 0x14, 0x18, 0x1C, 0x40, 0x44, 0x48, 0x4C, 0x50, 0x54] ∧
      ({ State.reset with inbox := [.writeReg off 32 .last] } : State).inbox = .writeReg off 32 .last :: []) ∧
    (∀ off ∈ [0x00, 0x08, 0x0C, 0x10, 0x14, 0x18, 0x1C, 0x20 + 4 * 0, 0x20 + 4 * 7, 0x40 + 4 * 0, 0x40 + 4 * 5],
      ({ State.reset with inbox := [.readReg off 32] } : State).busy = false ∧
      ({ State.reset with inbox := [.readReg off 32] } : State).inbox = .readReg off 32 :: []) := by decide

/-- The registers of the same statement read while BUSY = 1. -/
theorem witness_RegisterAccesses_busy :
    (∀ off ∈ [0x00, 0x18, 0x1C, 0x20 + 4 * 0, 0x20 + 4 * 7],
      ({ issued 0x02 [] 0 [] with inbox := [.readReg off 32] } : State).inbox = .readReg off 32 :: []) ∧
    (∀ off ∈ [0x08, 0x54], off ∈ [0x08, 0x0C, 0x10, 0x14, 0x40, 0x44, 0x48, 0x4C, 0x50, 0x54] ∧
      ({ issued 0x02 [] 0 [] with inbox := [.readReg off 32] } : State).busy = true ∧
      ({ issued 0x02 [] 0 [] with inbox := [.readReg off 32] } : State).inbox = .readReg off 32 :: []) := by decide

theorem witness_StatusReadsItsFields :
    (let s := { State.reset with err := true, errCode := 6, cwState := .failed, inbox := [.readReg 0x04 32] }
     s.inbox = .readReg 0x04 32 :: [] ∧ s.busy = false) ∧
    (let s := { issued 0x02 [] 0 [] with inbox := [.readReg 0x04 32] }
     s.inbox = .readReg 0x04 32 :: [] ∧ s.busy = true) := by decide

/-- The edges of the register block. -/
theorem witness_MeaninglessHostAccessesAreRefused :
    (∀ a ∈ [(0x00, 32), (0xFC, 32), (0xFD, 32), (0x100, 32), (0x04, 16), (0x02, 32)],
      ({ State.reset with inbox := [.readReg a.1 a.2] } : State).inbox = .readReg a.1 a.2 :: [] ∧
      ({ State.reset with inbox := [.writeReg a.1 a.2 .last] } : State).inbox = .writeReg a.1 a.2 .last :: []) := by decide

/-- Host writes of memory on both sides of the edges of a running command's ranges, and while idle. -/
theorem witness_MeaninglessHostAccessesAreRefused_writes :
    (let s := { issued 0x02 [0x1000, 1, 4, 0x8000, 8] 0 [] with inbox := [.writeMem 0x1003 1] }
     inRange (activeSource s) (0x1003 : Word).toNat = true ∧ s.inbox = .writeMem 0x1003 1 :: []) ∧
    (let s := { issued 0x02 [0x1000, 1, 4, 0x8000, 8] 0 [] with inbox := [.writeMem 0x8007 1] }
     inRange (activeDest s) (0x8007 : Word).toNat = true ∧ s.inbox = .writeMem 0x8007 1 :: []) ∧
    (let s := { State.reset with inbox := [.writeMem 0xFFFFFFFF 1] }
     s.busy = false ∧ s.inbox = .writeMem 0xFFFFFFFF 1 :: []) := by decide

theorem witness_MeaninglessHostAccessesAreRefused_outside :
    (let s := { issued 0x02 [0x1000, 1, 4, 0x8000, 8] 0 [] with inbox := [.writeMem 0x1004 1] }
     s.busy = true ∧ s.inbox = .writeMem 0x1004 1 :: [] ∧ activeSource s = (0x1000, 4) ∧ activeDest s = (0x8000, 8)) ∧
    (∀ a ∈ [(0x0FFF : Word), 0x1004, 0x7FFF, 0x8008],
      inRange (0x1000, 4) a.toNat = false ∧ inRange (0x8000, 8) a.toNat = false) :=
  ⟨by decide, by simp [inRange]⟩

theorem witness_MeaninglessHostAccessesAreRefused_reads :
    (let s := { State.reset with inbox := [.readMem 0xFFFFFFFF] }
     s.busy = false ∧ s.inbox = .readMem 0xFFFFFFFF :: []) ∧
    (let s := { issued 0x02 [0x1000, 1, 4, 0x8000, 8] 0 [] with inbox := [.readMem 0x8008] }
     s.busy = true ∧ inRange (activeDest s) (0x8008 : Word).toNat = false) ∧
    (let s := { issued 0x02 [0x1000, 1, 4, 0x8000, 8] 0 [] with inbox := [.readMem 0x8007] }
     inRange (activeDest s) (0x8007 : Word).toNat = true ∧ s.inbox = .readMem 0x8007 :: []) := by decide

theorem witness_ClrerrClearsTheReport : decode (.command 0x0000000E) = .ok .clrerr := by decide
/-- The word, and a host that writes ARG0 or ARG7 while SRST is BUSY. -/
theorem witness_SrstResetsTheBlock :
    decode (.command 0x0000000F) = .ok .srst ∧
    (∀ k ∈ [(0 : Fin 8), 7],
      let s := { State.reset with
        inbox := [.writeReg 0x00 32 (.lit 0x0F), .writeReg (0x20 + 4 * k.val) 32 (.lit 5), .engine] }
      s.busy = false ∧
      s.inbox = .writeReg 0x00 32 (.lit 0x0F) :: .writeReg (0x20 + 4 * k.val) 32 (.lit 5) :: .engine :: []) := by decide

/-- 95 Z1 and Z2: an idle block that holds an error, and one that runs a command. -/
theorem witness_ResetInputResetsTheBlock :
    (let s := { State.reset with err := true, errCode := 3, cwState := .failed, inbox := [.resetInput] }
     s.inbox = .resetInput :: [] ∧ s.busy = false) ∧
    (let s := { issued 0x04 [0x1000, 2, 0x8000, 16] 0x1000 pixels with inbox := [.resetInput] }
     s.inbox = .resetInput :: [] ∧ s.busy = true ∧ activeDest s = (0x8000, 16)) := by decide

/-- 95 E13, E14, E2, E3, E9: the ends of the four ranges. -/
theorem witness_EmitRecordChoosesTheForm :
    emitRecord 0 7 = .error (.lenZero, 0) ∧ emitRecord 32768 7 = .error (.lenTooLong, 32768) ∧
    emitRecord 1 0 = .ok [0x01, 0x00] ∧ emitRecord 127 0xAB = .ok [0x7F, 0xAB] ∧
    emitRecord 128 0xAB = .ok [0x80, 0x80, 0xAB] ∧ emitRecord 32767 0 = .ok [0xFF, 0xFF, 0x00] := by decide

theorem witness_EncoderKeepsItsInvariant :
    (∃ t, exec .encch (issued 0x02 [0x1000, 2, 4, 0x8000, 8] 0 []) = .next t ∧ t.err = true ∧
      (issued 0x02 [0x1000, 2, 4, 0x8000, 8] 0 []).err = false) ∧
    (∃ t, exec .cmpfr (issued 0x04 [0x1000, 2, 0x8000, 15] 0 []) = .next t ∧ t.err = true ∧
      (issued 0x04 [0x1000, 2, 0x8000, 15] 0 []).err = false) :=
  ⟨⟨_, rfl, by decide⟩, ⟨_, rfl, by decide⟩⟩

theorem witness_EncodeSeqClosedForm :
    1 ≤ 1 ∧ ([0x08] : List Byte).head? ≠ some 0x07 ∧ encodeSeq [0x08] = .ok [0x01, 0x08] ∧
    ([] : List Byte).head? ≠ some 0x07 ∧ encodeSeq [] = .ok [] := by decide

/-- 95 C12 and C13: with and without neighbours that are equal. -/
theorem witness_EncodeSeqOutputBound :
    encodeSeq [1, 2, 1, 2] = .ok [1, 1, 1, 2, 1, 1, 1, 2] ∧ encodeSeq [1, 1, 2, 2, 2, 3] = .ok [2, 1, 3, 2, 1, 3] := by
  decide

/-- 95 E1, E11, E12 and the ends of the two forms. -/
theorem witness_EmitrecWritesOneRecord :
    ∀ args ∈ [[1, 0, 0x8000, 3], [127, 7, 0x8000, 2], [128, 7, 0x8000, 3], [32767, 7, 0xFFFFFFFD, 3]],
      let s := issued 0x01 args 0 []
      1 ≤ s.arg 0 ∧ s.arg 0 ≤ 32767 ∧ (if s.arg 0 ≤ 127 then 2 else 3) ≤ s.arg 3 ∧ s.arg 2 + s.arg 3 ≤ 2 ^ 32 := by
  decide

/-- 95 E13 to E20. -/
theorem witness_EmitrecReportsItsFirstError :
    (issued 0x01 [0, 7, 0x8000, 0] 0 []).arg 0 = 0 ∧ 32767 < (issued 0x01 [32768, 7, 0x8000, 3] 0 []).arg 0 ∧
    (∀ args ∈ [[1, 7, 0x8000, 1], [127, 7, 0x8000, 1], [128, 7, 0x8000, 2], [32767, 7, 0x8000, 2]],
      let s := issued 0x01 args 0 []
      1 ≤ s.arg 0 ∧ s.arg 0 ≤ 32767 ∧ s.arg 3 < (if s.arg 0 ≤ 127 then 2 else 3)) ∧
    (∀ args ∈ [[1, 7, 0xFFFFFFFF, 2], [32767, 7, 0xFFFFFFFE, 3]],
      let s := issued 0x01 args 0 []
      1 ≤ s.arg 0 ∧ s.arg 0 ≤ 32767 ∧ (if s.arg 0 ≤ 127 then 2 else 3) ≤ s.arg 3 ∧ 2 ^ 32 < s.arg 2 + s.arg 3) := by
  decide

/-- 95 C20, C21, C22, and the largest count. -/
theorem witness_EncchEncodesItsView :
    ∀ args ∈ [[0x1000, 1, 4, 0x1004, 8], [0x1000, 1, 0, 0x1000, 0], [0xFFFFFFFC, 4, 1, 0x8000, 2],
        [0, 1, 536870911, 0x20000000, 1073741822]],
      let s := issued 0x02 args 0 []
      (s.arg 1 = 1 ∨ s.arg 1 = 4) ∧ s.arg 2 ≤ s.params.maxPixels ∧ 2 * s.arg 2 ≤ s.arg 4 ∧
      (s.arg 2 = 0 ∨ s.arg 0 + s.arg 1 * (s.arg 2 - 1) + 1 ≤ 2 ^ 32) ∧ s.arg 3 + s.arg 4 ≤ 2 ^ 32 ∧
      (s.arg 2 = 0 ∨ s.arg 4 = 0 ∨ s.arg 3 + s.arg 4 ≤ s.arg 0 ∨ s.arg 0 + s.arg 1 * (s.arg 2 - 1) + 1 ≤ s.arg 3) := by
  decide

/-- 95 C23, C26, C27, C29, C30, C31, each with its span. -/
theorem witness_EncchReportsItsFirstError :
    (let s := issued 0x02 [0x1000, 2, 4, 0x8000, 8] 0 []; ¬ (s.arg 1 = 1 ∨ s.arg 1 = 4)) ∧
    (let s := issued 0x02 [0x1000, 1, 0x20000000, 0x8000, 0x40000000] 0 []
     (s.arg 1 = 1 ∨ s.arg 1 = 4) ∧ s.params.maxPixels < s.arg 2) ∧
    (let s := issued 0x02 [0x1000, 1, 3, 0x8000, 5] 0 []
     (s.arg 1 = 1 ∨ s.arg 1 = 4) ∧ s.arg 2 ≤ s.params.maxPixels ∧ s.arg 4 < 2 * s.arg 2) ∧
    (let s := issued 0x02 [0xFFFFFFFC, 4, 2, 0x8000, 4] 0 []
     (s.arg 1 = 1 ∨ s.arg 1 = 4) ∧ s.arg 2 ≤ s.params.maxPixels ∧ 2 * s.arg 2 ≤ s.arg 4 ∧
      5 = (if s.arg 2 = 0 then 0 else s.arg 1 * (s.arg 2 - 1) + 1) ∧ 2 ^ 32 < s.arg 0 + 5) ∧
    (let s := issued 0x02 [0x1000, 1, 2, 0xFFFFFFFD, 4] 0 []
     (s.arg 1 = 1 ∨ s.arg 1 = 4) ∧ s.arg 2 ≤ s.params.maxPixels ∧ 2 * s.arg 2 ≤ s.arg 4 ∧
      2 = (if s.arg 2 = 0 then 0 else s.arg 1 * (s.arg 2 - 1) + 1) ∧ s.arg 0 + 2 ≤ 2 ^ 32 ∧
      2 ^ 32 < s.arg 3 + s.arg 4) ∧
    (let s := issued 0x02 [0x1000, 1, 4, 0x1003, 8] 0 []
     (s.arg 1 = 1 ∨ s.arg 1 = 4) ∧ s.arg 2 ≤ s.params.maxPixels ∧ 2 * s.arg 2 ≤ s.arg 4 ∧
      4 = (if s.arg 2 = 0 then 0 else s.arg 1 * (s.arg 2 - 1) + 1) ∧ s.arg 0 + 4 ≤ 2 ^ 32 ∧
      s.arg 3 + s.arg 4 ≤ 2 ^ 32 ∧ 0 < 4 ∧ 0 < s.arg 4 ∧ s.arg 0 < s.arg 3 + s.arg 4 ∧ s.arg 3 < s.arg 0 + 4) := by
  decide

theorem witness_RecordsFillTheirSlots :
    (∀ len ∈ ([1, 127] : List (BitVec 7)),
      let s := decoding 0x03 [0x2000, 4, 127, 0x9000, 1] ⟨0, 127, 0⟩ 0 []
      len ≠ 0 ∧ len.toNat ≤ s.dec.owed ∧ 0 < (decodeJob s).stride) ∧
    (∀ x ∈ [((0 : BitVec 7), (128 : Byte), 128, true), (127, 255, 32767, true), (0, 1, 1, false), (0, 127, 127, false)],
      let s := { decoding 0x05 [0x2000, 4, 32767, 0x9000] ⟨0, 32767, 0⟩ 0 [] with
        params := { params with decRejectNoncanonical := x.2.2.2 } }
      x.2.2.1 = 256 * x.1.toNat + x.2.1.toNat ∧ 1 ≤ x.2.2.1 ∧
      (128 ≤ x.2.2.1 ∨ s.params.decRejectNoncanonical = false) ∧ x.2.2.1 ≤ s.dec.owed ∧ 0 < (decodeJob s).stride) := by
  decide

theorem witness_IllegalRecordsWriteNothing :
    (∀ lo ∈ ([1, 127] : List Byte),
      (decoding 0x03 [] ⟨0, 1, 0⟩ 0 []).params.decRejectNoncanonical = true ∧ 1 ≤ lo.toNat ∧ lo.toNat ≤ 127) ∧
    (decoding 0x03 [] ⟨0, 1, 0⟩ 0 []).dec.owed < (2 : BitVec 7).toNat ∧
    (decoding 0x03 [] ⟨0, 127, 0⟩ 0 []).dec.owed < 256 * (0 : BitVec 7).toNat + (128 : Byte).toNat ∧
    (128 ≤ 256 * (0 : BitVec 7).toNat + (128 : Byte).toNat ∨
      (decoding 0x03 [] ⟨0, 127, 0⟩ 0 []).params.decRejectNoncanonical = false) := by decide

/-- 95 D5 and D8: bytes after the channel, and a channel of no samples. -/
theorem witness_DecchDecodesItsRecords :
    (let s := issued 0x03 [0x2000, 4, 2, 0x9000, 1] 0x2000 [0x02, 0x0A, 0x02, 0x14]
     let rs : List Instr := [.recShort 2 0x0A]
     firstError (decchChecks s.params.maxPixels s.arg) = none ∧
      rs.all (legalRecord s.params.decRejectNoncanonical) = true ∧ (samplesOf rs).length = s.arg 2 ∧
      s.arg 1 = (streamOf rs ++ [0x02, 0x14]).length ∧ HoldsAt s.mem (s.arg 0) (streamOf rs ++ [0x02, 0x14])) ∧
    (let s := issued 0x03 [0x2000, 2, 0, 0x9000, 4] 0x2000 [0x07, 0x07]
     let rs : List Instr := []
     firstError (decchChecks s.params.maxPixels s.arg) = none ∧
      rs.all (legalRecord s.params.decRejectNoncanonical) = true ∧ (samplesOf rs).length = s.arg 2 ∧
      s.arg 1 = (streamOf rs ++ [0x07, 0x07]).length ∧ HoldsAt s.mem (s.arg 0) (streamOf rs ++ [0x07, 0x07])) := by decide

/-- 95 D12, D16, D21, a non-canonical record after the first, and D25. -/
theorem witness_DecchStopsAtTheFailingRecord :
    (∀ x ∈ [(([] : List Byte), FormatSub.exhausted), ([0x81, 0x2C], .truncated), ([0x00, 0x07], .zeroLength),
        ([0x80, 0x05, 0x07], .nonCanonical)],
      let s := issued 0x03 [0x2000, 2 + x.1.length, 302, 0x9000, 1] 0x2000 ([0x02, 0x0A] ++ x.1)
      let rs : List Instr := [.recShort 2 0x0A]
      firstError (decchChecks s.params.maxPixels s.arg) = none ∧
      rs.all (legalRecord s.params.decRejectNoncanonical) = true ∧ (samplesOf rs).length < s.arg 2 ∧
      s.arg 1 = (streamOf rs ++ x.1).length ∧ HoldsAt s.mem (s.arg 0) (streamOf rs ++ x.1) ∧
      decodeRecord s.params.decRejectNoncanonical x.1 = .error x.2) ∧
    (let s := issued 0x03 [0x2000, 4, 3, 0x9000, 1] 0x2000 [0x02, 0x0A, 0x02, 0x14]
     let rs : List Instr := [.recShort 2 0x0A]
     firstError (decchChecks s.params.maxPixels s.arg) = none ∧
      rs.all (legalRecord s.params.decRejectNoncanonical) = true ∧ (samplesOf rs).length < s.arg 2 ∧
      s.arg 1 = (streamOf rs ++ [0x02, 0x14]).length ∧ HoldsAt s.mem (s.arg 0) (streamOf rs ++ [0x02, 0x14]) ∧
      decodeRecord s.params.decRejectNoncanonical [0x02, 0x14] = .ok ⟨2, 0x14, 2⟩ ∧
      s.arg 2 - (samplesOf rs).length < (⟨2, 0x14, 2⟩ : Record).len) := by decide

/-- 95 D27 to D31. -/
theorem witness_DecchReportsItsFirstArgumentError :
    (let s := issued 0x03 [0x2000, 2, 2, 0x9000, 3] 0 []; ¬ (s.arg 4 = 1 ∨ s.arg 4 = 4)) ∧
    (let s := issued 0x03 [0x2000, 2, 0x20000000, 0x9000, 1] 0 []
     (s.arg 4 = 1 ∨ s.arg 4 = 4) ∧ s.params.maxPixels < s.arg 2) ∧
    (let s := issued 0x03 [0xFFFFFFFF, 2, 2, 0x9000, 1] 0 []
     (s.arg 4 = 1 ∨ s.arg 4 = 4) ∧ s.arg 2 ≤ s.params.maxPixels ∧ 2 ^ 32 < s.arg 0 + s.arg 1) ∧
    (let s := issued 0x03 [0x2000, 2, 2, 0xFFFFFFFF, 1] 0 []
     (s.arg 4 = 1 ∨ s.arg 4 = 4) ∧ s.arg 2 ≤ s.params.maxPixels ∧ s.arg 0 + s.arg 1 ≤ 2 ^ 32 ∧
      2 = (if s.arg 2 = 0 then 0 else s.arg 4 * (s.arg 2 - 1) + 1) ∧ 2 ^ 32 < s.arg 3 + 2) ∧
    (let s := issued 0x03 [0x2000, 4, 2, 0x2003, 1] 0 []
     (s.arg 4 = 1 ∨ s.arg 4 = 4) ∧ s.arg 2 ≤ s.params.maxPixels ∧ s.arg 0 + s.arg 1 ≤ 2 ^ 32 ∧
      2 = (if s.arg 2 = 0 then 0 else s.arg 4 * (s.arg 2 - 1) + 1) ∧ s.arg 3 + 2 ≤ 2 ^ 32 ∧ 0 < s.arg 1 ∧ 0 < 2 ∧
      s.arg 0 < s.arg 3 + 2 ∧ s.arg 3 < s.arg 0 + s.arg 1) := by decide

/-- 95 D13 to D15, D19, D20, D22, D23 and the ends of both forms. -/
theorem witness_DecodeRecordReadsLengthValueWidth :
    128 ≤ (0x80 : Byte).toNat ∧ (0x00 : Byte).toNat = 0 ∧
    (∀ b ∈ ([0x01, 0x7F] : List Byte), 1 ≤ b.toNat ∧ b.toNat ≤ 127) ∧
    0 = 256 * ((0x80 : Byte).toNat - 128) + (0x00 : Byte).toNat ∧
    (∀ n ∈ [1, 127, 128], n = 256 * ((0x80 : Byte).toNat - 128) + (BitVec.ofNat 8 n).toNat) ∧
    32767 = 256 * ((0xFF : Byte).toNat - 128) + (0xFF : Byte).toNat := by decide

/-- 95 C13 with two bytes after the encoding. -/
theorem witness_DecchInvertsTheEncoder :
    let s := issued 0x03 [0x2000, 8, 6, 0x9000, 1] 0x2000 [2, 1, 3, 2, 1, 3, 7, 7]
    firstError (decchChecks s.params.maxPixels s.arg) = none ∧ encodeSeq [1, 1, 2, 2, 2, 3] = .ok [2, 1, 3, 2, 1, 3] ∧
    ([1, 1, 2, 2, 2, 3] : List Byte).length = s.arg 2 ∧ s.arg 1 = ([2, 1, 3, 2, 1, 3] ++ [7, 7] : List Byte).length ∧
    HoldsAt s.mem (s.arg 0) ([2, 1, 3, 2, 1, 3] ++ [7, 7]) := by decide

/-- The records of 95 C13, and every kind of cut of them: empty, inside and at the end of the first record, and by one byte. -/
theorem witness_CutEncodingsAreTruncated :
    encodeSeq [1, 1, 2, 2, 2, 3] = .ok [2, 1, 3, 2, 1, 3] ∧
    (let rs := [Instr.recShort 2 1, .recShort 3 2, .recShort 1 3]
     (∀ rej ∈ [true, false], rs.all (legalRecord rej) = true) ∧ streamOf rs = [2, 1, 3, 2, 1, 3] ∧
      (∀ cut ∈ [0, 1, 2, 5], cut < (streamOf rs).length ∧ cut < 6) ∧ 5 + 1 = (streamOf rs).length) := by decide

theorem witness_DecchTouchesOnlyItsSlots :
    (∃ t, exec .decch (issued 0x03 [0x2000, 4, 2, 0x9003, 4] 0x2000 [1, 0x28, 1, 0x29]) = .next t ∧
      t.res[0] ≠ (issued 0x03 [0x2000, 4, 2, 0x9003, 4] 0x2000 [1, 0x28, 1, 0x29]).res[0]) ∧
    (∃ t, exec .decch (issued 0x03 [0x2000, 2, 2, 0x9000, 3] 0 []) = .next t ∧
      (issued 0x03 [0x2000, 2, 2, 0x9000, 3] 0 []).err = false ∧ t.err = true ∧ t.errCode = 6) :=
  ⟨⟨_, rfl, by decide⟩, ⟨_, rfl, by decide⟩⟩

/-- 95 F1, F12, and a destination right after and right before the pixels. -/
theorem witness_CmpfrCompressesTheFrame :
    ∀ args ∈ [[0x1000, 0, 0x1000, 0], [0xFFFFFFF8, 2, 0x8000, 16], [0x1000, 2, 0x1008, 16], [0x1000, 2, 0x0FF0, 16]],
      let s := issued 0x04 args 0 []
      s.arg 1 ≤ s.params.maxPixels ∧ 8 * s.arg 1 ≤ s.arg 3 ∧ s.arg 0 + 4 * s.arg 1 ≤ 2 ^ 32 ∧
      s.arg 2 + s.arg 3 ≤ 2 ^ 32 ∧
      (s.arg 1 = 0 ∨ s.arg 0 + 4 * s.arg 1 ≤ s.arg 2 ∨ s.arg 2 + s.arg 3 ≤ s.arg 0) := by decide

theorem witness_CmpfrPayloadBound :
    (issued 0x04 [0x1000, 2, 0x8000, 16] 0x1000 pixels).params.fits ∧
    firstError (cmpfrChecks (issued 0x04 [0x1000, 2, 0x8000, 16] 0x1000 pixels).params.maxPixels
      (issued 0x04 [0x1000, 2, 0x8000, 16] 0x1000 pixels).arg) = none ∧
    ∃ t, exec .cmpfr (issued 0x04 [0x1000, 2, 0x8000, 16] 0x1000 pixels) = .next t :=
  ⟨by decide, by decide, ⟨_, rfl⟩⟩

/-- 95 F9, F10, F11, F13, F14. -/
theorem witness_CmpfrReportsItsFirstError :
    (let s := issued 0x04 [0x1000, 0x20000000, 0x8000, 0] 0 []; s.params.maxPixels < s.arg 1) ∧
    (let s := issued 0x04 [0x1000, 2, 0x8000, 15] 0 []; s.arg 1 ≤ s.params.maxPixels ∧ s.arg 3 < 8 * s.arg 1) ∧
    (let s := issued 0x04 [0xFFFFFFF9, 2, 0x8000, 16] 0 []
     s.arg 1 ≤ s.params.maxPixels ∧ 8 * s.arg 1 ≤ s.arg 3 ∧ 2 ^ 32 < s.arg 0 + 4 * s.arg 1) ∧
    (let s := issued 0x04 [0x1000, 1, 0xFFFFFFF8, 9] 0 []
     s.arg 1 ≤ s.params.maxPixels ∧ 8 * s.arg 1 ≤ s.arg 3 ∧ s.arg 0 + 4 * s.arg 1 ≤ 2 ^ 32 ∧
      2 ^ 32 < s.arg 2 + s.arg 3) ∧
    (let s := issued 0x04 [0x1000, 2, 0x1007, 16] 0 []
     s.arg 1 ≤ s.params.maxPixels ∧ 8 * s.arg 1 ≤ s.arg 3 ∧ s.arg 0 + 4 * s.arg 1 ≤ 2 ^ 32 ∧
      s.arg 2 + s.arg 3 ≤ 2 ^ 32 ∧ 0 < s.arg 1 ∧ s.arg 0 < s.arg 2 + s.arg 3 ∧ s.arg 2 < s.arg 0 + 4 * s.arg 1) := by
  decide

/-- The record lists of the payload of 95 S6. -/
def records : Fin 4 → List Instr := fun k =>
  [[Instr.recShort 2 0x0A], [Instr.recShort 2 0x14], [Instr.recShort 2 0x1E],
    [Instr.recShort 1 0x28, Instr.recShort 1 0x29]].getD k.val []

theorem witness_DcmfrDecodesFourChannels :
    let s := issued 0x05 [0x2000, 10, 2, 0x9000] 0x2000 payload
    firstError (dcmfrChecks s.params.maxPixels s.arg) = none ∧
    (∀ k, (records k).all (legalRecord s.params.decRejectNoncanonical) = true) ∧
    (∀ k, (samplesOf (records k)).length = s.arg 2) ∧
    s.arg 1 = (streamOf (records 0) ++ streamOf (records 1) ++ streamOf (records 2) ++ streamOf (records 3)).length ∧
    HoldsAt s.mem (s.arg 0)
      (streamOf (records 0) ++ streamOf (records 1) ++ streamOf (records 2) ++ streamOf (records 3)) := by decide

/-- DCMFR on the payload of 95 S6 with channel 0 or channel 3 failing at its second record. -/
theorem witness_DcmfrReportsFormatErrors_channel :
    (let rs : Fin 4 → List Instr := fun _ => [.recShort 1 0x0A]
     let s := issued 0x05 [0x2000, 4, 2, 0x9000] 0x2000 [0x01, 0x0A, 0x00, 0x0A]
     firstError (dcmfrChecks s.params.maxPixels s.arg) = none ∧
      (∀ j ≤ (0 : Fin 4), (rs j).all (legalRecord s.params.decRejectNoncanonical) = true) ∧
      (∀ j < (0 : Fin 4), (samplesOf (rs j)).length = s.arg 2) ∧ (samplesOf (rs 0)).length < s.arg 2 ∧
      [0x01, 0x0A] = ((List.finRange 4).take ((0 : Fin 4).val + 1)).flatMap (fun j => streamOf (rs j)) ∧
      s.arg 1 = ([0x01, 0x0A] ++ [0x00, 0x0A] : List Byte).length ∧
      HoldsAt s.mem (s.arg 0) ([0x01, 0x0A] ++ [0x00, 0x0A]) ∧
      decodeRecord s.params.decRejectNoncanonical [0x00, 0x0A] = .error .zeroLength) ∧
    (let rs : Fin 4 → List Instr := fun k => if k = 3 then [.recShort 1 0x28] else records k
     let s := issued 0x05 [0x2000, 10, 2, 0x9000] 0x2000 (payload.take 8 ++ [0x02, 0x29])
     firstError (dcmfrChecks s.params.maxPixels s.arg) = none ∧
      (∀ j ≤ (3 : Fin 4), (rs j).all (legalRecord s.params.decRejectNoncanonical) = true) ∧
      (∀ j < (3 : Fin 4), (samplesOf (rs j)).length = s.arg 2) ∧ (samplesOf (rs 3)).length < s.arg 2 ∧
      payload.take 8 = ((List.finRange 4).take ((3 : Fin 4).val + 1)).flatMap (fun j => streamOf (rs j)) ∧
      s.arg 1 = (payload.take 8 ++ [0x02, 0x29]).length ∧
      HoldsAt s.mem (s.arg 0) (payload.take 8 ++ [0x02, 0x29]) ∧
      decodeRecord s.params.decRejectNoncanonical [0x02, 0x29] = .ok ⟨2, 0x29, 2⟩ ∧
      s.arg 2 - (samplesOf (rs 3)).length < 2) := by decide

/-- The other failing records of a channel: none left, one cut, and a long one that is not canonical. -/
theorem witness_DcmfrReportsFormatErrors_records :
    decodeRecord true [] = .error .exhausted ∧ decodeRecord true [0x01] = .error .truncated ∧
    decodeRecord true [0x80, 0x02, 0x0A] = .error .nonCanonical := by decide

/-- 95 G7. -/
theorem witness_DcmfrReportsFormatErrors_trailing :
    let s := issued 0x05 [0x2000, 11, 2, 0x9000] 0x2000 (payload ++ [0x00])
    firstError (dcmfrChecks s.params.maxPixels s.arg) = none ∧
    (∀ k, (records k).all (legalRecord s.params.decRejectNoncanonical) = true) ∧
    (∀ k, (samplesOf (records k)).length = s.arg 2) ∧ ([0x00] : List Byte) ≠ [] ∧
    s.arg 1 = (streamOf (records 0) ++ streamOf (records 1) ++ streamOf (records 2) ++ streamOf (records 3) ++ [0]).length ∧
    HoldsAt s.mem (s.arg 0)
      (streamOf (records 0) ++ streamOf (records 1) ++ streamOf (records 2) ++ streamOf (records 3) ++ [0]) := by decide

/-- 95 G13 to G16. -/
theorem witness_DcmfrReportsItsFirstArgumentError :
    (let s := issued 0x05 [0x2000, 10, 0x20000000, 0x9000] 0 []; s.params.maxPixels < s.arg 2) ∧
    (let s := issued 0x05 [0xFFFFFFFF, 2, 1, 0x9000] 0 []
     s.arg 2 ≤ s.params.maxPixels ∧ 2 ^ 32 < s.arg 0 + s.arg 1) ∧
    (let s := issued 0x05 [0x2000, 10, 2, 0xFFFFFFF9] 0 []
     s.arg 2 ≤ s.params.maxPixels ∧ s.arg 0 + s.arg 1 ≤ 2 ^ 32 ∧ 2 ^ 32 < s.arg 3 + 4 * s.arg 2) ∧
    (let s := issued 0x05 [0x2000, 10, 2, 0x2009] 0 []
     s.arg 2 ≤ s.params.maxPixels ∧ s.arg 0 + s.arg 1 ≤ 2 ^ 32 ∧ s.arg 3 + 4 * s.arg 2 ≤ 2 ^ 32 ∧ 0 < s.arg 1 ∧
      0 < s.arg 2 ∧ s.arg 0 < s.arg 3 + 4 * s.arg 2 ∧ s.arg 3 < s.arg 0 + s.arg 1) := by decide

/-- The four encodings of the pixels of 95 S6. -/
def encodings : Fin 4 → List Byte := fun k =>
  [[0x02, 0x0A], [0x02, 0x14], [0x02, 0x1E], [0x01, 0x28, 0x01, 0x29]].getD k.val []

theorem witness_DcmfrInvertsTheCompressor :
    let s := issued 0x05 [0x2000, 10, 2, 0x9000] 0x2000 payload
    firstError (dcmfrChecks s.params.maxPixels s.arg) = none ∧ pixels.length = 4 * s.arg 2 ∧
    (∀ k : Fin 4, encodeSeq ((List.range (s.arg 2)).map fun i => pixels.getD (4 * i + k.val) 0) = .ok (encodings k)) ∧
    s.arg 1 = (encodings 0 ++ encodings 1 ++ encodings 2 ++ encodings 3).length ∧
    HoldsAt s.mem (s.arg 0) (encodings 0 ++ encodings 1 ++ encodings 2 ++ encodings 3) := by decide

/-- 95 G8. -/
theorem witness_CutFramesAreTruncated :
    let s := issued 0x05 [0x2000, 9, 2, 0x9000] 0x2000 (payload.take 9)
    firstError (dcmfrChecks s.params.maxPixels s.arg) = none ∧ pixels.length = 4 * s.arg 2 ∧ 1 ≤ s.arg 2 ∧
    (∀ k : Fin 4, encodeSeq ((List.range (s.arg 2)).map fun i => pixels.getD (4 * i + k.val) 0) = .ok (encodings k)) ∧
    s.arg 1 + 1 = (encodings 0 ++ encodings 1 ++ encodings 2 ++ encodings 3).length ∧
    HoldsAt s.mem (s.arg 0) ((encodings 0 ++ encodings 1 ++ encodings 2 ++ encodings 3).take (s.arg 1)) := by decide

theorem witness_WrghWritesTheGlobalHeader :
    (accepting 24 (issued 0x06 [2, 1, 12, 1] 0 [])).cwState = .uninit ∧
      AcceptsNext (accepting 24 (issued 0x06 [2, 1, 12, 1] 0 [])) 24 :=
  ⟨by decide, [], by decide⟩

/-- 95 H6 with a payload that ends at 2^32, and 95 H5. -/
theorem witness_WrfrWritesTheFrame :
    (let s := accepting 28 { issued 0x07 [2, 1, 0, 0, 0, 0xFFFFFFFF, 1] 0 [] with cwState := .hdr }
     (s.cwState = .hdr ∨ s.cwState = .frame) ∧ s.arg 5 + s.arg 6 ≤ 2 ^ 32 ∧ 3 = (4 - s.arg 6 % 4) % 4 ∧
      AcceptsNext s (24 + s.arg 6 + 3)) ∧
    (let s := accepting 24 { issued 0x07 [2, 1, 0, 0, 0, 0x2000, 0] 0 [] with cwState := .frame }
     (s.cwState = .hdr ∨ s.cwState = .frame) ∧ s.arg 5 + s.arg 6 ≤ 2 ^ 32 ∧ 0 = (4 - s.arg 6 % 4) % 4 ∧
      AcceptsNext s (24 + s.arg 6 + 0)) :=
  ⟨⟨by decide, by decide, by decide, [], by decide⟩, ⟨by decide, by decide, by decide, [], by decide⟩⟩

/-- The first and the last byte of a header and of the frame of 95 H5. -/
theorem witness_SinkRejectionFailsTheContainer :
    (∀ k ∈ [0, 23],
      let s := { issued 0x06 [2, 1, 12, 1] 0 [] with sinkPlan := List.replicate k SinkAnswer.ok ++ [SinkAnswer.fail, .ok] }
      s.sinkPlan = List.replicate k SinkAnswer.ok ++ SinkAnswer.fail :: [.ok] ∧ s.cwState = .uninit ∧ k < 24) ∧
    (∀ k ∈ [0, 35],
      let s := { issued 0x07 [2, 1, 0, 0, 0, 0x2000, 10] 0 [] with
        sinkPlan := List.replicate k SinkAnswer.ok ++ [SinkAnswer.fail], cwState := .frame }
      s.sinkPlan = List.replicate k SinkAnswer.ok ++ SinkAnswer.fail :: [] ∧ (s.cwState = .hdr ∨ s.cwState = .frame) ∧
      s.arg 5 + s.arg 6 ≤ 2 ^ 32 ∧ k < 24 + s.arg 6 + pad (s.arg 6)) := by decide

theorem witness_OnlyAnUnansweredSinkStops :
    (∀ k ∈ [0, 23],
      let s := { issued 0x06 [2, 1, 12, 1] 0 [] with sinkPlan := List.replicate k SinkAnswer.ok ++ [SinkAnswer.never] }
      s.sinkPlan = List.replicate k SinkAnswer.ok ++ SinkAnswer.never :: [] ∧ s.cwState = .uninit ∧ k < 24) ∧
    (∀ k ∈ [0, 35],
      let s := { issued 0x07 [2, 1, 0, 0, 0, 0x2000, 10] 0 [] with
        sinkPlan := List.replicate k SinkAnswer.ok ++ [SinkAnswer.never], cwState := .hdr }
      s.sinkPlan = List.replicate k SinkAnswer.ok ++ SinkAnswer.never :: [] ∧ (s.cwState = .hdr ∨ s.cwState = .frame) ∧
      s.arg 5 + s.arg 6 ≤ 2 ^ 32 ∧ k < 24 + s.arg 6 + pad (s.arg 6)) ∧
    SinkAnswer.never ∉ (accepting 3 State.reset).sinkPlan ∧ Instr.encch ≠ .wrgh ∧ Instr.encch ≠ .wrfr := by decide

/-- 95 T2 to T13 and H7. -/
theorem witness_ContainerStateTable :
    (∀ c ∈ [CwState.hdr, .frame, .closed, .failed],
      ({ issued 0x06 [] 0 [] with cwState := c } : State).cwState ≠ .uninit) ∧
    (∀ c ∈ [CwState.uninit, .closed, .failed],
      ({ issued 0x07 [] 0 [] with cwState := c } : State).cwState ≠ .hdr ∧
      ({ issued 0x07 [] 0 [] with cwState := c } : State).cwState ≠ .frame) ∧
    (let s := { issued 0x07 [2, 1, 0, 0, 0, 0xFFFFFFF0, 0x11] 0 [] with cwState := .hdr }
     (s.cwState = .hdr ∨ s.cwState = .frame) ∧ 2 ^ 32 < s.arg 5 + s.arg 6) := by decide

theorem witness_CloseClosesTheContainer :
    ∀ c ∈ [CwState.hdr, .frame],
      ({ issued 0x08 [] 0 [] with cwState := c } : State).cwState = .hdr ∨
      ({ issued 0x08 [] 0 [] with cwState := c } : State).cwState = .frame := by decide

/-- 95 H16, H11, H12, H13, H9. -/
theorem witness_PrghParsesTheGlobalHeader :
    (let s := issued 0x09 [0xFFFFFFF0, 0x11] 0 []; 2 ^ 32 < s.arg 0 + s.arg 1) ∧
    (let s := issued 0x09 [0x3000, 23] 0 []; s.arg 0 + s.arg 1 ≤ 2 ^ 32 ∧ s.arg 1 < 24) ∧
    (let s := issued 0x09 [0xFFFFFFE8, 24] 0xFFFFFFE8 header
     s.arg 0 + s.arg 1 ≤ 2 ^ 32 ∧ 24 ≤ s.arg 1 ∧ HoldsAt s.mem (s.arg 0) header) ∧
    header = le32 0xAABBCCDD ++ le32 1 ++ le32 2 ++ le32 1 ++ le32 12 ++ le32 1 ∧
    (let s := issued 0x09 [0x3000, 24] 0x3000 (header.set 0 0xDE); HoldsAt s.mem (s.arg 0) (header.set 0 0xDE)) ∧
    header.set 0 0xDE = le32 0xAABBCCDE ++ le32 1 ++ le32 2 ++ le32 1 ++ le32 12 ++ le32 1 ∧
    (let s := issued 0x09 [0x3000, 24] 0x3000 (header.set 4 2); HoldsAt s.mem (s.arg 0) (header.set 4 2)) ∧
    header.set 4 2 = le32 0xAABBCCDD ++ le32 2 ++ le32 2 ++ le32 1 ++ le32 12 ++ le32 1 ∧
    (0xAABBCCDE : Word) ≠ params.magic ∧ (0xAABBCCDD : Word) = params.magic ∧ (2 : Word) ≠ 1 := by decide

/-- 95 H19, H18. -/
theorem witness_PrfhParsesTheFrameHeader :
    (let s := issued 0x0A [0xFFFFFFF0, 0x11] 0 []; 2 ^ 32 < s.arg 0 + s.arg 1) ∧
    (let s := issued 0x0A [0x3000, 0] 0 []; s.arg 0 + s.arg 1 ≤ 2 ^ 32 ∧ s.arg 1 < 24) ∧
    (let bytes := le32 2 ++ le32 1 ++ le32 5 ++ le32 0xFFFFFFFF ++ le32 0x12345678 ++ le32 0
     let s := issued 0x0A [0x3000, 24] 0x3000 bytes
     s.arg 0 + s.arg 1 ≤ 2 ^ 32 ∧ 24 ≤ s.arg 1 ∧ HoldsAt s.mem (s.arg 0) bytes) := by decide

theorem witness_SinkIsAppendOnly :
    (∃ t, step (accepting 24 (issued 0x06 [2, 1, 12, 1] 0 [])) = .next t) ∧
      ∀ c rest, (accepting 24 (issued 0x06 [2, 1, 12, 1] 0 [])).inbox ≠ .openSink c :: rest :=
  ⟨⟨_, rfl⟩, fun _ _ h => by cases h⟩

theorem witness_CommandsKeepWhatTheyDoNotName :
    ∃ t, exec .encch (issued 0x02 [0x1000, 2, 4, 0x8000, 8] 0 []) = .next t ∧ Instr.encch ≠ .srst ∧
      (issued 0x02 [0x1000, 2, 4, 0x8000, 8] 0 []).err = false ∧ t.err = true ∧ Instr.encch ≠ .wrgh ∧
      Instr.encch ≠ .wrfr ∧ Instr.encch ≠ .close :=
  ⟨_, rfl, by decide⟩

theorem witness_EveryCommandCompletes :
    decode (.command 0x08) = .ok .close ∧ (∃ t, exec .close (issued 0x08 [] 0 []) = .next t) ∧
      (issued 0x08 [] 0 []).latchOk :=
  ⟨by decide, ⟨_, rfl⟩, by decide⟩

/-- An idle block with an error, one that runs CLRERR, and one that runs a command without an error. -/
theorem witness_ErrorReportIsSticky :
    (∀ s ∈ [({ State.reset with err := true, errCode := 6 } : State),
        { issued 0x0E [] 0 [] with err := true, errCode := 6 }],
      s.latchOk ∧ s.blockedOk ∧ s.err = true ∧ s.inbox = []) ∧
    (∃ t, step ({ issued 0x0E [] 0 [] with err := true, errCode := 6 } : State) = .next t) ∧
    (issued 0x02 [] 0 []).latchOk ∧ (issued 0x02 [] 0 []).blockedOk ∧ (∃ t, step (issued 0x02 [] 0 []) = .next t) :=
  ⟨by decide, ⟨_, rfl⟩, by decide, by decide, ⟨_, rfl⟩⟩

theorem witness_StepKeepsMemoryCanonical :
    (issued 0x01 [300, 7, 0x8000, 3] 0x7FFF [1, 2, 0, 3]).mem.wf = true ∧
      ∃ t, step (issued 0x01 [300, 7, 0x8000, 3] 0x7FFF [1, 2, 0, 3]) = .next t :=
  ⟨by decide, ⟨_, rfl⟩⟩

theorem witness_StepKeepsTheReportLegal :
    (issued 0x01 [0, 7, 0x8000, 3] 0 []).reportOk ∧ ∃ t, step (issued 0x01 [0, 7, 0x8000, 3] 0 []) = .next t :=
  ⟨by decide, ⟨_, rfl⟩⟩

theorem witness_StepKeepsLatchAndBusyTogether :
    (issued 0x01 [0, 7, 0x8000, 3] 0 []).latchOk ∧ ∃ t, step (issued 0x01 [0, 7, 0x8000, 3] 0 []) = .next t :=
  ⟨by decide, ⟨_, rfl⟩⟩

/-- A DECCH at its second record. -/
theorem witness_StepKeepsTheDecoderCounts :
    let s := decoding 0x03 [0x2000, 4, 4, 0x9000, 1] ⟨2, 2, 2⟩ 0x2000 [0x02, 0x0A, 0x02, 0x07]
    s.latchOk ∧ s.decodesOk ∧ s.decoderOk ∧ ∃ t, step s = .next t :=
  ⟨by decide, by decide, by decide, ⟨_, rfl⟩⟩

/-- An ENCCH at its third sample, with a run of two open. -/
theorem witness_StepKeepsTheEncoderCounts :
    let s := encoding 0x02 [0x1000, 1, 3, 0x8000, 6] ⟨2, 0, 2, 7⟩ 0x1000 [7, 7, 8]
    s.latchOk ∧ s.encodesOk ∧ s.encoderOk ∧ ∃ t, step s = .next t :=
  ⟨by decide, by decide, by decide, ⟨_, rfl⟩⟩

/-- The same two states list no byte outside host memory. -/
theorem witness_StepStaysInsideMemory :
    (let s := decoding 0x03 [0x2000, 4, 4, 0xFFFFFFFC, 1] ⟨2, 2, 2⟩ 0x2000 [0x02, 0x0A, 0x02, 0x07]
     s.latchOk ∧ s.decodesOk ∧ s.decoderOk ∧ s.encodesOk ∧ s.encoderOk ∧ s.mem.inSpace = true ∧ ∃ t, step s = .next t) ∧
    (let s := encoding 0x02 [0x1000, 1, 3, 0x8000, 6] ⟨2, 0, 2, 7⟩ 0x1000 [7, 7, 8]
     s.latchOk ∧ s.decodesOk ∧ s.decoderOk ∧ s.encodesOk ∧ s.encoderOk ∧ s.mem.inSpace = true ∧ ∃ t, step s = .next t) :=
  ⟨⟨by decide, by decide, by decide, by decide, by decide, by decide, ⟨_, rfl⟩⟩,
    ⟨by decide, by decide, by decide, by decide, by decide, by decide, ⟨_, rfl⟩⟩⟩

theorem witness_RecordByRecordDecodingAgrees :
    (let s := issued 0x03 [0x2000, 4, 4, 0x9000, 1] 0x2000 [0x02, 0x0A, 0x02, 0x07]
     s.busy = true ∧ s.phase = .issued ∧ s.latch.map Latch.word = some 0x03 ∧ s.inbox = []) ∧
    (let s := issued 0x05 [0x2000, 10, 2, 0x9000] 0x2000 payload
     s.busy = true ∧ s.phase = .issued ∧ s.latch.map Latch.word = some 0x05 ∧ s.inbox = []) ∧
    decode (.command 0x03) = .ok .decch ∧ decode (.command 0x05) = .ok .dcmfr := by decide

theorem witness_SampleBySampleEncodingAgrees :
    (let s := issued 0x02 [0x1000, 1, 3, 0x8000, 6] 0x1000 [7, 7, 8]
     s.busy = true ∧ s.phase = .issued ∧ s.latch.map Latch.word = some 0x02 ∧ s.inbox = []) ∧
    (let s := issued 0x04 [0x1000, 2, 0x8000, 16] 0x1000 pixels
     s.busy = true ∧ s.phase = .issued ∧ s.latch.map Latch.word = some 0x04 ∧ s.inbox = []) ∧
    decode (.command 0x02) = .ok .encch ∧ decode (.command 0x04) = .ok .cmpfr := by decide

end Sys2Proof.Tests
end

/-!
## The state (10_state)

What an instruction and a step do to the report, the latch and the internal state, said once (`exec_cases`, `Move.effect`), and
the invariants of 10_state that follow; then the register accesses and the host's accesses to memory.
-/

namespace Sys2Proof.Machine

/-! ### What a whole command keeps -/

/-- What every command but CLRERR and SRST leaves as it is until it completes: the host's side, the report, and, unless it is
a container command, the container. -/
structure Keeps (i : Instr) (s u : State) : Prop where
  host : SameHostSide s u
  report : SameReport s u
  container : i ≠ .wrgh → i ≠ .wrfr → i ≠ .close → SameContainer s u

theorem keeps_refl (i : Instr) (s : State) : Keeps i s s :=
  ⟨⟨rfl, rfl, rfl, rfl, rfl⟩, ⟨rfl, rfl, rfl, rfl⟩, fun _ _ _ => ⟨rfl, rfl, rfl, rfl, rfl⟩⟩

/-- Writing memory and drawing free values is kept apart from all of it. -/
theorem Keeps.withMem {i : Instr} {s u : State} (k : Keeps i s u) (m : Memory) (d : Nat) :
    Keeps i s { u with mem := m, draws := d } := ⟨k.host, k.report, k.container⟩

theorem Keeps.setRes {i : Instr} {s u : State} (k : Keeps i s u) (n : Fin 6) (v : Word) : Keeps i s (u.setRes n v) :=
  ⟨k.host, k.report, k.container⟩

theorem Keeps.setChannelResults {i : Instr} {s u : State} (k : Keeps i s u) (n : Nat) (ls : List Nat) :
    Keeps i s (setChannelResults n ls u) :=
  ((((k.setRes 0 _).setRes 1 _).setRes 2 _).setRes 3 _).setRes 4 _

/-- How a command other than CLRERR and SRST ends: it completes, or it makes its report and has written no RES register
(60 R335, R336). -/
inductive CommandEnds (i : Instr) (s t : State) : Prop where
  | done (u : State) (k : Keeps i s u) (h : t = complete u)
  | failed (e : BlockError) (u : State) (k : Keeps i s u) (hr : u.res = s.res) (h : t = raise e u)

theorem guarded_ends {i : Instr} {s : State} {body : State → State} (cs : List (Bool × BlockError))
    (h : CommandEnds i s (body s)) : CommandEnds i s (guarded cs body s) := by
  rcases guarded_cases cs body s with ⟨-, hg⟩ | ⟨e, -, -, hg⟩ <;> rw [hg]
  · exact h
  · exact .failed e s (keeps_refl i s) rfl rfl

/-- The end of a command that writes memory and RES0. -/
theorem written_ends (i : Instr) (s : State) (m : Memory) (v : Word) :
    CommandEnds i s (complete (({ s with mem := m }).setRes 0 v)) :=
  .done _ (((keeps_refl i s).withMem m s.draws).setRes 0 v) rfl

/-- A command that makes its report after it has written memory (60 R336). -/
theorem failed_ends (i : Instr) (s : State) (m : Memory) (e : BlockError) :
    CommandEnds i s (raise e { s with mem := m }) :=
  .failed e _ ((keeps_refl i s).withMem m s.draws) rfl rfl

theorem emitrecBody_ends (s : State) : CommandEnds .emitrec s (emitrecBody s) := by
  unfold emitrecBody
  split
  · exact failed_ends _ s s.mem _
  · exact written_ends _ s _ _

theorem encchBody_ends (s : State) : CommandEnds .encch s (encchBody s) := by
  unfold encchBody
  split
  · exact failed_ends _ s s.mem _
  · exact written_ends _ s _ _

theorem decchBody_ends (s : State) : CommandEnds .decch s (decchBody s) := by
  unfold decchBody
  split
  · exact failed_ends _ s _ _
  · exact written_ends _ s _ _

theorem cmpfrBody_ends (s : State) : CommandEnds .cmpfr s (cmpfrBody s) := by
  unfold cmpfrBody
  split
  · exact failed_ends _ s s.mem _
  · unfold finishCompress
    exact .done _ (((keeps_refl _ s).withMem _ _).setChannelResults _ _) rfl

theorem dcmfrBody_ends (s : State) : CommandEnds .dcmfr s (dcmfrBody s) := by
  unfold dcmfrBody
  split
  · exact failed_ends _ s _ _
  · exact .done _ (((keeps_refl _ s).withMem _ s.draws).setChannelResults _ _) rfl

/-- The appends of a container command, whatever the sink answers (43 R253). -/
theorem sinkThen_ends {i : Instr} {s : State} {done : State → State} (bytes : List Byte)
    (hi : i = .wrgh ∨ i = .wrfr) (hd : ∀ u, Keeps i s u → CommandEnds i s (done u)) :
    CommandEnds i s (sinkThen bytes done s) := by
  have hk : Keeps i s (sinkWrite bytes 0 s).1 := by
    obtain ⟨d, off, plan, cw, added, e⟩ := sinkWrite_frame bytes 0 s
    rw [e]
    exact ⟨⟨rfl, rfl, rfl, rfl, rfl⟩, ⟨rfl, rfl, rfl, rfl⟩, fun h1 h2 _ => (hi.elim h1 h2).elim⟩
  have hres : (sinkWrite bytes 0 s).1.res = s.res := by
    obtain ⟨d, off, plan, cw, added, e⟩ := sinkWrite_frame bytes 0 s
    rw [e]
  unfold sinkThen
  split
  · rename_i s' n h
    rw [h] at hk hres
    exact .failed _ s' hk hres rfl
  · rename_i s' h
    rw [h] at hk
    exact hd s' hk

theorem wrghBody_ends (s : State) : CommandEnds .wrgh s (wrghBody s) :=
  sinkThen_ends _ (.inl rfl) fun u k =>
    .done (({ u with cwState := .hdr }).setRes 0 24) ⟨k.host, k.report, fun h => (h rfl).elim⟩ rfl

theorem wrfrBody_ends (s : State) : CommandEnds .wrfr s (wrfrBody s) := by
  refine sinkThen_ends _ (.inr rfl) fun u k => ?_
  have k' : Keeps .wrfr s { u with cwState := .frame, frames := u.frames + 1 } :=
    ⟨k.host, k.report, fun _ h => (h rfl).elim⟩
  exact .done _ ((k'.setRes 0 _).setRes 1 _) rfl

theorem closeBody_ends (s : State) : CommandEnds .close s (closeBody s) :=
  .done { s with cwState := .closed }
    ⟨(keeps_refl .close s).host, (keeps_refl .close s).report, fun _ _ h => (h rfl).elim⟩ rfl

theorem prghBody_ends (s : State) : CommandEnds .prgh s (prghBody s) :=
  .done _ ((((((keeps_refl _ s).setRes 0 _).setRes 1 _).setRes 2 _).setRes 3 _)) rfl

theorem prfhBody_ends (s : State) : CommandEnds .prfh s (prfhBody s) :=
  .done _ ((((((((keeps_refl _ s).setRes 0 _).setRes 1 _).setRes 2 _).setRes 3 _).setRes 4 _).setRes 5 _)) rfl

/-- What executing an instruction can lead to, said once. -/
theorem exec_cases {i : Instr} {s t : State} (h : exec i s = .next t) :
    (i = .clrerr ∧ t = complete (clearError s)) ∨ (i = .srst ∧ t = srstReset s) ∨
      (opcode i = none ∧ t = runRecord (recordOf i) s) ∨ (i ≠ .clrerr ∧ i ≠ .srst ∧ CommandEnds i s t) := by
  cases i with
  | recShort len val => cases h; exact .inr (.inr (.inl ⟨rfl, rfl⟩))
  | recLong hi lo val => cases h; exact .inr (.inr (.inl ⟨rfl, rfl⟩))
  | emitrec => cases h; exact .inr (.inr (.inr ⟨nofun, nofun, guarded_ends _ (emitrecBody_ends s)⟩))
  | encch => cases h; exact .inr (.inr (.inr ⟨nofun, nofun, guarded_ends _ (encchBody_ends s)⟩))
  | decch => cases h; exact .inr (.inr (.inr ⟨nofun, nofun, guarded_ends _ (decchBody_ends s)⟩))
  | cmpfr => cases h; exact .inr (.inr (.inr ⟨nofun, nofun, guarded_ends _ (cmpfrBody_ends s)⟩))
  | dcmfr => cases h; exact .inr (.inr (.inr ⟨nofun, nofun, guarded_ends _ (dcmfrBody_ends s)⟩))
  | wrgh =>
    simp only [exec, execWrgh] at h
    split at h <;> cases h
    exact .inr (.inr (.inr ⟨nofun, nofun, guarded_ends _ (wrghBody_ends s)⟩))
  | wrfr =>
    simp only [exec, execWrfr] at h
    split at h <;> cases h
    exact .inr (.inr (.inr ⟨nofun, nofun, guarded_ends _ (wrfrBody_ends s)⟩))
  | close => cases h; exact .inr (.inr (.inr ⟨nofun, nofun, guarded_ends _ (closeBody_ends s)⟩))
  | prgh => cases h; exact .inr (.inr (.inr ⟨nofun, nofun, guarded_ends _ (prghBody_ends s)⟩))
  | prfh => cases h; exact .inr (.inr (.inr ⟨nofun, nofun, guarded_ends _ (prfhBody_ends s)⟩))
  | clrerr => cases h; exact .inl ⟨rfl, rfl⟩
  | srst => cases h; exact .inr (.inl ⟨rfl, rfl⟩)

/-! ### What one step does to the block -/

/-- BUSY = 0, an empty latch and idle internal state (10 R43, R51, R53). -/
structure Idle (t : State) : Prop where
  busy : t.busy = false
  latch : t.latch = none
  phase : t.phase = .issued
  enc : t.enc = encIdle
  dec : t.dec = decIdle
  frame : t.frame = frameIdle

theorem idle_complete (u : State) : Idle (complete u) := ⟨rfl, rfl, rfl, rfl, rfl, rfl⟩
theorem idle_raise (e : BlockError) (u : State) : Idle (raise e u) := idle_complete (report e u)
theorem idle_softReset (u : State) : Idle (softReset u) := ⟨rfl, rfl, rfl, rfl, rfl, rfl⟩
theorem idle_srstReset (u : State) : Idle (srstReset u) := ⟨rfl, rfl, rfl, rfl, rfl, rfl⟩

/-- No error and an empty report (10 R54, 44 R306). -/
abbrev ReportClear (t : State) : Prop := t.err = false ∧ t.errCode = 0 ∧ t.errInfo0 = 0 ∧ t.errInfo1 = 0

/-- A command is running, and it is not a CLRERR or SRST that is about to execute. -/
abbrev RunsOther (s : State) : Prop :=
  s.busy = true ∧ (s.phase = .issued → s.running.word ≠ 0x0E ∧ s.running.word ≠ 0x0F)

/-- One move of the engine that stays inside a codec command, with what it does to the encoder and the decoder
(10 R46 to R50). -/
inductive Advance (s t : State) : Prop where
  | beginEncode
      (hc : (s.running.word = 0x02 ∧ firstError (encchChecks s.params.maxPixels s.arg) = none) ∨
        (s.running.word = 0x04 ∧ firstError (cmpfrChecks s.params.maxPixels s.arg) = none))
      (h : t = startEncode s)
  | beginDecode
      (hc : (s.running.word = 0x03 ∧ firstError (decchChecks s.params.maxPixels s.arg) = none) ∨
        (s.running.word = 0x05 ∧ firstError (dcmfrChecks s.params.maxPixels s.arg) = none))
      (h : t = startDecode (s.arg 2) s)
  | sample (x : Byte) (r : List Byte) (n : Nat) (c : Byte) (m : Memory) (hp : s.phase = .encode)
      (hi : s.enc.i < (encodeJob s).count) (he : encoderStep s.enc.n s.enc.c x = .ok (r, n, c))
      (h : t = { s with mem := m, enc := ⟨s.enc.i + 1, s.enc.w + r.length, n, c⟩ })
  | nextEncode (r : List Byte) (m : Memory) (lens : List Nat) (hp : s.phase = .encode)
      (hr : flushRun s.enc.n s.enc.c = .ok r) (hch : s.frame.ch ≠ 3)
      (h : t = { s with
        mem := m, enc := encIdle, frame := ⟨s.frame.ch + 1, s.frame.total + (s.enc.w + r.length), lens⟩ })
  | record (r : Record) (m : Memory) (hp : s.phase = .decode)
      (hd : decodeRecord s.params.decRejectNoncanonical
        (s.mem.window (decodeJob s).src (decodeJob s).len s.dec.pos) = .ok r)
      (hl : r.len ≤ s.dec.owed) (h : t = { s with mem := m, dec := advance r s.dec })
  | nextDecode (lens : List Nat) (hp : s.phase = .decode)
      (h : t = { s with dec := ⟨s.dec.pos, s.arg 2, 0⟩, frame := ⟨s.frame.ch + 1, s.dec.pos, lens⟩ })

/-- What a move other than the reset input does to the report, the latch and the internal state. -/
inductive Effect (s t : State) : Prop where
  /-- An access of the host that issues nothing, or an idle engine turn. -/
  | beside (a : Vector Word 8) (w : Vector Bool 8) (m : Memory) (k : List Byte)
      (h : t = { s with args := a, argWritten := w, mem := m, sink := k })
  | latched (v : Word) (he : s.err = true → v = 0x0E ∨ v = 0x0F) (h : t = latchCommand v s)
  /-- CLRERR or SRST. -/
  | cleared (hb : s.busy = true) (hw : s.running.word = 0x0E ∨ s.running.word = 0x0F) (hi : Idle t)
      (hc : ReportClear t)
  | finished (hb : RunsOther s) (hi : Idle t) (hr : SameReport s t)
  | failed (hb : RunsOther s) (e : BlockError) (u : State) (h : t = raise e u)
  | advanced (hb : RunsOther s) (h : Advance s t)

/-- A command that completes with the report as it was. -/
theorem Effect.completed {s u : State} (hb : RunsOther s) (hr : SameReport s u) : Effect s (complete u) :=
  .finished hb (idle_complete u) hr

theorem CommandEnds.effect {i : Instr} {s t : State} (h : CommandEnds i s t) (hb : RunsOther s) : Effect s t := by
  cases h with
  | done u k h => exact .finished hb (h ▸ idle_complete u) (h ▸ k.report)
  | failed e u k hr h => exact .failed hb e u h

theorem decodeCommand_clrerr : decodeCommand 0x0E = .ok .clrerr := by decide
theorem decodeCommand_srst : decodeCommand 0x0F = .ok .srst := by decide

theorem runsOther_of_decode {s : State} (hb : s.busy = true) (h1 : decodeCommand s.running.word ≠ .ok .clrerr)
    (h2 : decodeCommand s.running.word ≠ .ok .srst) : RunsOther s :=
  ⟨hb, fun _ => ⟨fun h => h1 (h ▸ decodeCommand_clrerr), fun h => h2 (h ▸ decodeCommand_srst)⟩⟩

theorem runsOther_of_phase {s : State} (hb : s.busy = true) (hp : s.phase ≠ .issued) : RunsOther s :=
  ⟨hb, fun h => (hp h).elim⟩

/-- A word that decodes to a command is its opcode (30 R115). -/
theorem word_of_decodeCommand {w : Word} {i : Instr} {op : Byte} (h : decodeCommand w = .ok i)
    (ho : opcode i = some op) : w = commandWord op := by
  obtain ⟨op', h1, rfl⟩ := decodeCommand_ok h
  rw [ho] at h1
  cases h1
  rfl

/-- A latched command that runs whole. -/
theorem exec_effect {i : Instr} {s t : State} (hb : s.busy = true) (hd : decodeCommand s.running.word = .ok i)
    (h : exec i s = .next t) : Effect s t := by
  rcases exec_cases h with ⟨rfl, rfl⟩ | ⟨rfl, rfl⟩ | ⟨ho, -⟩ | ⟨h1, h2, he⟩
  · exact .cleared hb (.inl (word_of_decodeCommand hd rfl)) (idle_complete _) ⟨rfl, rfl, rfl, rfl⟩
  · exact .cleared hb (.inr (word_of_decodeCommand hd rfl)) (idle_srstReset _) ⟨rfl, rfl, rfl, rfl⟩
  · obtain ⟨op, ho', -⟩ := decodeCommand_ok hd
    rw [ho] at ho'
    cases ho'
  · exact he.effect (runsOther_of_decode hb (fun h => h1 (Except.ok.inj (hd.symm.trans h)))
      fun h => h2 (Except.ok.inj (hd.symm.trans h)))

/-- A codec command that goes to its first boundary. -/
theorem beginCommand_effect {i : Instr} {s t : State} (hb : s.busy = true)
    (hd : decodeCommand s.running.word = .ok i) (h : beginCommand i s = some t) : Effect s t := by
  have hr : RunsOther s := by
    refine runsOther_of_decode hb (fun h1 => ?_) (fun h1 => ?_) <;> rw [hd] at h1 <;> cases h1 <;> cases h
  rcases beginCommand_cases h with ⟨e, he⟩ | ⟨rfl, hc, ht⟩ | ⟨rfl, hc, ht⟩ | ⟨rfl, hc, ht⟩ | ⟨rfl, hc, ht⟩
  · exact .failed hr e s he
  · exact .advanced hr (.beginEncode (.inl ⟨word_of_decodeCommand hd rfl, hc⟩) ht)
  · exact .advanced hr (.beginEncode (.inr ⟨word_of_decodeCommand hd rfl, hc⟩) ht)
  · exact .advanced hr (.beginDecode (.inl ⟨word_of_decodeCommand hd rfl, hc⟩) ht)
  · exact .advanced hr (.beginDecode (.inr ⟨word_of_decodeCommand hd rfl, hc⟩) ht)

/-- One step of a channel encode: a sample, the next channel, or the end of the command. -/
theorem encodeStep_effect {s : State} (hb : s.busy = true) (hp : s.phase = .encode) : Effect s (encodeStep s) := by
  have hr : RunsOther s := runsOther_of_phase hb (by simp [hp])
  unfold encodeStep
  split
  · rename_i hi
    unfold encodeSample
    split
    · exact .failed hr _ s rfl
    · rename_i r n c he
      exact .advanced hr (.sample _ r n c _ hp hi he rfl)
  · unfold encodeEnd
    split
    · exact .failed hr _ s rfl
    · rename_i r hf
      unfold channelEncoded
      split
      · split
        · exact .completed hr (by simp [SameReport])
        · rename_i hch
          exact .advanced hr (.nextEncode r _ _ hp hf hch rfl)
      · exact .completed hr (by simp [SameReport])

/-- The end of a channel decode: the next channel, an error, or the end of the command. -/
theorem decodeEnd_effect {s : State} (hb : s.busy = true) (hp : s.phase = .decode) : Effect s (decodeEnd s) := by
  have hr : RunsOther s := runsOther_of_phase hb (by simp [hp])
  unfold decodeEnd
  split
  · split
    · split
      · exact .failed hr _ s rfl
      · exact .completed hr (by simp [SameReport])
    · exact .advanced hr (.nextDecode _ hp rfl)
  · exact .completed hr (by simp [SameReport])

/-- A record form with a legal length is a record that the decoder reads (41 R180). -/
theorem decodeRecord_of_form {rej : Bool} {bs : List Byte} {i : Instr} (h : decodeRecordForm bs = .ok i)
    (he : recordError rej (recordOf i) = none) : decodeRecord rej bs = .ok (recordOf i) := by
  simp only [decodeRecord, h, he]

/-- A record at the cursor of a channel decode. -/
theorem record_effect {i : Instr} {s t : State} (hb : s.busy = true) (hp : s.phase = .decode)
    (hf : fetchRecord s = .ok i) (h : exec i s = .next t) : Effect s t := by
  have hr : RunsOther s := runsOther_of_phase hb (by simp [hp])
  have ht : t = runRecord (recordOf i) s := by
    rcases decodeRecordForm_ok hf with ⟨len, val, rfl⟩ | ⟨hi, lo, val, rfl⟩ <;> cases h <;> rfl
  rcases runRecord_cases (recordOf i) s with ⟨f, he⟩ | ⟨he, hl, hs⟩
  · exact .failed hr _ s (ht.trans he)
  · exact .advanced hr (.record (recordOf i) _ hp (decodeRecord_of_form hf he) hl (ht.trans hs))

/-- Every move but the reset input has one of the effects above on the state the move starts from. -/
theorem Move.effect {s s₀ t : State} (h₀ : Taken s s₀) (hm : Move s s₀ t) :
    Effect s₀ t ∨ (s.inbox = .resetInput :: s₀.inbox ∧ t = resetInput s₀) := by
  cases hm with
  | reset hi h => exact .inr ⟨hi, h⟩
  | quiet h => exact .inl (.beside _ _ _ _ h)
  | writeArg i v h => exact .inl (.beside _ _ _ _ h)
  | writeMem a v h1 h2 h => exact .inl (.beside _ _ _ _ h)
  | openSink contents hi hb h => exact .inl (.beside _ _ _ _ h)
  | issued v hb he h => obtain ⟨ib, hd, d, rfl⟩ := h₀; exact .inl (.latched v he h)
  | command i hb hp hd h => obtain ⟨ib, hd', d, rfl⟩ := h₀; exact .inl (exec_effect hb hd h)
  | illegal hb hp hd h =>
    obtain ⟨ib, hd', d, rfl⟩ := h₀
    exact .inl (.failed (runsOther_of_decode hb (hd _) (hd _)) _ _ h)
  | begun i hb hp hd h => obtain ⟨ib, hd', d, rfl⟩ := h₀; exact .inl (beginCommand_effect hb hd h)
  | encoding hb hp h => obtain ⟨ib, hd, d, rfl⟩ := h₀; exact .inl (h ▸ encodeStep_effect hb hp)
  | channelEnd hb hp ho h => obtain ⟨ib, hd, d, rfl⟩ := h₀; exact .inl (h ▸ decodeEnd_effect hb hp)
  | record i hb hp ho hf h => obtain ⟨ib, hd, d, rfl⟩ := h₀; exact .inl (record_effect hb hp hf h)
  | badRecord e hb hp ho hf h =>
    obtain ⟨ib, hd, d, rfl⟩ := h₀
    exact .inl (.failed (runsOther_of_phase hb (by simp [hp])) _ _ h)

theorem idle_resetInput (s : State) : Idle (resetInput s) := by
  unfold resetInput
  split <;> exact idle_softReset _

theorem reportClear_resetInput (s : State) : ReportClear (resetInput s) := by
  unfold resetInput
  split <;> exact ⟨rfl, rfl, rfl, rfl⟩

/-- An invariant that does not see the host's list, the value read and the count of free values is kept by every step if
every effect keeps it and every idle state with a clear report has it. -/
theorem step_keeps {P Q : State → Prop} (hP : ∀ s s₀, Taken s s₀ → P s → P s₀)
    (hr : ∀ t, Idle t → ReportClear t → Q t) (he : ∀ s t, Effect s t → P s → Q t) {s t : State} (hs : P s)
    (h : step s = .next t) : Q t := by
  obtain ⟨s₀, h₀, hm⟩ := step_cases h
  rcases hm.effect h₀ with hf | ⟨-, rfl⟩
  · exact he s₀ t hf (hP s s₀ h₀ hs)
  · exact hr _ (idle_resetInput s₀) (reportClear_resetInput s₀)

/-! ### The latch, BUSY and the report -/

theorem latchOk_of_idle {t : State} (h : Idle t) : t.latchOk :=
  ⟨fun hb => (Bool.false_ne_true (h.busy.symm.trans hb)).elim,
    fun _ => ⟨h.latch, h.phase, h.enc, h.dec, h.frame⟩⟩

theorem latchOk_of_running {t : State} (hb : t.busy = true) (hl : t.latch.isSome = true) : t.latchOk :=
  ⟨fun _ => hl, fun h => (Bool.false_ne_true (h.symm.trans hb)).elim⟩

/-- The same command runs, and the parameters and the report are as they were. -/
structure SameCommand (s t : State) : Prop where
  busy : t.busy = s.busy
  latch : t.latch = s.latch
  running : t.running = s.running
  params : t.params = s.params
  report : SameReport s t

theorem Advance.sameCommand {s t : State} (h : Advance s t) : SameCommand s t := by
  cases h <;> rename_i h <;> subst h <;> exact ⟨rfl, rfl, rfl, rfl, rfl, rfl, rfl, rfl⟩

theorem Effect.keeps_latchOk {s t : State} (he : Effect s t) (hs : s.latchOk) : t.latchOk := by
  cases he with
  | beside a w m k h => subst h; exact hs
  | latched v he h => subst h; exact latchOk_of_running rfl rfl
  | cleared hb hw hi hc => exact latchOk_of_idle hi
  | finished hb hi hr => exact latchOk_of_idle hi
  | failed hb e u h => exact latchOk_of_idle (h ▸ idle_raise e u)
  | advanced hb h =>
    have hc := h.sameCommand
    exact latchOk_of_running (hc.busy.trans hb.1) (hc.latch ▸ hs.1 hb.1)

theorem reportOk_of_same {s t : State} (h : SameReport s t) (hs : s.reportOk) : t.reportOk := by
  obtain ⟨h1, h2, h3, h4⟩ := h
  simpa only [State.reportOk, h1, h2, h3, h4] using hs

theorem reportOk_of_clear {t : State} (h : ReportClear t) : t.reportOk := by
  obtain ⟨h1, h2⟩ := h
  exact ⟨fun _ => h2, fun h => (Bool.false_ne_true (h1.symm.trans h)).elim⟩

theorem reportOk_raise (e : BlockError) (u : State) : (raise e u).reportOk :=
  ⟨fun h => (Bool.false_ne_true h.symm).elim, fun _ => errorCode_range e⟩

theorem Effect.keeps_reportOk {s t : State} (he : Effect s t) (hs : s.reportOk) : t.reportOk := by
  cases he with
  | beside a w m k h => subst h; exact hs
  | latched v he h => subst h; exact hs
  | cleared hb hw hi hc => exact reportOk_of_clear hc
  | finished hb hi hr => exact reportOk_of_same hr hs
  | failed hb e u h => exact h ▸ reportOk_raise e u
  | advanced hb h => exact reportOk_of_same h.sameCommand.report hs

/-- 44 R302: with ERR = 1 the engine runs nothing but CLRERR and SRST. -/
theorem not_runsOther_of_blocked {s : State} (hs : s.blockedOk) (he : s.err = true) : ¬ RunsOther s := by
  rintro ⟨hb, hw⟩
  obtain ⟨hp, h⟩ := hs he hb
  exact h.elim (hw hp).1 (hw hp).2

theorem blockedOk_of_idle {t : State} (h : Idle t) : t.blockedOk := fun _ hb =>
  (Bool.false_ne_true (h.busy.symm.trans hb)).elim

/-- 10 R44: from a state with ERR = 1, a move leaves the report or clears it. -/
theorem Effect.report_sticky {s t : State} (hf : Effect s t) (hs : s.blockedOk) (he : s.err = true) :
    SameReport s t ∨ (s.busy = true ∧ (s.running.word = 0x0E ∨ s.running.word = 0x0F) ∧ t.err = false) := by
  have hn := not_runsOther_of_blocked hs he
  cases hf with
  | beside a w m k h => subst h; exact .inl ⟨rfl, rfl, rfl, rfl⟩
  | latched v he h => subst h; exact .inl ⟨rfl, rfl, rfl, rfl⟩
  | cleared hb hw hi hc => exact .inr ⟨hb, hw, hc.1⟩
  | finished hb => exact (hn hb).elim
  | failed hb => exact (hn hb).elim
  | advanced hb => exact (hn hb).elim

theorem Effect.keeps_blockedOk {s t : State} (hf : Effect s t) (hl : s.latchOk) (hs : s.blockedOk) : t.blockedOk := by
  cases hf with
  | beside a w m k h =>
    subst h
    intro he hb
    have hr := running_congr (s := s) (t := { s with args := a, argWritten := w, mem := m, sink := k }) rfl (hl.1 hb)
    rw [hr]
    exact hs he hb
  | latched v hv h => subst h; exact fun he _ => ⟨rfl, hv he⟩
  | cleared hb hw hi hc => exact blockedOk_of_idle hi
  | finished hb hi hr => exact blockedOk_of_idle hi
  | failed hb e u h => exact blockedOk_of_idle (h ▸ idle_raise e u)
  | advanced hb h =>
    intro he
    rw [h.sameCommand.report.1] at he
    exact (not_runsOther_of_blocked hs he hb).elim

/-! ### The decoder (10 R46, R49) and the encoder (10 R47, R48, R50) -/

/-- Inside a command that has begun, a command is latched. -/
theorem latch_isSome_of_phase {s : State} (hl : s.latchOk) (hp : s.phase ≠ .issued) : s.latch.isSome = true := by
  refine hl.1 ?_
  by_contra hb
  exact hp (hl.2 (by simpa using hb)).2.1

/-- The two invariants of a channel decode. -/
abbrev DecoderInv (s : State) : Prop := s.decodesOk ∧ s.decoderOk

/-- The two invariants of a channel encode. -/
abbrev EncoderInv (s : State) : Prop := s.encodesOk ∧ s.encoderOk

theorem decoderInv_of_phase {t : State} (h : t.phase ≠ .decode) : DecoderInv t :=
  ⟨fun hp => (h hp).elim, fun hp => (h hp).elim⟩

theorem encoderInv_of_phase {t : State} (h : t.phase ≠ .encode) : EncoderInv t :=
  ⟨fun hp => (h hp).elim, fun hp => (h hp).elim⟩

theorem decoderInv_of_idle {t : State} (h : Idle t) : DecoderInv t := decoderInv_of_phase (by simp [h.phase])

theorem encoderInv_of_idle {t : State} (h : Idle t) : EncoderInv t := encoderInv_of_phase (by simp [h.phase])

theorem encodeJob_count (s : State) : (encodeJob s).count = if s.runningOp = 0x04 then s.arg 1 else s.arg 2 := by
  unfold encodeJob
  split <;> rfl

theorem encodeJob_count_congr {s t : State} (h : t.running = s.running) :
    (encodeJob t).count = (encodeJob s).count := by
  rw [encodeJob_count, encodeJob_count, runningOp_congr h, arg_congr h]

/-- The checks that a running command has passed are those of its latch and of the parameters. -/
theorem decodesOk_congr {s t : State} (hr : t.running = s.running) (hq : t.params = s.params)
    (hp : s.phase = .decode) (hs : s.decodesOk) : t.decodesOk := by
  intro _
  rw [hr, arg_congr hr, hq]
  exact hs hp

theorem encodesOk_congr {s t : State} (hr : t.running = s.running) (hq : t.params = s.params)
    (hp : s.phase = .encode) (hs : s.encodesOk) : t.encodesOk := by
  intro _
  rw [hr, arg_congr hr, hq]
  exact hs hp

/-- A record read at the cursor ends inside the stream (41 R180). -/
theorem record_inside {rej : Bool} {m : Memory} {src len pos : Nat} {r : Record} (hpos : pos ≤ len)
    (h : decodeRecord rej (m.window src len pos) = .ok r) : pos + r.width ≤ len := by
  obtain ⟨h1, -⟩ := decodeRecord_ok h
  rw [window_length] at h1
  omega

theorem Advance.keeps_decoderInv {s t : State} (h : Advance s t) (hs : DecoderInv s) : DecoderInv t := by
  obtain ⟨hc, hd⟩ := hs
  obtain ⟨-, -, hr, hq, -⟩ := h.sameCommand
  cases h with
  | beginEncode hc h => subst h; exact decoderInv_of_phase (by simp [startEncode])
  | beginDecode hc' h =>
    subst h
    refine ⟨fun _ => hc', fun _ => ?_⟩
    rw [decodeJob_count, decodeJob_len]
    exact ⟨Nat.zero_add _, Nat.zero_le _, Nat.le_refl _⟩
  | sample x r n c m hp hi he h => subst h; exact decoderInv_of_phase (by simp [hp])
  | nextEncode r m lens hp hr' hch h => subst h; exact decoderInv_of_phase (by simp [hp])
  | record r m hp hrec hl h =>
    refine ⟨decodesOk_congr hr hq hp hc, fun _ => ?_⟩
    obtain ⟨h1, h2, h3⟩ := hd hp
    have h4 := record_inside h2 hrec
    simp only [decodeJob_count, decodeJob_len, arg_congr hr] at h1 h2 h4 ⊢
    subst h
    simp only [advance]
    omega
  | nextDecode lens hp h =>
    refine ⟨decodesOk_congr hr hq hp hc, fun _ => ?_⟩
    obtain ⟨-, h2, -⟩ := hd hp
    simp only [decodeJob_count, decodeJob_len, arg_congr hr] at h2 ⊢
    subst h
    exact ⟨Nat.zero_add _, h2, Nat.le_refl _⟩

theorem Effect.keeps_decoderInv {s t : State} (he : Effect s t) (hl : s.latchOk) (hs : DecoderInv s) :
    DecoderInv t := by
  cases he with
  | beside a w m k h =>
    by_cases hp : s.phase = .decode
    · have hr : t.running = s.running :=
        running_congr (by rw [h]) (latch_isSome_of_phase hl (by simp [hp]))
      refine ⟨decodesOk_congr hr (by rw [h]) hp hs.1, fun _ => ?_⟩
      have hd := hs.2 hp
      rw [decodeJob_count, decodeJob_len] at hd ⊢
      rw [arg_congr hr]
      subst h
      exact hd
    · exact decoderInv_of_phase (by rw [h]; exact hp)
  | latched v he h => subst h; exact decoderInv_of_phase (by simp)
  | cleared hb hw hi hc => exact decoderInv_of_idle hi
  | finished hb hi hr => exact decoderInv_of_idle hi
  | failed hb e u h => subst h; exact decoderInv_of_idle (idle_raise e u)
  | advanced hb h => exact h.keeps_decoderInv hs

theorem Advance.keeps_encoderInv {s t : State} (h : Advance s t) (hs : EncoderInv s) : EncoderInv t := by
  obtain ⟨hc, hd⟩ := hs
  obtain ⟨-, -, hr, hq, -⟩ := h.sameCommand
  cases h with
  | beginEncode hc' h =>
    subst h
    refine ⟨fun _ => hc', fun _ => ?_⟩
    simp [startEncode, encIdle, frameIdle]
  | beginDecode hc h => subst h; exact encoderInv_of_phase (by simp [startDecode])
  | sample x r n c m hp hi he h =>
    refine ⟨encodesOk_congr hr hq hp hc, fun _ => ?_⟩
    obtain ⟨h1, h2, h3, h4⟩ := hd hp
    obtain ⟨h5, h6⟩ := encoderStep_ok h1 he
    rw [encodeJob_count_congr hr]
    subst h
    exact ⟨h5, hi, by simp only; omega, h4⟩
  | nextEncode r m lens hp hr' hch h =>
    refine ⟨encodesOk_congr hr hq hp hc, fun _ => ?_⟩
    obtain ⟨h1, h2, h3, h4⟩ := hd hp
    have h5 := flushRun_length hr'
    have hk : (s.frame.ch + 1).val = s.frame.ch.val + 1 := by
      rw [Fin.val_add_one]
      exact if_neg hch
    rw [encodeJob_count_congr hr]
    subst h
    refine ⟨Nat.zero_le _, Nat.zero_le _, Nat.le_refl _, ?_⟩
    simp only [hk, Nat.mul_add, Nat.mul_one]
    omega
  | record r m hp hrec hl h => subst h; exact encoderInv_of_phase (by simp [hp])
  | nextDecode lens hp h => subst h; exact encoderInv_of_phase (by simp [hp])

theorem Effect.keeps_encoderInv {s t : State} (he : Effect s t) (hl : s.latchOk) (hs : EncoderInv s) :
    EncoderInv t := by
  cases he with
  | beside a w m k h =>
    by_cases hp : s.phase = .encode
    · have hr : t.running = s.running :=
        running_congr (by rw [h]) (latch_isSome_of_phase hl (by simp [hp]))
      refine ⟨encodesOk_congr hr (by rw [h]) hp hs.1, fun _ => ?_⟩
      have hd := hs.2 hp
      rw [encodeJob_count_congr hr]
      subst h
      exact hd
    · exact encoderInv_of_phase (by rw [h]; exact hp)
  | latched v he h => subst h; exact encoderInv_of_phase (by simp)
  | cleared hb hw hi hc => exact encoderInv_of_idle hi
  | finished hb hi hr => exact encoderInv_of_idle hi
  | failed hb e u h => subst h; exact encoderInv_of_idle (idle_raise e u)
  | advanced hb h => exact h.keeps_encoderInv hs

/-- Settles O51: with ERR = 1 no move but CLRERR, SRST and the reset input touches the report. -/
theorem errorReportIsSticky : Obligations.ErrorReportIsSticky := by
  refine ⟨fun s t _ hs he h hi => ?_, fun s t hl hs h => ?_⟩
  · obtain ⟨s₀, h₀, hm⟩ := step_cases h
    rcases hm.effect h₀ with hf | ⟨hr, -⟩
    · obtain ⟨ib, hd, d, rfl⟩ := h₀
      exact hf.report_sticky hs he
    · exact (hi _ hr).elim
  · exact step_keeps (P := fun s => s.latchOk ∧ s.blockedOk) (Q := State.blockedOk)
      (fun _ _ ⟨_, _, _, e⟩ hP => e ▸ hP) (fun _ hi _ => blockedOk_of_idle hi)
      (fun _ _ hf hP => hf.keeps_blockedOk hP.1 hP.2) ⟨hl, hs⟩ h

/-- Settles O55, by the effect of each move on the decoder's registers. -/
theorem stepKeepsTheDecoderCounts : Obligations.StepKeepsTheDecoderCounts := fun _ _ hl hc hd h =>
  step_keeps (P := fun s => s.latchOk ∧ DecoderInv s) (Q := DecoderInv) (fun _ _ ⟨_, _, _, e⟩ hP => e ▸ hP)
    (fun _ hi _ => decoderInv_of_idle hi) (fun _ _ hf hP => hf.keeps_decoderInv hP.1 hP.2)
    ⟨hl, hc, hd⟩ h

/-- Settles O56, by the effect of each move on the encoder's registers. -/
theorem stepKeepsTheEncoderCounts : Obligations.StepKeepsTheEncoderCounts := fun _ _ hl hc hd h =>
  step_keeps (P := fun s => s.latchOk ∧ EncoderInv s) (Q := EncoderInv) (fun _ _ ⟨_, _, _, e⟩ hP => e ▸ hP)
    (fun _ hi _ => encoderInv_of_idle hi) (fun _ _ hf hP => hf.keeps_encoderInv hP.1 hP.2)
    ⟨hl, hc, hd⟩ h

/-- Settles O53: each move leaves the report, clears it, or makes one with the code of an error. -/
theorem stepKeepsTheReportLegal : Obligations.StepKeepsTheReportLegal := fun _ _ hs h =>
  step_keeps (P := State.reportOk) (Q := State.reportOk) (fun _ _ ⟨_, _, _, e⟩ hP => e ▸ hP)
    (fun _ _ hc => reportOk_of_clear hc) (fun _ _ hf hP => hf.keeps_reportOk hP) hs h

/-- Settles O54: each move leaves the block idle or keeps or fills the latch of a running command. -/
theorem stepKeepsLatchAndBusyTogether : Obligations.StepKeepsLatchAndBusyTogether := fun _ _ hs h =>
  step_keeps (P := State.latchOk) (Q := State.latchOk) (fun _ _ ⟨_, _, _, e⟩ hP => e ▸ hP)
    (fun _ hi _ => latchOk_of_idle hi) (fun _ _ hf hP => hf.keeps_latchOk hP) hs h

/-- Settles O49: a record form writes memory and the decoder's registers only, CLRERR the report; every other command but SRST
ends by `CommandEnds`. -/
theorem commandsKeepWhatTheyDoNotName : Obligations.CommandsKeepWhatTheyDoNotName := by
  intro i s t h hi
  rcases exec_cases h with ⟨-, rfl⟩ | ⟨rfl, -⟩ | ⟨-, rfl⟩ | ⟨-, -, he⟩
  · exact ⟨⟨rfl, rfl, rfl, rfl, rfl⟩, fun _ _ => rfl, fun _ _ _ => ⟨rfl, rfl, rfl, rfl, rfl⟩⟩
  · exact (hi rfl).elim
  · rcases runRecord_cases (recordOf i) s with ⟨f, h⟩ | ⟨-, -, h⟩ <;> rw [h]
    · exact ⟨⟨rfl, rfl, rfl, rfl, rfl⟩, fun _ _ => rfl, fun _ _ _ => ⟨rfl, rfl, rfl, rfl, rfl⟩⟩
    · exact ⟨⟨rfl, rfl, rfl, rfl, rfl⟩, fun _ _ => rfl, fun _ _ _ => ⟨rfl, rfl, rfl, rfl, rfl⟩⟩
  · cases he with
    | done u k h =>
      subst h
      refine ⟨k.host, fun h1 h2 => ?_, k.container⟩
      rw [complete_err, k.report.1, h1] at h2
      cases h2
    | failed e u k hr h => subst h; exact ⟨k.host, fun _ _ => hr, k.container⟩

/-! ### Register accesses (10 R30 to R42) -/

theorem regAt_aligned {k : Nat} (h : k ≤ 63) : regAt (4 * k) 32 = some (regOfIndex k) := by
  rw [regAt, if_pos (by omega), Nat.mul_div_cancel_left k (by omega)]

/-- 10 R42: exactly the accesses of another width or offset reach no register. -/
theorem regAt_eq_none {off width : Nat} : regAt off width = none ↔ width ≠ 32 ∨ off % 4 ≠ 0 ∨ 0xFC < off := by
  unfold regAt
  split
  · simp only [reduceCtorEq, false_iff]; omega
  · simp only [true_iff]; omega

theorem hostReadReg_refused {off width : Nat} {s : State} :
    hostReadReg off width s = .refused .badRegisterAccess ↔ regAt off width = none := by
  unfold hostReadReg
  split <;> simp [*]

theorem hostWriteReg_refused {off width : Nat} {v : HostValue} {s : State} :
    hostWriteReg off width v s = .refused .badRegisterAccess ↔ regAt off width = none := by
  unfold hostWriteReg
  split <;> simp [*]

theorem regOfIndex_arg (i : Fin 8) : regOfIndex (8 + i.val) = .arg i := by decide +revert
theorem regOfIndex_res (i : Fin 6) : regOfIndex (16 + i.val) = .res i := by decide +revert

theorem regOfIndex_reserved {k : Nat} (h : 22 ≤ k) : regOfIndex k = .reserved := by
  simp only [regOfIndex]
  repeat rw [if_neg (by omega)]

/-- A step whose pending action is a register read. -/
theorem step_readReg {s : State} {rest : List HostOp} {k : Nat} (hk : k ≤ 63)
    (h : s.inbox = .readReg (4 * k) 32 :: rest) :
    step s = .next (readRegister (regOfIndex k) { s with inbox := rest }) := by
  rw [step_of_pending h, hostTurn, hostReadReg, regAt_aligned hk]

/-- A step whose pending action is a register write. -/
theorem step_writeReg {s : State} {rest : List HostOp} {k : Nat} {v : HostValue} (hk : k ≤ 63)
    (h : s.inbox = .writeReg (4 * k) 32 v :: rest) :
    step s = .next (writeRegister (regOfIndex k) (hostValue v s) { s with inbox := rest }) := by
  rw [step_of_pending h, hostTurn, hostWriteReg, regAt_aligned hk]
  cases v <;> rfl

theorem regValue_inbox (r : Reg) (s : State) (rest : List HostOp) :
    regValue r { s with inbox := rest } = regValue r s := by
  cases r <;> rfl

/-- An idle block returns its registers. -/
theorem step_readReg_idle {s : State} {rest : List HostOp} {k : Nat} (hk : k ≤ 63)
    (h : s.inbox = .readReg (4 * k) 32 :: rest) (hb : s.busy = false) :
    step s = .next { s with inbox := rest, hostData := regValue (regOfIndex k) s } := by
  rw [step_readReg hk h, readRegister, if_neg (by simp [hb]), regValue_inbox]

/-- A register that a running command cannot change reads the same, idle and busy (20 R86). -/
theorem step_readReg_steady {s : State} {rest : List HostOp} {k : Nat} (hk : k ≤ 63)
    (h : s.inbox = .readReg (4 * k) 32 :: rest) {v : Word} (hr : ∀ free, busyRegValue (regOfIndex k) free = none)
    (hv : regValue (regOfIndex k) s = v) : step s = .next { s with inbox := rest, hostData := v } := by
  rw [step_readReg hk h]
  simp [readRegister, hr, regValue_inbox, hv]

/-- Every register but CMD and ARG0..ARG7 ignores writes (10 R32 to R38, R40, R41). -/
theorem writeRegister_ignored {r : Reg} (h1 : r ≠ .cmd) (h2 : ∀ i, r ≠ .arg i) (v : Word) (s : State) :
    writeRegister r v s = s := by
  cases r with
  | cmd => exact (h1 rfl).elim
  | arg i => exact (h2 i rfl).elim
  | _ => rfl

theorem ignored_offset : ∀ off ∈ [0x04, 0x08, 0x0C, 0x10, 0x14, 0x18, 0x1C, 0x40, 0x44, 0x48, 0x4C, 0x50, 0x54],
    off = 4 * (off / 4) ∧ off / 4 ≤ 63 ∧ regOfIndex (off / 4) ≠ .cmd ∧ ∀ i, regOfIndex (off / 4) ≠ .arg i := by
  decide

/-- Settles O8, register by register. -/
theorem registerAccesses : Obligations.RegisterAccesses := by
  refine ⟨fun s rest k v h1 h2 => ?_, fun s rest v off ho h => ?_, fun s rest => ?_, fun s rest hb => ?_,
    fun s rest off ho _ h => ?_⟩
  · have hr : regOfIndex k = .reserved := regOfIndex_reserved (by omega)
    refine ⟨fun h => step_readReg_steady (by omega) h (by rw [hr]; exact fun _ => rfl) (by rw [hr]; rfl), fun h => ?_⟩
    rw [step_writeReg (by omega) h, hr]
    rfl
  · obtain ⟨h4, hk, h1, h2⟩ := ignored_offset off ho
    rw [h4] at h
    rw [step_writeReg hk h, writeRegister_ignored h1 h2]
  · refine ⟨fun h => step_readReg_steady (k := 0) (by omega) h (fun _ => rfl) rfl,
      fun h => step_readReg_steady (k := 6) (by omega) h (fun _ => rfl) rfl,
      fun h => step_readReg_steady (k := 7) (by omega) h (fun _ => rfl) rfl, fun i h => ?_⟩
    rw [show 0x20 + 4 * i.val = 4 * (8 + i.val) by omega] at h
    exact step_readReg_steady (by omega) h (by rw [regOfIndex_arg]; exact fun _ => rfl) (by rw [regOfIndex_arg]; rfl)
  · refine ⟨fun h => step_readReg_idle (k := 2) (by omega) h hb, fun h => step_readReg_idle (k := 3) (by omega) h hb,
      fun h => step_readReg_idle (k := 4) (by omega) h hb, fun h => step_readReg_idle (k := 5) (by omega) h hb,
      fun i h => ?_⟩
    rw [show 0x40 + 4 * i.val = 4 * (16 + i.val) by omega] at h
    rw [step_readReg_idle (by omega) h hb, regOfIndex_res]
    rfl
  · obtain ⟨k, hk, rfl⟩ : ∃ k, k ≤ 63 ∧ off = 4 * k := by
      simp only [List.mem_cons, List.not_mem_nil, or_false] at ho
      exact ⟨off / 4, by omega, by omega⟩
    obtain ⟨v, d, e⟩ := readRegister_taken (regOfIndex k) { s with inbox := rest }
    exact ⟨v, d, by rw [step_readReg hk h, e]⟩

/-! ### STATUS (10 R32) -/

theorem cwStateCode_lt (c : CwState) : cwStateCode c < 8 := by cases c <;> decide

theorem bit_lt (b : Bool) : bit b < 2 := by cases b <;> decide

/-- 10 R32: STATUS as a sum of its fields. -/
theorem statusWord_toNat (s : State) :
    (statusWord s).toNat = bit s.busy + 2 * bit s.err + 16 * s.errCode.toNat + 256 * cwStateCode s.cwState := by
  have h0 := bit_lt s.busy
  have h1 := bit_lt s.err
  have h2 := s.errCode.isLt
  have h3 := cwStateCode_lt s.cwState
  have e1 : bit s.busy ||| bit s.err <<< 1 = bit s.busy + 2 * bit s.err := by
    rw [Nat.or_comm, ← Nat.shiftLeft_add_eq_or_of_lt (by omega), Nat.shiftLeft_eq]; omega
  have e2 : bit s.busy + 2 * bit s.err ||| s.errCode.toNat <<< 4 =
      bit s.busy + 2 * bit s.err + 16 * s.errCode.toNat := by
    rw [Nat.or_comm, ← Nat.shiftLeft_add_eq_or_of_lt (by omega), Nat.shiftLeft_eq]; omega
  have e3 : bit s.busy + 2 * bit s.err + 16 * s.errCode.toNat ||| cwStateCode s.cwState <<< 8 =
      bit s.busy + 2 * bit s.err + 16 * s.errCode.toNat + 256 * cwStateCode s.cwState := by
    rw [Nat.or_comm, ← Nat.shiftLeft_add_eq_or_of_lt (by omega), Nat.shiftLeft_eq]; omega
  rw [statusWord, e1, e2, e3, BitVec.toNat_ofNat, Nat.mod_eq_of_lt (by omega)]

/-- A bit of a word is set when the number shifted down to it is odd. -/
theorem getLsbD_eq_decide (v : Word) (i : Nat) : v.getLsbD i = decide (v.toNat / 2 ^ i % 2 = 1) := by
  rw [BitVec.getLsbD, Nat.testBit_eq_decide_div_mod_eq]

/-- The fields of STATUS of an idle block. -/
theorem statusWord_fields {s : State} (hb : s.busy = false) :
    (statusWord s).getLsbD 0 = false ∧ (statusWord s).getLsbD 1 = s.err ∧
      (statusWord s).extractLsb' 4 4 = s.errCode ∧
      ((statusWord s).extractLsb' 8 3).toNat = cwStateCode s.cwState ∧
      (statusWord s).extractLsb' 2 2 = 0 ∧ (statusWord s).extractLsb' 11 21 = 0 := by
  have hs := statusWord_toNat s
  rw [hb, show bit false = 0 from rfl, Nat.zero_add] at hs
  have h1 := bit_lt s.err
  have h2 := s.errCode.isLt
  have h3 := cwStateCode_lt s.cwState
  refine ⟨?_, ?_, BitVec.eq_of_toNat_eq ?_, ?_, BitVec.eq_of_toNat_eq ?_, BitVec.eq_of_toNat_eq ?_⟩
  · rw [getLsbD_eq_decide, hs, decide_eq_false_iff_not]; omega
  · have he : s.err = decide (bit s.err = 1) := by cases s.err <;> rfl
    rw [getLsbD_eq_decide, hs, he]
    congr 1
    rw [← he, eq_iff_iff]
    omega
  all_goals
    simp only [BitVec.extractLsb'_toNat, Nat.shiftRight_eq_div_pow, hs, BitVec.ofNat_eq_ofNat, BitVec.toNat_ofNat]
    omega

/-- 10 R43, 70 R374: BUSY is valid while a command runs. -/
theorem busyStatusWord_busy (free : Word) : (busyStatusWord free).getLsbD 0 = true := by
  simp [busyStatusWord]

/-- Settles O9: STATUS is the sum of its fields, each below the next one's weight. -/
theorem statusReadsItsFields : Obligations.StatusReadsItsFields := by
  intro s rest h
  refine ⟨fun hb => ⟨statusWord s, step_readReg_idle (k := 1) (by omega) h hb, ?_⟩,
    fun hb => ⟨busyStatusWord (Config.freeWord s.draws), s.draws + 1, ?_, busyStatusWord_busy _⟩⟩
  · have hf := statusWord_fields hb
    cases hc : s.cwState <;> rw [hc] at hf <;> exact hf
  · rw [step_readReg (k := 1) (by omega) h, readRegister, if_pos (by exact hb)]
    rfl

/-! ### Host memory accesses (20 R84 to R87) -/

/-- An idle block reads and writes no range (log 12). -/
theorem activeInstr_idle {s : State} (hb : s.busy = false) : activeInstr s = none := by
  simp [activeInstr, hb]

theorem activeSource_idle {s : State} (hb : s.busy = false) : activeSource s = (0, 0) := by
  simp only [activeSource, activeInstr_idle hb]

theorem activeDest_idle {s : State} (hb : s.busy = false) : activeDest s = (0, 0) := by
  simp only [activeDest, activeInstr_idle hb]

@[simp] theorem inRange_empty (a : Nat) : inRange (0, 0) a = false := by
  simp [inRange]

theorem inRange_activeDest_idle {s : State} (hb : s.busy = false) (a : Nat) : inRange (activeDest s) a = false := by
  rw [activeDest_idle hb, inRange_empty]

theorem inRange_activeSource_idle {s : State} (hb : s.busy = false) (a : Nat) :
    inRange (activeSource s) a = false := by
  rw [activeSource_idle hb, inRange_empty]

theorem hostWriteMem_refused {a : Word} {v : Byte} {s : State}
    (h : inRange (activeSource s) a.toNat = true ∨ inRange (activeDest s) a.toNat = true) :
    hostWriteMem a v s = .refused .bufferWriteWhileBusy :=
  if_pos (by simpa using h)

theorem hostWriteMem_next {a : Word} {v : Byte} {s : State} (h1 : inRange (activeSource s) a.toNat = false)
    (h2 : inRange (activeDest s) a.toNat = false) :
    hostWriteMem a v s = .next { s with mem := s.mem.write a.toNat v } :=
  if_neg (by simp [h1, h2])

theorem hostReadMem_outside {a : Word} {s : State} (h : inRange (activeDest s) a.toNat = false) :
    hostReadMem a s = { s with hostData := (s.mem.read a.toNat).setWidth 32 } :=
  if_neg (by simp [h])

/-- A host read of memory changes the value read and the count of free values only. -/
theorem hostReadMem_taken (a : Word) (s : State) :
    ∃ (v : Word) (d : Nat), hostReadMem a s = { s with hostData := v, draws := d } := by
  unfold hostReadMem
  split
  · exact ⟨_, _, rfl⟩
  · exact ⟨_, s.draws, rfl⟩

/-- Settles O10, access by access; an idle block has empty ranges. -/
theorem meaninglessHostAccessesAreRefused : Obligations.MeaninglessHostAccessesAreRefused := by
  refine ⟨fun s rest off width h => ?_, fun s rest off width v h => ?_, fun s rest a v h => ?_,
    fun s rest a h => ?_⟩
  · rw [step_of_pending h, hostTurn, hostReadReg_refused, regAt_eq_none]
  · rw [step_of_pending h, hostTurn, hostWriteReg_refused, regAt_eq_none]
  · rw [step_of_pending h, hostTurn]
    exact ⟨fun hr => hostWriteMem_refused hr, fun h1 h2 => hostWriteMem_next h1 h2, fun hb =>
      hostWriteMem_next (inRange_activeSource_idle (s := { s with inbox := rest }) hb _)
        (inRange_activeDest_idle (s := { s with inbox := rest }) hb _)⟩
  · rw [step_of_pending h, hostTurn]
    refine ⟨fun hr => ?_, ?_⟩
    · have hd : inRange (activeDest { s with inbox := rest }) a.toNat = false :=
        hr.elim (fun hb => inRange_activeDest_idle (s := { s with inbox := rest }) hb _) id
      rw [hostReadMem_outside hd]
    · obtain ⟨v, d, e⟩ := hostReadMem_taken a { s with inbox := rest }
      exact ⟨v, d, by rw [e]⟩

/-! ### The state after reset (10 R54) -/

theorem idle_reset : Idle State.reset := ⟨rfl, rfl, rfl, rfl, rfl, rfl⟩

/-- Settles O13, by evaluation of the reset state. -/
theorem resetStateHoldsTheResetValues : Obligations.ResetStateHoldsTheResetValues := by
  have hregs : AtResetValuesButArgs State.reset :=
    ⟨idle_reset.busy, rfl, rfl, rfl, rfl, rfl, rfl, rfl, by decide, idle_reset.latch, rfl, rfl, rfl, rfl, rfl, rfl⟩
  exact ⟨⟨hregs, by decide⟩, rfl, rfl⟩

/-- Settles O58: the reset state is idle, its report is clear and its memory empty. -/
theorem resetStateMeetsTheInvariants : Obligations.ResetStateMeetsTheInvariants := by
  obtain ⟨h1, h2⟩ := decoderInv_of_idle idle_reset
  obtain ⟨h3, h4⟩ := encoderInv_of_idle idle_reset
  exact ⟨⟨rfl, rfl⟩, reportOk_of_clear ⟨rfl, rfl, rfl, rfl⟩, latchOk_of_idle idle_reset,
    blockedOk_of_idle idle_reset, h1, h2, h3, h4⟩

end Sys2Proof.Machine

/-!
## Host memory and the Byte Sink (20_memory)

What an instruction and a step do to the two spaces outside the block, said once (`exec_reaches`, `step_reaches`): memory changes
byte by byte, at addresses of the running command's destination range or of the host's write, and the sink is appended to. The
statements of 20_memory follow.
-/

namespace Sys2Proof.Machine

/-! ### Memory changed byte by byte -/

/-- `m'` is `m` after bytes at addresses in `W` have been written or have become free values (20 R76). -/
inductive Touched (W : Nat → Prop) (m : Memory) : Memory → Prop where
  | same : Touched W m m
  | write {m' : Memory} (h : Touched W m m') {a : Nat} (ha : W a) (v : Byte) : Touched W m (m'.write a v)
  | forget {m' : Memory} (h : Touched W m m') {a : Nat} (ha : W a) (k : Nat) : Touched W m (m'.forget a k)

section
variable {W : Nat → Prop} {m m' : Memory}

theorem Touched.mono {W' : Nat → Prop} (hW : ∀ a, W a → W' a) (h : Touched W m m') : Touched W' m m' := by
  induction h with
  | same => exact .same
  | write _ ha v ih => exact ih.write (hW _ ha) v
  | forget _ ha k ih => exact ih.forget (hW _ ha) k

theorem Touched.wf (h : Touched W m m') (hm : m.wf = true) : m'.wf = true := by
  induction h with
  | same => exact hm
  | write _ _ v ih => exact write_wf ih _ v
  | forget _ _ k ih => exact forget_wf ih _ k

theorem Touched.inSpace (h : Touched W m m') (hW : ∀ a, W a → a < 2 ^ 32) (hm : m.inSpace = true) :
    m'.inSpace = true := by
  induction h with
  | same => exact hm
  | write _ ha v ih => exact write_inSpace ih (hW _ ha) v
  | forget _ ha k ih => exact forget_inSpace ih (hW _ ha) k

theorem Touched.writeBytes (h : Touched W m m') {a : Nat} {bs : List Byte}
    (ha : ∀ t, a ≤ t → t < a + bs.length → W t) : Touched W m (m'.writeBytes a bs) :=
  writeBytes_keeps (fun _ t v h1 h2 hp => hp.write (ha t h1 h2) v) h

theorem Touched.forgetRange (h : Touched W m m') {a n : Nat} (k : Nat) (ha : ∀ t, a ≤ t → t < a + n → W t) :
    Touched W m (m'.forgetRange a n k) :=
  forgetRange_keeps (fun _ t k h1 h2 hp => hp.forget (ha t h1 h2) k) h

theorem Touched.fillSlots (h : Touched W m m') {dst stride j len : Nat} (v : Byte)
    (ha : ∀ t, j ≤ t → t < j + len → W (dst + stride * t)) : Touched W m (m'.fillSlots dst stride v j len) :=
  fillSlots_keeps (fun _ t h1 h2 hp => hp.write (ha t h1 h2) v) h

end

/-- From `s` to `t` memory changes only at addresses in `W`, and the sink is only appended to (20 R72, R81). -/
abbrev Reaches (W : Nat → Prop) (s t : State) : Prop := Touched W s.mem t.mem ∧ s.sink <+: t.sink

theorem reaches_of_touched {W : Nat → Prop} {s t : State} (hm : Touched W s.mem t.mem) (hs : t.sink = s.sink) :
    Reaches W s t := ⟨hm, hs ▸ List.prefix_refl _⟩

theorem reaches_of_same (W : Nat → Prop) {s t : State} (hm : t.mem = s.mem) (hs : t.sink = s.sink) : Reaches W s t :=
  reaches_of_touched (hm ▸ .same) hs

theorem reaches_refl (W : Nat → Prop) (s : State) : Reaches W s s := reaches_of_same W rfl rfl

theorem Reaches.mono {W W' : Nat → Prop} {s t : State} (hW : ∀ a, W a → W' a) (h : Reaches W s t) :
    Reaches W' s t := ⟨h.1.mono hW, h.2⟩

theorem guarded_reaches {W : Nat → Prop} {s : State} {body : State → State} {cs : List (Bool × BlockError)}
    (h : firstError cs = none → Reaches W s (body s)) : Reaches W s (guarded cs body s) := by
  rcases guarded_cases cs body s with ⟨hc, hg⟩ | ⟨e, -, -, hg⟩ <;> rw [hg]
  · exact h hc
  · exact reaches_refl W s

/-! ### The destination range (20 R71, R86) -/

/-! What the passed checks of a codec command say of its destination: the capacity holds the records, and the range does not
wrap (40 R146, R147; 41 R187; 42 R222, R229). -/

theorem emitrecChecks_none {a : Fin 8 → Nat} (h : firstError (emitrecChecks a) = none) :
    widthOf (a 0) ≤ a 3 ∧ a 2 + a 3 ≤ 2 ^ 32 := by
  simp only [firstError_eq_none, emitrecChecks, List.forall_mem_cons, decide_eq_false_iff_not, wraps_eq_false] at h
  omega

theorem encchChecks_none {maxPixels : Nat} {a : Fin 8 → Nat} (h : firstError (encchChecks maxPixels a) = none) :
    2 * a 2 ≤ a 4 ∧ a 3 + a 4 ≤ 2 ^ 32 := by
  simp only [firstError_eq_none, encchChecks, List.forall_mem_cons, decide_eq_false_iff_not, wraps_eq_false] at h
  omega

theorem decchChecks_none {maxPixels : Nat} {a : Fin 8 → Nat} (h : firstError (decchChecks maxPixels a) = none) :
    a 3 + span (a 4) (a 2) ≤ 2 ^ 32 := by
  simp only [firstError_eq_none, decchChecks, List.forall_mem_cons, wraps_eq_false] at h
  exact h.2.2.2.1

theorem cmpfrChecks_none {maxPixels : Nat} {a : Fin 8 → Nat} (h : firstError (cmpfrChecks maxPixels a) = none) :
    8 * a 1 ≤ a 3 ∧ a 2 + a 3 ≤ 2 ^ 32 := by
  simp only [firstError_eq_none, cmpfrChecks, List.forall_mem_cons, decide_eq_false_iff_not, wraps_eq_false] at h
  omega

theorem dcmfrChecks_none {maxPixels : Nat} {a : Fin 8 → Nat} (h : firstError (dcmfrChecks maxPixels a) = none) :
    a 3 + 4 * a 2 ≤ 2 ^ 32 := by
  simp only [firstError_eq_none, dcmfrChecks, List.forall_mem_cons, wraps_eq_false] at h
  exact h.2.2.1

/-- The address lies in the destination range of a command that passes its checks. -/
structure InDest (i : Instr) (s : State) (a : Nat) : Prop where
  checked : firstError (accessChecks i s) = none
  low : (destRange i s.arg).1 ≤ a
  high : a < (destRange i s.arg).1 + (destRange i s.arg).2

/-- 20 R71: the destination range of a command that passes its checks lies inside host memory. -/
theorem InDest.lt {i : Instr} {s : State} {a : Nat} (h : InDest i s a) : a < 2 ^ 32 := by
  obtain ⟨hc, -, ha⟩ := h
  refine lt_of_lt_of_le ha ?_
  cases i with
  | emitrec => exact (emitrecChecks_none hc).2
  | encch => exact (encchChecks_none hc).2
  | decch => exact decchChecks_none hc
  | cmpfr => exact (cmpfrChecks_none hc).2
  | dcmfr => exact dcmfrChecks_none hc
  | _ => exact Nat.zero_le _

/-- A slot of a view lies in its span (40 R147). -/
theorem slot_lt_span (stride : Nat) {count t : Nat} (h : t < count) : stride * t < span stride count := by
  have := Nat.mul_le_mul_left stride (show t ≤ count - 1 by omega)
  rw [span, if_neg (by omega)]
  omega

/-! ### Whole commands -/

theorem emitrecBody_reaches {s : State} (hc : firstError (emitrecChecks s.arg) = none) :
    Reaches (InDest .emitrec s) s (emitrecBody s) := by
  unfold emitrecBody
  split
  · exact reaches_refl _ s
  · rename_i r hr
    have h1 := (emitRecord_length hr).2.2
    have h2 := (emitrecChecks_none hc).1
    refine ⟨Touched.same.writeBytes fun t h3 h4 => ⟨hc, h3, ?_⟩, List.prefix_refl _⟩
    simp only [destRange]
    omega

theorem encchBody_reaches {s : State} (hc : firstError (encchChecks s.params.maxPixels s.arg) = none) :
    Reaches (InDest .encch s) s (encchBody s) := by
  unfold encchBody
  split
  · exact reaches_refl _ s
  · rename_i out ho
    have h1 := encodeFrom_length_le (Nat.zero_le _) ho
    have h2 := (encchChecks_none hc).1
    rw [view_length] at h1
    refine ⟨Touched.same.writeBytes fun t h3 h4 => ⟨hc, h3, ?_⟩, List.prefix_refl _⟩
    simp only [destRange]
    omega

theorem decchBody_reaches {s : State} (hc : firstError (decchChecks s.params.maxPixels s.arg) = none) :
    Reaches (InDest .decch s) s (decchBody s) := by
  have hm : Touched (InDest .decch s) s.mem (decchResult s).mem :=
    decodeChannel_keeps (count := s.arg 2)
      (fun m t v ht hp => hp.write ⟨hc, Nat.le_add_right _ _, Nat.add_lt_add_left (slot_lt_span _ ht) _⟩ v)
      _ _ _ (Nat.zero_add _).le .same
  unfold decchBody
  split <;> exact reaches_of_touched (by simpa using hm) (by simp)

theorem cmpfrBody_reaches {s : State} (hc : firstError (cmpfrChecks s.params.maxPixels s.arg) = none) :
    Reaches (InDest .cmpfr s) s (cmpfrBody s) := by
  obtain ⟨outs, ho, -, -, h1⟩ := compressChannels_spec s.mem (s.arg 0) (s.arg 1) [0, 1, 2, 3]
  have h2 := (cmpfrChecks_none hc).1
  simp only [List.length_cons, List.length_nil] at h1
  simp only [cmpfrBody, ho, finishCompress]
  refine reaches_of_touched ?_ (by simp)
  rw [complete_mem, setChannelResults_mem]
  refine (Touched.same.writeBytes fun t h3 h4 => ⟨hc, h3, ?_⟩).forgetRange _ fun t h3 h4 => ⟨hc, ?_, ?_⟩
  all_goals
    simp only [destRange]
    omega

theorem dcmfrBody_reaches {s : State} (hc : firstError (dcmfrChecks s.params.maxPixels s.arg) = none) :
    Reaches (InDest .dcmfr s) s (dcmfrBody s) := by
  have hm : Touched (InDest .dcmfr s) s.mem (dcmfrResult s).mem := by
    refine decodeChannels_keeps (fun m t k v ht hp => hp.write ⟨hc, ?_, ?_⟩ v) _ _ _ _ .same
    all_goals
      simp only [destRange]
      omega
  unfold dcmfrBody
  split <;> exact reaches_of_touched (by simpa using hm) (by simp)

/-- 43 R253: the appends of a container command reach the sink only, whatever it answers. -/
theorem sinkThen_reaches (W : Nat → Prop) (bytes : List Byte) {done : State → State} (s : State)
    (hd : ∀ u, (done u).mem = u.mem ∧ (done u).sink = u.sink) : Reaches W s (sinkThen bytes done s) := by
  have hw : Reaches W s (sinkWrite bytes 0 s).1 := by
    obtain ⟨d, off, plan, cw, added, e⟩ := sinkWrite_frame bytes 0 s
    rw [e]
    exact ⟨.same, List.prefix_append _ _⟩
  unfold sinkThen
  split <;> rename_i u hu <;> rw [hu] at hw
  · exact hw
  · obtain ⟨hm, hs⟩ := hd u
    rw [Reaches, hm, hs]
    exact hw

/-- 20 R70, R72: a command reaches its destination range and the end of the sink, and nothing else outside the block. -/
theorem exec_reaches {i : Instr} {s t : State} {op : Byte} (ho : opcode i = some op) (h : exec i s = .next t) :
    Reaches (InDest i s) s t := by
  cases i with
  | recShort | recLong => cases ho
  | emitrec => cases h; exact guarded_reaches emitrecBody_reaches
  | encch => cases h; exact guarded_reaches encchBody_reaches
  | decch => cases h; exact guarded_reaches decchBody_reaches
  | cmpfr => cases h; exact guarded_reaches cmpfrBody_reaches
  | dcmfr => cases h; exact guarded_reaches dcmfrBody_reaches
  | wrgh =>
    simp only [exec, execWrgh] at h
    split at h <;> cases h
    exact guarded_reaches fun _ => sinkThen_reaches _ _ s fun _ => ⟨rfl, rfl⟩
  | wrfr =>
    simp only [exec, execWrfr] at h
    split at h <;> cases h
    exact guarded_reaches fun _ => sinkThen_reaches _ _ s fun _ => ⟨rfl, rfl⟩
  | close => cases h; exact guarded_reaches fun _ => reaches_of_same _ rfl rfl
  | prgh => cases h; exact guarded_reaches fun _ => reaches_of_same _ (by simp [prghBody]) (by simp [prghBody])
  | prfh => cases h; exact guarded_reaches fun _ => reaches_of_same _ (by simp [prfhBody]) (by simp [prfhBody])
  | clrerr => cases h; exact reaches_of_same _ rfl rfl
  | srst => cases h; exact reaches_of_same _ rfl rfl

/-! ### The moves inside a codec command -/

/-- The two bytes a sample that the running channel encode may take lie inside host memory (40 R144). -/
theorem encodeJob_room {s : State} (hs : EncoderInv s) (hp : s.phase = .encode) :
    (encodeJob s).dst + 2 * (encodeJob s).count ≤ 2 ^ 32 := by
  obtain ⟨-, -, -, ht⟩ := hs.2 hp
  rcases hs.1 hp with ⟨hw, hc⟩ | ⟨hw, hc⟩
  · have hc' := encchChecks_none hc
    rw [encodeJob_encch (by rw [State.runningOp, hw]; decide)]
    simp only
    omega
  · have hc' := cmpfrChecks_none hc
    rw [encodeJob_cmpfr (by rw [State.runningOp, hw]; decide)] at ht ⊢
    have := Nat.mul_le_mul_left (2 * s.arg 1) (show s.frame.ch.val ≤ 3 by omega)
    simp only at ht ⊢
    omega

/-- The records of a frame's channels fit the capacity, which lies inside host memory (42 R222, R224). -/
theorem cmpfr_room {s : State} (hs : EncoderInv s) (hp : s.phase = .encode) (ho : s.runningOp = 0x04) :
    s.frame.total + 2 * (encodeJob s).count ≤ s.arg 3 ∧ s.arg 2 + s.arg 3 ≤ 2 ^ 32 := by
  obtain ⟨-, -, -, ht⟩ := hs.2 hp
  rcases hs.1 hp with ⟨hw, -⟩ | ⟨-, hc⟩
  · rw [State.runningOp, hw] at ho
    cases ho
  · have hc' := cmpfrChecks_none hc
    rw [encodeJob_cmpfr ho] at ht ⊢
    have := Nat.mul_le_mul_left (2 * s.arg 1) (show s.frame.ch.val ≤ 3 by omega)
    simp only at ht ⊢
    omega

/-- The slots that the running channel decode still owes lie inside host memory (41 R183). -/
theorem decodeJob_slot_lt {s : State} (hs : DecoderInv s) (hp : s.phase = .decode) {t : Nat}
    (ht : t < s.dec.j + s.dec.owed) : (decodeJob s).dst + (decodeJob s).stride * t < 2 ^ 32 := by
  obtain ⟨hj, -, -⟩ := hs.2 hp
  rw [hj, decodeJob_count] at ht
  rcases hs.1 hp with ⟨hw, hc⟩ | ⟨hw, hc⟩
  · have := decchChecks_none hc
    have := slot_lt_span (s.arg 4) ht
    rw [decodeJob_decch (by rw [State.runningOp, hw]; decide)]
    simp only
    omega
  · have := dcmfrChecks_none hc
    rw [decodeJob_dcmfr (by rw [State.runningOp, hw]; decide)]
    simp only
    omega

/-- Inside host memory, if the invariants of the running codec command hold. -/
abbrev Placed (s : State) (a : Nat) : Prop := DecoderInv s → EncoderInv s → a < 2 ^ 32

theorem encodeSample_reaches {s : State} (hp : s.phase = .encode) (hi : s.enc.i < (encodeJob s).count) :
    Reaches (Placed s) s (encodeSample s) := by
  unfold encodeSample
  split
  · exact reaches_refl _ s
  · rename_i r n c he
    refine ⟨Touched.same.writeBytes fun t _ h2 _ hs => ?_, List.prefix_refl _⟩
    obtain ⟨hn, -, hw, -⟩ := hs.2 hp
    have hr := encoderStep_ok hn he
    have hroom := encodeJob_room hs hp
    omega

theorem encodeEnd_reaches {s : State} (hp : s.phase = .encode) : Reaches (Placed s) s (encodeEnd s) := by
  unfold encodeEnd
  split
  · exact reaches_refl _ s
  · rename_i r hf
    have hr := flushRun_length hf
    have hm : Touched (Placed s) s.mem (s.mem.writeBytes ((encodeJob s).dst + s.enc.w) r) := by
      refine Touched.same.writeBytes fun t _ h2 _ hs => ?_
      obtain ⟨-, hi, hw, -⟩ := hs.2 hp
      have hroom := encodeJob_room hs hp
      omega
    unfold channelEncoded
    split
    · rename_i ho
      split
      · refine reaches_of_touched ?_ (by simp [finishCompress])
        simp only [finishCompress, complete_mem, setChannelResults_mem]
        refine hm.forgetRange _ fun t _ h2 _ hs => ?_
        obtain ⟨-, hi, hw, -⟩ := hs.2 hp
        have hroom := cmpfr_room hs hp ho
        have h3 : t < s.arg 2 + (s.frame.total + (s.enc.w + r.length)) +
          (s.arg 3 - (s.frame.total + (s.enc.w + r.length))) := h2
        omega
      · exact reaches_of_touched hm rfl
    · exact reaches_of_touched hm rfl

theorem encodeStep_reaches {s : State} (hp : s.phase = .encode) : Reaches (Placed s) s (encodeStep s) := by
  unfold encodeStep
  split
  · rename_i hi
    exact encodeSample_reaches hp hi
  · exact encodeEnd_reaches hp

theorem record_reaches {i : Instr} {s t : State} (hp : s.phase = .decode) (hf : fetchRecord s = .ok i)
    (h : exec i s = .next t) : Reaches (Placed s) s t := by
  have ht : t = runRecord (recordOf i) s := by
    rcases decodeRecordForm_ok hf with ⟨len, val, rfl⟩ | ⟨hi, lo, val, rfl⟩ <;> cases h <;> rfl
  rcases runRecord_cases (recordOf i) s with ⟨f, hr⟩ | ⟨-, hl, hr⟩ <;> rw [ht, hr]
  · exact reaches_refl _ s
  · exact ⟨Touched.same.fillSlots _ fun t _ h2 hs _ => decodeJob_slot_lt hs hp (by omega), List.prefix_refl _⟩

theorem decodeEnd_reaches (W : Nat → Prop) (s : State) : Reaches W s (decodeEnd s) := by
  unfold decodeEnd
  split
  · split
    · split <;> exact reaches_of_same W (by simp) (by simp)
    · exact reaches_of_same W rfl rfl
  · exact reaches_of_same W (by simp) (by simp)

theorem beginCommand_reaches (W : Nat → Prop) {i : Instr} {s t : State} (h : beginCommand i s = some t) :
    Reaches W s t := by
  rcases beginCommand_cases h with ⟨e, rfl⟩ | ⟨-, -, rfl⟩ | ⟨-, -, rfl⟩ | ⟨-, -, rfl⟩ | ⟨-, -, rfl⟩ <;>
    exact reaches_refl W s

/-! ### The reset input -/

/-- The destination range of the running command is that of a command that passes its checks, or empty. -/
theorem inDest_of_activeDest {s : State} {a : Nat} (h1 : (activeDest s).1 ≤ a)
    (h2 : a < (activeDest s).1 + (activeDest s).2) : ∃ i, InDest i s a := by
  unfold activeDest at h1 h2
  split at h1
  · rename_i i hi
    simp only [hi] at h2
    refine ⟨i, ?_, h1, h2⟩
    unfold activeInstr at hi
    split at hi
    · split at hi
      · split at hi
        · cases hi
        · rename_i hn
          cases hi
          simpa using hn
      · cases hi
    · cases hi
  · rename_i hi
    simp only [hi] at h2
    omega

/-- 70 R372: a reset leaves any values in the destination range of an aborted command, and only appends to the sink. -/
theorem resetInput_reaches (s : State) : Reaches (· < 2 ^ 32) s (resetInput s) := by
  unfold resetInput
  split
  · refine ⟨Touched.same.forgetRange _ fun t h1 h2 => ?_, List.prefix_append _ _⟩
    obtain ⟨i, hi⟩ := inDest_of_activeDest h1 h2
    exact hi.lt
  · exact reaches_refl _ s

/-! ### One step -/

/-- Every move but the host's opening of a sink reaches memory inside its bounds and the end of the sink. -/
theorem Move.reaches {s s₀ t : State} (h₀ : Taken s s₀) (hm : Move s s₀ t) :
    Reaches (Placed s₀) s₀ t ∨ ∃ c, s.inbox = .openSink c :: s₀.inbox ∧ t.mem = s₀.mem := by
  obtain ⟨ib, hd, d, rfl⟩ := h₀
  cases hm with
  | openSink c hi hb h => exact .inr ⟨c, hi, h ▸ rfl⟩
  | quiet h => exact .inl (h ▸ reaches_refl _ _)
  | writeArg i v h => exact .inl (reaches_of_same _ (h ▸ rfl) (h ▸ rfl))
  | issued v hb he h => exact .inl (reaches_of_same _ (h ▸ rfl) (h ▸ rfl))
  | writeMem a v h1 h2 h =>
    subst h
    exact .inl (reaches_of_touched (Touched.same.write (fun _ _ => a.isLt) v) rfl)
  | reset hi h => exact .inl (h ▸ (resetInput_reaches _).mono fun _ ha _ _ => ha)
  | command i hb hp hd h =>
    obtain ⟨op, ho, -⟩ := decodeCommand_ok hd
    exact .inl ((exec_reaches ho h).mono fun _ ha _ _ => ha.lt)
  | illegal hb hp hd h => exact .inl (reaches_of_same _ (h ▸ rfl) (h ▸ rfl))
  | begun i hb hp hd h => exact .inl (beginCommand_reaches _ h)
  | encoding hb hp h => exact .inl (h ▸ encodeStep_reaches hp)
  | channelEnd hb hp ho h => exact .inl (h ▸ decodeEnd_reaches _ _)
  | record i hb hp ho hf h => exact .inl (record_reaches hp hf h)
  | badRecord e hb hp ho hf h => exact .inl (reaches_of_same _ (h ▸ rfl) (h ▸ rfl))

/-- 20 R70, R72: a step changes memory byte by byte, inside the 2^32 bytes when the invariants of the running command hold, and
appends to the sink, unless the host opens another. -/
theorem step_reaches {s t : State} (h : step s = .next t) :
    Reaches (Placed s) s t ∨ ∃ c rest, s.inbox = .openSink c :: rest ∧ t.mem = s.mem := by
  obtain ⟨s₀, h₀, hm⟩ := step_cases h
  have hr := hm.reaches h₀
  obtain ⟨ib, hd, d, rfl⟩ := h₀
  exact hr.imp_right fun ⟨c, hi, he⟩ => ⟨c, ib, hi, he⟩

theorem step_touches {s t : State} (h : step s = .next t) : Touched (Placed s) s.mem t.mem := by
  rcases step_reaches h with ⟨hr, -⟩ | ⟨-, -, -, he⟩
  · exact hr
  · exact he ▸ .same

/-- Settles O48: every move but the opening of a sink appends to it or leaves it. -/
theorem sinkIsAppendOnly : Obligations.SinkIsAppendOnly := by
  intro s t h hn
  rcases step_reaches h with ⟨-, hs⟩ | ⟨c, rest, hi, -⟩
  · exact hs
  · exact (hn c rest hi).elim

/-- Settles O52: a write of a byte and its becoming a free value keep the canonical form. -/
theorem stepKeepsMemoryCanonical : Obligations.StepKeepsMemoryCanonical := fun _ _ hs h => (step_touches h).wf hs

/-- Settles O57: under the invariants of the running command every byte touched lies inside host memory. -/
theorem stepStaysInsideMemory : Obligations.StepStaysInsideMemory := fun _ _ _ hc hd he hf hs h =>
  (step_touches h).inSpace (fun _ ha => ha ⟨hc, hd⟩ ⟨he, hf⟩) hs

end Sys2Proof.Machine

/-!
## Instruction formats and encoding (30_encoding)

Each decoder is characterised once: it answers an instruction exactly on the code that the encoder gives it
(`decodeRecordForm_eq_ok_iff`, `decodeCommand_eq_ok_iff`). The round trip and the fetch of a record follow.
-/

namespace Sys2Proof.Machine

/-! ### Records (30 R100 to R103) -/

/-- A byte is its bit 7, which selects the record form, before its seven low bits (30 R101, R102). -/
theorem formBit_append_low (b : Byte) : (BitVec.ofBool (b.getLsbD 7) ++ b.extractLsb' 0 7 : BitVec (1 + 7)) = b := by
  revert b; decide

theorem encode_recShort_low {b0 : Byte} (h : b0.getLsbD 7 = false) (val : Byte) :
    encode (.recShort (b0.extractLsb' 0 7) val) = .stream [b0, val] := by
  have hb := formBit_append_low b0
  rw [h] at hb
  exact congrArg (fun b => Code.stream [b, val]) hb

theorem encode_recLong_low {b0 : Byte} (h : b0.getLsbD 7 = true) (lo val : Byte) :
    encode (.recLong (b0.extractLsb' 0 7) lo val) = .stream [b0, lo, val] := by
  have hb := formBit_append_low b0
  rw [h] at hb
  exact congrArg (fun b => Code.stream [b, lo, val]) hb

/-- The decoder reads a record form from its bytes, whatever follows. -/
theorem decodeRecordForm_encode_append {i : Instr} {code : List Byte} (h : encode i = .stream code) (rest : List Byte) :
    decodeRecordForm (code ++ rest) = .ok i := by
  cases i with
  | recShort len val => cases h; exact decodeRecordForm_short len val rest
  | recLong hi lo val => cases h; exact decodeRecordForm_long hi lo val rest
  | _ => cases h

/-- What the decoder reads from a stream is the record form whose bytes the stream begins with. -/
theorem encode_of_decodeRecordForm {bytes : List Byte} {i : Instr} (h : decodeRecordForm bytes = .ok i) :
    ∃ code rest, encode i = .stream code ∧ bytes = code ++ rest := by
  unfold decodeRecordForm at h
  split at h
  · cases h
  · rename_i b0 tail
    split at h
    · rename_i h7
      split at h <;> cases h
      exact ⟨_, _, encode_recLong_low h7 _ _, rfl⟩
    · rename_i h7
      split at h <;> cases h
      exact ⟨_, _, encode_recShort_low (Bool.eq_false_of_not_eq_true h7) _, rfl⟩

theorem decodeRecordForm_eq_ok_iff {bytes : List Byte} {i : Instr} :
    decodeRecordForm bytes = .ok i ↔ ∃ code rest, encode i = .stream code ∧ bytes = code ++ rest := by
  refine ⟨encode_of_decodeRecordForm, ?_⟩
  rintro ⟨code, rest, h, rfl⟩
  exact decodeRecordForm_encode_append h rest

/-! ### Commands (30 R114, R115) -/

/-- The instructions coded by a word are those with an opcode, and the word is the opcode zero-extended (30 R118). -/
theorem encode_eq_command_iff {i : Instr} {w : Word} :
    encode i = .command w ↔ ∃ op, opcode i = some op ∧ w = commandWord op := by
  cases i <;> simp [encode, opcode, eq_comm]

/-- The opcode map finds the command that has the opcode. -/
theorem decodeCommand_commandWord {i : Instr} {op : Byte} (h : opcode i = some op) :
    decodeCommand (commandWord op) = .ok i := by
  cases i <;> cases h <;> rfl

theorem decodeCommand_eq_ok_iff {w : Word} {i : Instr} : decodeCommand w = .ok i ↔ encode i = .command w := by
  rw [encode_eq_command_iff]
  refine ⟨decodeCommand_ok, ?_⟩
  rintro ⟨op, ho, rfl⟩
  exact decodeCommand_commandWord ho

/-! ### Both kinds of code -/

theorem decode_encode (i : Instr) : decode (encode i) = .ok i := by
  cases h : encode i with
  | stream code => exact decodeRecordForm_eq_ok_iff.2 ⟨code, [], h, (List.append_nil code).symm⟩
  | command w => exact decodeCommand_eq_ok_iff.2 h

/-- Settles O1: the round trip follows from what each decoder answers. -/
theorem decodingInvertsEncoding : Obligations.DecodingInvertsEncoding :=
  ⟨decode_encode, fun _ _ => decodeRecordForm_eq_ok_iff, fun _ _ => decodeCommand_eq_ok_iff⟩

/-- Settles O2: both decoders evaluate on the twelve codes. -/
theorem writtenOutWordsDecode : Obligations.WrittenOutWordsDecode := by
  unfold Obligations.WrittenOutWordsDecode
  decide

/-! ### The record at the cursor (41 R180, R183) -/

/-- Bytes that stand at the cursor, inside the stream, are what the stream goes on with. -/
theorem isPrefix_drop_view_of_holdsAt {m : Memory} {src len pos : Nat} {bs : List Byte} (h : HoldsAt m (src + pos) bs)
    (hl : pos + bs.length ≤ len) : bs <+: (m.view src 1 len).drop pos := by
  rw [List.prefix_iff_getElem?]
  intro t ht
  have hlt : pos + t < len := by omega
  simp [Memory.view, hlt, ← h t ht, Nat.add_assoc]

/-- The engine fetches the record form whose bytes stand at the cursor. -/
theorem fetchRecord_of_holdsAt {s : State} {bytes : List Byte} {i : Instr}
    (hm : HoldsAt s.mem ((decodeJob s).src + s.dec.pos) bytes) (hl : s.dec.pos + bytes.length ≤ (decodeJob s).len)
    (he : encode i = .stream bytes) : fetchRecord s = .ok i := by
  obtain ⟨rest, hr⟩ := isPrefix_drop_view_of_holdsAt hm hl
  rw [fetchRecord, decode, window_eq_drop_take, ← hr, decodeRecordForm_take]
  exact decodeRecordForm_encode_append he rest

theorem engineTurn_of_record {s : State} {i : Instr} (hb : s.busy = true) (hp : s.phase = .decode)
    (ho : 0 < s.dec.owed) (hf : fetchRecord s = .ok i) : engineTurn s = exec i s := by
  rw [engineTurn_decode hb hp, decodeStep_of_ok (Nat.ne_of_gt ho) hf]

/-- Settles O5: the engine's turn fetches the record at the cursor, and the host's pending actions are not read. -/
theorem stepRunsTheFetchedRecord : Obligations.StepRunsTheFetchedRecord := by
  intro s bytes i hb hp ho hm hl he
  have hf : fetchRecord s = .ok i := fetchRecord_of_holdsAt hm hl he
  refine ⟨fun hi => ?_, fun rest hi => ?_⟩
  · rw [step_of_empty hi, engineTurn_of_record hb hp ho hf]
  · rw [step_of_pending hi]
    exact engineTurn_of_record (s := { s with inbox := rest }) hb hp ho hf

end Sys2Proof.Machine

/-!
## The Run Encoder (40_run_encoder)

What EmitRecord returns, by length; what EncodeSeq does with a sample that goes on with the open run and with one that ends it,
and from that its closed form and its bound; then EMITREC and ENCCH, whose checks and ends are said once.
-/

namespace Sys2Proof.Machine

/-! ### EmitRecord (40 R140) -/

/-- The form bit in front of seven length bits, as a number (30 R101, R102). -/
theorem formBit_append_ofNat (f : BitVec 1) {n : Nat} (h : n ≤ 127) :
    (f ++ BitVec.ofNat 7 n : BitVec (1 + 7)) = BitVec.ofNat 8 (128 * f.toNat + n) := by
  apply BitVec.eq_of_toNat_eq
  rw [BitVec.toNat_append, ← Nat.shiftLeft_add_eq_or_of_lt (BitVec.isLt _), Nat.shiftLeft_eq]
  simp only [BitVec.toNat_ofNat]
  omega

/-- The low byte of a length (20 R77). -/
theorem lowByte_mod (n : Nat) : BitVec.ofNat 8 n = BitVec.ofNat 8 (n % 256) := by
  apply BitVec.eq_of_toNat_eq
  simp

theorem emitRecord_tooLong {len : Nat} (h : 32767 < len) (val : Byte) :
    emitRecord len val = .error (.lenTooLong, len) := by
  rw [emitRecord, if_neg (by omega), if_pos h]

theorem emitRecord_short {len : Nat} (h1 : 1 ≤ len) (h2 : len ≤ 127) (val : Byte) :
    emitRecord len val = .ok [BitVec.ofNat 8 len, val] := by
  have hb := formBit_append_ofNat 0#1 h2
  rw [emitRecord, if_neg (by omega), if_neg (by omega), if_pos h2, shortBytes, hb]
  simp

theorem emitRecord_long {len : Nat} (h1 : 128 ≤ len) (h2 : len ≤ 32767) (val : Byte) :
    emitRecord len val = .ok [BitVec.ofNat 8 (128 + len / 256), BitVec.ofNat 8 (len % 256), val] := by
  have hb := formBit_append_ofNat 1#1 (n := len / 256) (by omega)
  rw [emitRecord, if_neg (by omega), if_neg (by omega), if_neg (by omega), longBytes, hb, lowByte_mod len]
  rfl

/-- Settles O15: the four ranges of a length. -/
theorem emitRecordChoosesTheForm : Obligations.EmitRecordChoosesTheForm := fun _ val =>
  ⟨fun h => h ▸ emitRecord_zero val, fun h => emitRecord_tooLong h val, fun h1 h2 => emitRecord_short h1 h2 val,
    fun h1 h2 => emitRecord_long h1 h2 val⟩

/-- The record of a legal length, in the form of its width. -/
theorem emitRecord_legal {len : Nat} (h1 : 1 ≤ len) (h2 : len ≤ 32767) (val : Byte) :
    emitRecord len val = .ok (if len ≤ 127 then [BitVec.ofNat 8 len, val]
      else [BitVec.ofNat 8 (128 + len / 256), BitVec.ofNat 8 (len % 256), val]) := by
  split
  · exact emitRecord_short h1 ‹_› val
  · exact emitRecord_long (by omega) h2 val

/-! ### The segments of a run (40 R143) -/

theorem runSegments_length (v : Byte) (len : Nat) :
    (runSegments v len).length =
      3 * (len / 32767) + (if len % 32767 = 0 then 0 else if len % 32767 ≤ 127 then 2 else 3) := by
  have hfull : (List.replicate (len / 32767) [0xFF, 0xFF, v]).flatten.length = 3 * (len / 32767) := by
    simp [Nat.mul_comm]
  rw [runSegments, List.length_append, hfull]
  split
  · rfl
  · split <;> rfl

/-- Only a run of one sample takes two bytes a sample. -/
theorem runSegments_length_lt {len : Nat} (h : 2 ≤ len) (v : Byte) : (runSegments v len).length < 2 * len := by
  rw [runSegments_length]
  split
  · omega
  · split <;> omega

/-- A run longer than 32767 begins with a record of the largest length. -/
theorem runSegments_add_max (v : Byte) (len : Nat) :
    runSegments v (32767 + len) = [0xFF, 0xFF, v] ++ runSegments v len := by
  rw [runSegments, Nat.add_div_left _ (by omega), Nat.add_mod_left, List.replicate_succ, List.flatten_cons,
    List.append_assoc, ← runSegments]

/-- What ends a run that the encoder holds open is the segment of the run (40 R142). -/
theorem flushRun_eq {n : Nat} (h : n ≤ 32766) (v : Byte) : flushRun n v = .ok (runSegments v n) := by
  rw [runSegments, Nat.div_eq_of_lt (by omega), Nat.mod_eq_of_lt (by omega), List.replicate_zero, List.flatten_nil,
    List.nil_append, flushRun]
  split
  · rfl
  · rw [emitRecord_legal (by omega) (by omega)]
    split
    · rfl
    · rw [← lowByte_mod]

/-! ### One sample of EncodeSeq (40 R141, R142) -/

theorem encodeSeq_nil : encodeSeq [] = .ok [] := rfl

/-- The run value is not read while no run is open (10 R48). -/
theorem encodeFrom_zero (c : Byte) (s : List Byte) : encodeFrom 0 c s = encodeSeq s := by
  cases s <;> rfl

theorem encodeSeq_cons (x : Byte) (s : List Byte) : encodeSeq (x :: s) = encodeFrom 1 x s := by
  change (encodeFrom 1 x s).map ([] ++ ·) = encodeFrom 1 x s
  cases encodeFrom 1 x s <;> rfl

/-- A sample that goes on with the open run. -/
theorem encodeFrom_cons_same {n : Nat} (h : n ≠ 32766) (c : Byte) (s : List Byte) :
    encodeFrom n c (c :: s) = encodeFrom (n + 1) c s := by
  by_cases h0 : n = 0
  · rw [h0, encodeFrom_zero, encodeSeq_cons]
  · simp only [encodeFrom, encoderStep, h0, if_false, if_true, show n + 1 ≠ 32767 by omega]
    cases encodeFrom (n + 1) c s <;> rfl

/-- A sample that fills the open run up to the largest length. -/
theorem encodeFrom_cons_max {c : Byte} {s out : List Byte} (h : encodeSeq s = .ok out) :
    encodeFrom 32766 c (c :: s) = .ok ([0xFF, 0xFF, c] ++ out) := by
  have hr : emitRecord 32767 c = .ok [0xFF, 0xFF, c] := rfl
  simp [encodeFrom, encoderStep, hr, encodeFrom_zero, h, Except.map]

/-- A sample that ends the open run. -/
theorem encodeFrom_cons_ne {n : Nat} {c x : Byte} {s r out : List Byte} (hx : x ≠ c) (hr : flushRun n c = .ok r)
    (h : encodeSeq (x :: s) = .ok out) : encodeFrom n c (x :: s) = .ok (r ++ out) := by
  by_cases h0 : n = 0
  · subst h0
    cases hr
    rw [encodeFrom_zero, h, List.nil_append]
  · rw [flushRun, if_neg h0] at hr
    rw [encodeSeq_cons] at h
    simp [encodeFrom, encoderStep, h0, hx, hr, h, Except.map]

/-! ### The closed form (40 R143) -/

/-- A run that the next sample or the end of the channel ends gives its segment before the encoding of the rest. -/
theorem encodeFrom_run_ended {n : Nat} (hn : n ≤ 32766) {v : Byte} {rest out : List Byte}
    (hv : rest.head? ≠ some v) (h : encodeSeq rest = .ok out) :
    encodeFrom n v rest = .ok (runSegments v n ++ out) := by
  cases rest with
  | nil =>
    cases h
    rw [encodeFrom, flushRun_eq hn, List.append_nil]
  | cons x s =>
    have hx : x ≠ v := by simpa using hv
    exact encodeFrom_cons_ne hx (flushRun_eq hn v) h

/-- The same from inside a maximal run: `n` of its samples are open and `len` are to come. -/
theorem encodeFrom_run {n : Nat} (hn : n ≤ 32766) {v : Byte} {rest out : List Byte} (hv : rest.head? ≠ some v)
    (h : encodeSeq rest = .ok out) (len : Nat) :
    encodeFrom n v (List.replicate len v ++ rest) = .ok (runSegments v (n + len) ++ out) := by
  induction len generalizing n with
  | zero => exact encodeFrom_run_ended hn hv h
  | succ len ih =>
    rw [List.replicate_succ, List.cons_append]
    by_cases hm : n = 32766
    · have h0 := ih (n := 0) (by omega)
      rw [encodeFrom_zero, Nat.zero_add] at h0
      rw [hm, encodeFrom_cons_max h0, show 32766 + (len + 1) = 32767 + len by omega, runSegments_add_max,
        List.append_assoc]
    · rw [encodeFrom_cons_same hm, ih (by omega), Nat.add_right_comm, Nat.add_assoc]

/-- Settles O17: a maximal run is encoded from the state in which none of it is open. -/
theorem encodeSeqClosedForm : Obligations.EncodeSeqClosedForm := by
  refine ⟨encodeSeq_nil, fun v len rest out _ hv h => ?_, runSegments_length⟩
  rw [← encodeFrom_zero v, encodeFrom_run (by omega) hv h, Nat.zero_add]

/-! ### The bound (40 R144) -/

theorem encodeSeq_total (s : List Byte) : ∃ out, encodeSeq s = .ok out := by
  obtain ⟨rs, h, -⟩ := encodeSeq_spec s
  exact ⟨_, h⟩

theorem encodeSeq_length_le {s out : List Byte} (h : encodeSeq s = .ok out) : out.length ≤ 2 * s.length := by
  have hl := encodeFrom_length_le (Nat.zero_le _) h
  rwa [Nat.zero_add] at hl

/-- An open run of two samples or more keeps the output below two bytes a sample. -/
theorem encodeFrom_length_lt {n : Nat} (h2 : 2 ≤ n) (hn : n ≤ 32766) {c : Byte} {s out : List Byte}
    (h : encodeFrom n c s = .ok out) : out.length < 2 * (n + s.length) := by
  induction s generalizing n out with
  | nil =>
    rw [encodeFrom, flushRun_eq hn] at h
    cases h
    exact runSegments_length_lt h2 c
  | cons x s ih =>
    by_cases hx : x = c
    · subst hx
      by_cases hm : n = 32766
      · obtain ⟨o, ho⟩ := encodeSeq_total s
        have hl := encodeSeq_length_le ho
        rw [hm, encodeFrom_cons_max ho] at h
        cases h
        simp only [List.length_append, List.length_cons, List.length_nil]
        omega
      · rw [encodeFrom_cons_same hm] at h
        have hl := ih (by omega) (by omega) h
        rw [List.length_cons]
        omega
    · obtain ⟨o, ho⟩ := encodeSeq_total (x :: s)
      have hl := encodeSeq_length_le ho
      have hr := runSegments_length_lt h2 c
      rw [encodeFrom_cons_ne hx (flushRun_eq hn c) ho] at h
      cases h
      rw [List.length_append]
      omega

/-- From an open run of one sample, two bytes a sample are taken exactly when every maximal run has length 1. -/
theorem encodeFrom_one_length_eq_iff {c : Byte} {s out : List Byte} (h : encodeFrom 1 c s = .ok out) :
    out.length = 2 * (c :: s).length ↔ Alternating (c :: s) := by
  induction s generalizing c out with
  | nil =>
    rw [encodeFrom, flushRun_eq (by omega)] at h
    cases h
    simp [runSegments_length]
  | cons x s ih =>
    obtain ⟨o, ho⟩ := encodeSeq_total (x :: s)
    by_cases hx : x = c
    · subst hx
      rw [encodeFrom_cons_same (by omega)] at h
      have hlt := encodeFrom_length_lt (by omega) (by omega) h
      have hne : ¬ Alternating (x :: x :: s) := fun ha => (List.isChain_cons_cons.1 ha).1 rfl
      simp only [hne, iff_false, List.length_cons]
      omega
    · rw [encodeFrom_cons_ne hx (flushRun_eq (by omega) c) ho] at h
      cases h
      rw [encodeSeq_cons] at ho
      have hr : (runSegments c 1).length = 2 := runSegments_length c 1
      have ha : Alternating (c :: x :: s) ↔ Alternating (x :: s) :=
        List.isChain_cons_cons.trans (and_iff_right (Ne.symm hx))
      rw [ha, ← ih ho, List.length_append, hr, List.length_cons]
      omega

/-- Settles O18: the first sample opens a run of length 1. -/
theorem encodeSeqOutputBound : Obligations.EncodeSeqOutputBound := by
  intro s out h
  refine ⟨encodeSeq_length_le h, ?_⟩
  cases s with
  | nil => cases h; simp
  | cons x s => exact encodeFrom_one_length_eq_iff (encodeSeq_cons x s ▸ h)

/-! ### EMITREC (40 R146) -/

/-- A command that makes a first error reports it, and has no other effect (60 R336). -/
theorem guarded_next_reports {cs : List (Bool × BlockError)} {e : BlockError} (body : State → State) (s : State)
    (h : firstError cs = some e) :
    ∃ t, (.next (guarded cs body s) : Host.Outcome State Fault Refusal) = .next t ∧
      OnlyReported (errorCode e).toNat (errorSub e) (errorChannel e) (errorArgIdx e) (errorInfo s.running.args e) s t :=
  ⟨_, rfl, guarded_reports body s h⟩

theorem emitrecChecks_eq_none_iff {a : Fin 8 → Nat} :
    firstError (emitrecChecks a) = none ↔
      1 ≤ a 0 ∧ a 0 ≤ 32767 ∧ widthOf (a 0) ≤ a 3 ∧ a 2 + a 3 ≤ 2 ^ 32 := by
  simp [firstError_eq_none, emitrecChecks, Nat.one_le_iff_ne_zero]

/-- The low byte of an argument, as EMITREC takes its value (40 R146). -/
theorem argWord_low_byte (s : State) (i : Fin 8) : (s.argWord i).extractLsb' 0 8 = BitVec.ofNat 8 (s.arg i) := by
  apply BitVec.eq_of_toNat_eq
  simp [State.argWord, State.arg]

/-- The end of EMITREC with a legal length. -/
theorem emitrecBody_of_ok {s : State} {r : List Byte}
    (h : emitRecord (s.arg 0) (BitVec.ofNat 8 (s.arg 1)) = .ok r) :
    emitrecBody s =
      complete (({ s with mem := s.mem.writeBytes (s.arg 2) r }).setRes 0 (BitVec.ofNat 32 r.length)) := by
  simp only [emitrecBody, argWord_low_byte, h]

/-- Settles O19: the checks pass, EmitRecord gives the record, and the end of the command writes it. -/
theorem emitrecWritesOneRecord : Obligations.EmitrecWritesOneRecord := by
  intro s h1 h2 h3 h4
  have hc : firstError (emitrecChecks s.arg) = none := emitrecChecks_eq_none_iff.2 ⟨h1, h2, h3, h4⟩
  have hr := emitRecord_legal h1 h2 (BitVec.ofNat 8 (s.arg 1))
  refine ⟨_, _, ?_, rfl, written_spec s (s.arg 2) _ _⟩
  rw [exec, execEmitrec, guarded_of_none hc, emitrecBody_of_ok hr]

/-- An argument as a register value is that of its number. -/
theorem ofNat_arg (s : State) (i : Fin 8) : BitVec.ofNat 32 (s.arg i) = s.argWord i := by
  simp [State.arg, State.argWord]

/-- Settles O20: the first check that fails is the one whose range the operands are in. -/
theorem emitrecReportsItsFirstError : Obligations.EmitrecReportsItsFirstError := by
  intro s
  refine ⟨fun h => ?_, fun h => ?_, fun h1 h2 h3 => ?_, fun h1 h2 h3 h4 => ?_⟩
  · have hc : firstError (emitrecChecks s.arg) = some (.encInvariant .lenZero (s.arg 0)) := by
      simp [emitrecChecks, firstError_cons, h]
    rw [← ofNat_arg]
    exact guarded_next_reports emitrecBody s hc
  · have hc : firstError (emitrecChecks s.arg) = some (.encInvariant .lenTooLong (s.arg 0)) := by
      simp [emitrecChecks, firstError_cons, h, show s.arg 0 ≠ 0 by omega]
    rw [← ofNat_arg]
    exact guarded_next_reports emitrecBody s hc
  · have hw : s.arg 3 < widthOf (s.arg 0) := h3
    have hc : firstError (emitrecChecks s.arg) = some (.argument .capacity 3) := by
      simp [emitrecChecks, firstError_cons, hw, show s.arg 0 ≠ 0 by omega, Nat.not_lt.2 h2]
    exact guarded_next_reports emitrecBody s hc
  · have hw : widthOf (s.arg 0) ≤ s.arg 3 := h3
    have hc : firstError (emitrecChecks s.arg) = some (.argument .rangeWrap 2) := by
      simp [emitrecChecks, firstError_cons, show s.arg 0 ≠ 0 by omega, Nat.not_lt.2 h2, Nat.not_lt.2 hw,
        wraps_eq_true.2 h4]
    exact guarded_next_reports emitrecBody s hc

/-! ### ENCCH (40 R147) -/

theorem encchChecks_eq_none_iff {maxPixels : Nat} {a : Fin 8 → Nat} :
    firstError (encchChecks maxPixels a) = none ↔
      (a 1 = 1 ∨ a 1 = 4) ∧ a 2 ≤ maxPixels ∧ 2 * a 2 ≤ a 4 ∧ a 0 + span (a 1) (a 2) ≤ 2 ^ 32 ∧
        a 3 + a 4 ≤ 2 ^ 32 ∧
        (span (a 1) (a 2) = 0 ∨ a 4 = 0 ∨ a 3 + a 4 ≤ a 0 ∨ a 0 + span (a 1) (a 2) ≤ a 3) := by
  simp [firstError_eq_none, encchChecks]

/-- The end of ENCCH. -/
theorem encchBody_of_ok {s : State} {out : List Byte}
    (h : encodeSeq (s.mem.view (s.arg 0) (s.arg 1) (s.arg 2)) = .ok out) :
    encchBody s =
      complete (({ s with mem := s.mem.writeBytes (s.arg 3) out }).setRes 0 (BitVec.ofNat 32 out.length)) := by
  simp only [encchBody, h]

theorem span_zero (stride : Nat) : span stride 0 = 0 := rfl

theorem span_of_ne_zero (stride : Nat) {count : Nat} (h : count ≠ 0) :
    span stride count = stride * (count - 1) + 1 := if_neg h

/-- Settles O21: the checks pass, EncodeSeq encodes the view, and the end of the command writes the records. -/
theorem encchEncodesItsView : Obligations.EncchEncodesItsView := by
  intro s hs hn hcap hsrc hdst hov
  have hc : firstError (encchChecks s.params.maxPixels s.arg) = none := by
    rw [encchChecks_eq_none_iff]
    by_cases h0 : s.arg 2 = 0
    · have ha : s.arg 0 < 2 ^ 32 := (s.running.args[(0 : Fin 8)]).isLt
      rw [h0, span_zero, Nat.add_zero]
      exact ⟨hs, by omega, by omega, Nat.le_of_lt ha, hdst, .inl rfl⟩
    · rw [span_of_ne_zero _ h0]
      exact ⟨hs, hn, hcap, hsrc.resolve_left h0, hdst, .inr (hov.resolve_left h0)⟩
  obtain ⟨out, ho⟩ := encodeSeq_total (s.mem.view (s.arg 0) (s.arg 1) (s.arg 2))
  refine ⟨_, out, ?_, ho, written_spec s (s.arg 3) out _⟩
  rw [exec, execEncch, guarded_of_none hc, encchBody_of_ok ho]

/-- Settles O22: the first check that fails is the one the case is about. -/
theorem encchReportsItsFirstError : Obligations.EncchReportsItsFirstError := by
  rintro s _ rfl
  rw [← span]
  have reports {e : BlockError} (hc : firstError (encchChecks s.params.maxPixels s.arg) = some e) :=
    guarded_next_reports encchBody s hc
  refine ⟨fun h => ?_, fun hs => ⟨fun h => ?_, fun h1 h => ?_, fun h1 h2 h => ?_, fun h1 h2 h3 h => ?_,
    fun h1 h2 h3 h4 h5 h6 h7 h8 => ?_⟩⟩
  · refine reports (e := .argument .badStride 1) ?_
    simp [encchChecks, firstError_cons, h]
  · refine reports (e := .argument .countRange 2) ?_
    simp [encchChecks, firstError_cons, hs, h]
  · refine reports (e := .argument .capacity 4) ?_
    simp [encchChecks, firstError_cons, hs, h, Nat.not_lt.2 h1]
  · refine reports (e := .argument .rangeWrap 0) ?_
    simp [encchChecks, firstError_cons, hs, Nat.not_lt.2 h1, Nat.not_lt.2 h2, wraps_eq_true.2 h]
  · refine reports (e := .argument .rangeWrap 3) ?_
    simp [encchChecks, firstError_cons, hs, Nat.not_lt.2 h1, Nat.not_lt.2 h2, wraps_eq_false.2 h3, wraps_eq_true.2 h]
  · refine reports (e := .argument .overlap 3) ?_
    simp [encchChecks, firstError_cons, hs, Nat.not_lt.2 h1, Nat.not_lt.2 h2, wraps_eq_false.2 h3, wraps_eq_false.2 h4,
      overlaps_eq_true.2 ⟨h5, h6, h7, h8⟩]

/-! ### The invariant (40 R149) -/

/-- A command none of whose checks is a record length's, and whose body makes no error, reports no code 1. -/
theorem guarded_errCode_ne_one {cs : List (Bool × BlockError)} {body : State → State} {s : State}
    (hc : ∀ e ∈ cs.map Prod.snd, errorCode e ≠ 1) (hb : (body s).err = s.err) (hs : s.err = false)
    (ht : (guarded cs body s).err = true) : (guarded cs body s).errCode ≠ 1 := by
  rcases guarded_cases cs body s with ⟨-, hg⟩ | ⟨e, he, -, hg⟩
  · rw [hg, hb, hs] at ht
    cases ht
  · rw [hg]
    exact hc e he

theorem encchBody_err (s : State) : (encchBody s).err = s.err := by
  obtain ⟨out, ho⟩ := encodeSeq_total (s.mem.view (s.arg 0) (s.arg 1) (s.arg 2))
  rw [encchBody_of_ok ho]
  rfl

theorem cmpfrBody_err (s : State) : (cmpfrBody s).err = s.err := by
  obtain ⟨outs, ho, -⟩ := compressChannels_spec s.mem (s.arg 0) (s.arg 1) [0, 1, 2, 3]
  simp only [cmpfrBody, ho]
  rfl

/-- Settles O16: EncodeSeq is total, so ENCCH and CMPFR report an error of their checks only. -/
theorem encoderKeepsItsInvariant : Obligations.EncoderKeepsItsInvariant := by
  refine ⟨encodeSeq_total, fun s t h ht hs => ?_, fun s t h ht hs => ?_⟩
  · cases h
    exact guarded_errCode_ne_one (by simp [encchChecks, errorCode]) (encchBody_err s) hs ht
  · cases h
    exact guarded_errCode_ne_one (by simp [cmpfrChecks, errorCode]) (cmpfrBody_err s) hs ht

end Sys2Proof.Machine

/-!
## The Run Decoder (41_run_decoder)

What DecodeRecord answers, by the first bytes; what one record form does as an instruction; where a channel decode over legal
records ends, by what follows them (`decodeChannel_complete`, `decodeChannel_stops`); then DECCH, whose ends are said once.
-/

namespace Sys2Proof.Machine

/-! ### The illegal lengths (30 R104, 41 R180) -/

theorem recordError_of_len_zero (rej : Bool) {r : Record} (h : r.len = 0) : recordError rej r = some .zeroLength :=
  if_pos h

theorem recordError_of_nonCanonical {rej : Bool} {r : Record} (h1 : 1 ≤ r.len) (h2 : r.len < 128) (hw : r.width = 3)
    (hr : rej = true) : recordError rej r = some .nonCanonical := by
  rw [recordError, if_neg (by omega), if_pos ⟨hw, h2, hr⟩]

theorem recordError_eq_none {rej : Bool} {r : Record} (h1 : 1 ≤ r.len) (h : r.width = 3 → 128 ≤ r.len ∨ rej = false) :
    recordError rej r = none := by
  have hc : ¬ (r.width = 3 ∧ r.len < 128 ∧ rej = true) := by
    rintro ⟨hw, h2, hr⟩
    rcases h hw with h3 | h3
    · omega
    · exact absurd hr (h3 ▸ Bool.false_ne_true)
  rw [recordError, if_neg (by omega), if_neg hc]

/-! ### DecodeRecord (41 R180) -/

/-- 30 R106: byte0 says which form the record has. -/
theorem formBit_eq_true_iff (b : Byte) : b.getLsbD 7 = true ↔ 128 ≤ b.toNat := by
  revert b; decide

theorem decodeRecordForm_singleton (b0 : Byte) : decodeRecordForm [b0] = .error .truncated := by
  simp [decodeRecordForm]

theorem decodeRecordForm_pair_long {b0 : Byte} (h : 128 ≤ b0.toNat) (b1 : Byte) :
    decodeRecordForm [b0, b1] = .error .truncated := by
  simp only [decodeRecordForm, if_pos ((formBit_eq_true_iff b0).2 h)]

theorem decodeRecordForm_of_short {b0 : Byte} (h : b0.toNat < 128) (b1 : Byte) (rest : List Byte) :
    decodeRecordForm (b0 :: b1 :: rest) = .ok (.recShort (b0.extractLsb' 0 7) b1) := by
  simp only [decodeRecordForm, if_neg (mt (formBit_eq_true_iff b0).1 (Nat.not_le.2 h))]

theorem decodeRecordForm_of_long {b0 : Byte} (h : 128 ≤ b0.toNat) (b1 b2 : Byte) (rest : List Byte) :
    decodeRecordForm (b0 :: b1 :: b2 :: rest) = .ok (.recLong (b0.extractLsb' 0 7) b1 b2) := by
  simp only [decodeRecordForm, if_pos ((formBit_eq_true_iff b0).2 h)]

/-- The length of a long record, high byte first (30 R103). -/
theorem recordOf_recLong (hi : BitVec 7) (lo val : Byte) :
    recordOf (.recLong hi lo val) = ⟨256 * hi.toNat + lo.toNat, val, 3⟩ := by
  have hlen : (hi ++ lo : BitVec (7 + 8)).toNat = 256 * hi.toNat + lo.toNat := by
    rw [BitVec.toNat_append, ← Nat.shiftLeft_add_eq_or_of_lt lo.isLt, Nat.shiftLeft_eq, Nat.mul_comm]
  rw [recordOf, hlen]

/-- The length of a short record is byte0 (30 R103). -/
theorem recordOf_short_low {b0 : Byte} (h : b0.toNat < 128) (val : Byte) :
    recordOf (.recShort (b0.extractLsb' 0 7) val) = ⟨b0.toNat, val, 2⟩ := by
  simp [recordOf, Nat.mod_eq_of_lt h]

/-- The length of a long record is byte0 without its form bit, then byte1 (30 R103). -/
theorem recordOf_long_low {b0 : Byte} (h : 128 ≤ b0.toNat) (lo val : Byte) :
    recordOf (.recLong (b0.extractLsb' 0 7) lo val) = ⟨256 * (b0.toNat - 128) + lo.toNat, val, 3⟩ := by
  have hlow : (b0.extractLsb' 0 7).toNat = b0.toNat - 128 := by
    simp only [BitVec.extractLsb'_toNat]
    omega
  rw [recordOf_recLong, hlow]

theorem decodeRecord_of_form_error {rej : Bool} {bs : List Byte} {e : DecodeReject} (h : decodeRecordForm bs = .error e) :
    decodeRecord rej bs = .error (streamError e) := by
  simp only [decodeRecord, h]

theorem decodeRecord_of_illegal {rej : Bool} {bs : List Byte} {i : Instr} {f : FormatSub}
    (h : decodeRecordForm bs = .ok i) (he : recordError rej (recordOf i) = some f) : decodeRecord rej bs = .error f := by
  simp only [decodeRecord, h, he]

/-- Settles O28: the form that the bytes hold, and then the check of its length. -/
theorem decodeRecordReadsLengthValueWidth : Obligations.DecodeRecordReadsLengthValueWidth := by
  intro rej b0 b1 b2 rest
  refine ⟨rfl, decodeRecord_of_form_error (decodeRecordForm_singleton b0),
    fun h => decodeRecord_of_form_error (decodeRecordForm_pair_long h b1), fun h => ?_, fun h1 h2 => ?_, ?_⟩
  · have hs : b0.toNat < 128 := by omega
    exact decodeRecord_of_illegal (decodeRecordForm_of_short hs b1 rest)
      (recordError_of_len_zero rej (by rw [recordOf_short_low hs, h]))
  · have hs : b0.toNat < 128 := by omega
    rw [decodeRecord_of_form (decodeRecordForm_of_short hs b1 rest), recordOf_short_low hs]
    rw [recordOf_short_low hs]
    exact recordError_eq_none h1 nofun
  · rintro hl len rfl
    have hf := decodeRecordForm_of_long hl b1 b2 rest
    have hr := recordOf_long_low hl b1 b2
    refine ⟨fun h => ?_, fun h1 h2 hrej => ?_, fun h1 h2 => ?_⟩
    · exact decodeRecord_of_illegal hf (hr ▸ recordError_of_len_zero rej h)
    · exact decodeRecord_of_illegal hf (hr ▸ recordError_of_nonCanonical h1 (Nat.lt_succ_of_le h2) rfl hrej)
    · rw [decodeRecord_of_form hf (hr ▸ recordError_eq_none h1 fun _ => h2), hr]

/-! ### One record as an instruction (41 R181, R182) -/

theorem runRecord_of_illegal {r : Record} {s : State} {f : FormatSub}
    (h : recordError s.params.decRejectNoncanonical r = some f) :
    runRecord r s = raise (.format f s.frame.ch s.dec.pos) s := by
  simp only [runRecord, h]

theorem runRecord_of_overshoot {r : Record} {s : State} (h : recordError s.params.decRejectNoncanonical r = none)
    (ho : s.dec.owed < r.len) : runRecord r s = raise (.format .overshoot s.frame.ch s.dec.pos) s := by
  simp only [runRecord, h, if_pos ho]

theorem runRecord_of_legal {r : Record} {s : State} (h : recordError s.params.decRejectNoncanonical r = none)
    (ho : r.len ≤ s.dec.owed) :
    runRecord r s =
      { s with
        mem := s.mem.fillSlots (decodeJob s).dst (decodeJob s).stride r.val s.dec.j r.len
        dec := advance r s.dec } := by
  simp only [runRecord, h, if_neg (Nat.not_lt.2 ho)]

/-- A record that is legal and fits the owed count fills its slots, advances the decoder, and has no other effect. -/
theorem runRecord_fills {r : Record} {s : State} (h : recordError s.params.decRejectNoncanonical r = none)
    (ho : r.len ≤ s.dec.owed) (hs : 0 < (decodeJob s).stride) :
    (∀ k < r.len, (runRecord r s).mem.read ((decodeJob s).dst + (decodeJob s).stride * (s.dec.j + k)) = r.val) ∧
      (∀ a, (∀ k < r.len, a ≠ (decodeJob s).dst + (decodeJob s).stride * (s.dec.j + k)) →
        (runRecord r s).mem.read a = s.mem.read a) ∧
      (runRecord r s).dec = advance r s.dec ∧ { runRecord r s with mem := s.mem, dec := s.dec } = s := by
  rw [runRecord_of_legal h ho]
  refine ⟨fun k hk => read_fillSlots_inside _ hs (by omega) (by omega) _,
    fun a ha => read_fillSlots_outside _ (fun t h1 h2 => ?_) _, rfl, rfl⟩
  have := ha (t - s.dec.j) (by omega)
  rwa [Nat.add_sub_cancel' h1] at this

/-- Settles O23: both forms are records of a legal length. -/
theorem recordsFillTheirSlots : Obligations.RecordsFillTheirSlots := by
  refine ⟨fun s len val h0 ho hs => ?_, ?_⟩
  · have h1 : 1 ≤ len.toNat := Nat.one_le_iff_ne_zero.2 fun h => h0 (BitVec.eq_of_toNat_eq h)
    exact ⟨_, rfl, runRecord_fills (r := recordOf (.recShort len val)) (recordError_eq_none h1 nofun) ho hs⟩
  · rintro s hi lo val _ rfl h1 h2 ho hs
    refine ⟨_, rfl, ?_⟩
    rw [recordOf_recLong]
    exact runRecord_fills (r := ⟨_, val, 3⟩) (recordError_eq_none h1 fun _ => h2) ho hs

/-- A record that fails has reported its error at the cursor, and has no other effect (60 R336). -/
theorem runRecord_reports {r : Record} {s : State} {f : FormatSub}
    (h : recordError s.params.decRejectNoncanonical r = some f ∨
      (recordError s.params.decRejectNoncanonical r = none ∧ s.dec.owed < r.len ∧ f = .overshoot)) :
    OnlyReported 2 (formatSubCode f) s.frame.ch.val 0 (BitVec.ofNat 32 s.dec.pos) s (runRecord r s) := by
  rcases h with h | ⟨h, ho, rfl⟩
  · rw [runRecord_of_illegal h]
    exact raise_spec _ s
  · rw [runRecord_of_overshoot h ho]
    exact raise_spec _ s

/-- Settles O24: each record fails the check that the case is about, before its writes. -/
theorem illegalRecordsWriteNothing : Obligations.IllegalRecordsWriteNothing := by
  refine ⟨fun s val => ⟨_, rfl, ?_⟩, fun s val => ⟨_, rfl, ?_⟩, fun s lo val hrej h1 h2 => ⟨_, rfl, ?_⟩,
    fun s len val ho => ⟨_, rfl, ?_⟩, fun s hi lo val ho hl => ⟨_, rfl, ?_⟩⟩
  · exact runRecord_reports (f := .zeroLength) (.inl (recordError_of_len_zero _ rfl))
  · exact runRecord_reports (f := .zeroLength) (.inl (recordError_of_len_zero _ rfl))
  · rw [recordOf_recLong]
    exact runRecord_reports (f := .nonCanonical)
      (.inl (recordError_of_nonCanonical (by simpa using h1) (by simpa using Nat.lt_succ_of_le h2) rfl hrej))
  · exact runRecord_reports (f := .overshoot) (.inr ⟨recordError_eq_none (Nat.one_le_of_lt ho) nofun, ho, rfl⟩)
  · rw [recordOf_recLong]
    exact runRecord_reports (f := .overshoot)
      (.inr ⟨recordError_eq_none (Nat.one_le_of_lt ho) fun _ => hl, ho, rfl⟩)

/-! ### Where a channel decode over legal records ends (41 R183, R186) -/

/-- The next record of a stream fails: it is not read, or it is longer than the owed count (41 R180, R183). -/
abbrev RecordFails (rej : Bool) (bytes : List Byte) (owed : Nat) (f : FormatSub) : Prop :=
  decodeRecord rej bytes = .error f ∨ ∃ r, decodeRecord rej bytes = .ok r ∧ owed < r.len ∧ f = .overshoot

/-- A channel decode at a failing record ends there. -/
theorem decodeChannel_of_recordFails {rej : Bool} {stream : Nat → List Byte} {d : DecState} {f : FormatSub}
    (ho : d.owed ≠ 0) (h : RecordFails rej (stream d.pos) d.owed f) (dst stride fuel : Nat) (m : Memory) :
    decodeChannel rej stream dst stride (fuel + 1) m d = ⟨m, d, some f⟩ := by
  rcases h with h | ⟨r, h, hr, rfl⟩
  · simp only [decodeChannel, ho, if_false, h]
  · simp only [decodeChannel, ho, if_false, h, if_pos hr]

section
variable {rej : Bool} {rs : List Instr} (hl : rs.all (legalRecord rej) = true)
include hl

/-- Legal records for exactly the samples owed, with whatever bytes after them. -/
theorem decodeChannel_complete (rest : List Byte) {fuel : Nat} (hf : rs.length ≤ fuel) (dst stride : Nat) (m : Memory) :
    decodeChannel rej (listStream (streamOf rs ++ rest)) dst stride fuel m ⟨0, (samplesOf rs).length, 0⟩ =
      ⟨fillRecords m dst stride 0 rs, ⟨(streamOf rs).length, 0, (samplesOf rs).length⟩, none⟩ := by
  rw [← Nat.add_sub_cancel' hf, decodeChannel_records hl (rest := rest) rfl (le_refl _), Nat.sub_self,
    decodeChannel_done, Nat.zero_add, Nat.zero_add]

/-- Legal records for fewer samples than are owed, and then one that fails. -/
theorem decodeChannel_stops {rest : List Byte} {owed : Nat} {f : FormatSub} (ho : (samplesOf rs).length < owed)
    (h : RecordFails rej rest (owed - (samplesOf rs).length) f) {fuel : Nat} (hf : rs.length < fuel)
    (dst stride : Nat) (m : Memory) :
    decodeChannel rej (listStream (streamOf rs ++ rest)) dst stride fuel m ⟨0, owed, 0⟩ =
      ⟨fillRecords m dst stride 0 rs,
        ⟨(streamOf rs).length, owed - (samplesOf rs).length, (samplesOf rs).length⟩, some f⟩ := by
  have hb : decodeRecord rej (listStream (streamOf rs ++ rest) (streamOf rs).length) = decodeRecord rej rest := by
    rw [listStream, decodeRecord_take, List.drop_left]
  obtain ⟨n, rfl⟩ : ∃ n, fuel = rs.length + (n + 1) := ⟨fuel - rs.length - 1, by omega⟩
  rw [decodeChannel_records hl (rest := rest) rfl (Nat.le_of_lt ho), Nat.zero_add, Nat.zero_add]
  refine decodeChannel_of_recordFails (by simp only; omega) ?_ _ _ _ _
  simpa only [RecordFails, hb] using h

end

/-! ### Cut encodings (41 R189) -/

/-- A proper part of a record's bytes, from the first on, is no record: none of them is EXHAUSTED, some are TRUNCATED. -/
theorem decodeRecord_take_recordBytes {rej : Bool} {i : Instr} {n : Nat} (hn : n < (recordBytes i).length) :
    decodeRecord rej ((recordBytes i).take n) = .error (if n = 0 then .exhausted else .truncated) := by
  by_cases h0 : n = 0
  · rw [h0, List.take_zero, if_pos rfl]
    rfl
  rw [if_neg h0]
  refine decodeRecord_of_form_error (e := .truncated) ?_
  cases i with
  | recShort len val =>
    have hn' : n < 2 := hn
    obtain rfl : n = 1 := by omega
    exact decodeRecordForm_singleton _
  | recLong hi lo val =>
    have hn' : n < 3 := hn
    have h7 : 128 ≤ (1#1 ++ hi : BitVec (1 + 7)).toNat := by
      rw [BitVec.toNat_append]
      exact Nat.left_le_or
    obtain rfl | rfl : n = 1 ∨ n = 2 := by omega
    · exact decodeRecordForm_singleton _
    · exact decodeRecordForm_pair_long h7 _
  | _ => exact absurd hn (Nat.not_lt_zero n)

/-- A cut inside the stream falls into one of its records, or on the boundary before it. -/
theorem exists_record_at_cut {rs : List Instr} {cut : Nat} (h : cut < (streamOf rs).length) :
    ∃ rs₁ i rs₂, rs = rs₁ ++ i :: rs₂ ∧ (streamOf rs₁).length ≤ cut ∧
      cut < (streamOf rs₁).length + (recordBytes i).length := by
  induction rs generalizing cut with
  | nil => exact absurd h (Nat.not_lt_zero cut)
  | cons i rs ih =>
    by_cases hi : cut < (recordBytes i).length
    · exact ⟨[], i, rs, rfl, Nat.zero_le _, by simpa using hi⟩
    · rw [streamOf_cons, List.length_append] at h
      obtain ⟨rs₁, i', rs₂, rfl, h1, h2⟩ := ih (cut := cut - (recordBytes i).length) (by omega)
      refine ⟨i :: rs₁, i', rs₂, rfl, ?_, ?_⟩ <;>
      · rw [streamOf_cons, List.length_append]
        omega

/-- A cut stream is the records before the cut and the first bytes of the record that the cut falls into. -/
theorem take_streamOf_append_cons {rs₁ rs₂ : List Instr} {i : Instr} {cut : Nat} (h1 : (streamOf rs₁).length ≤ cut)
    (h2 : cut < (streamOf rs₁).length + (recordBytes i).length) :
    (streamOf (rs₁ ++ i :: rs₂)).take cut =
      streamOf rs₁ ++ (recordBytes i).take (cut - (streamOf rs₁).length) := by
  rw [streamOf_append, List.take_append, List.take_of_length_le h1, streamOf_cons, List.take_append,
    Nat.sub_eq_zero_of_le (Nat.sub_le_iff_le_add'.2 (Nat.le_of_lt h2)), List.take_zero, List.append_nil]

/-- A cut channel fails at the record that the cut falls into, at its offset. -/
theorem decodeChannel_cut {rej : Bool} {rs₁ rs₂ : List Instr} {i : Instr} {cut fuel : Nat}
    (hl : (rs₁ ++ i :: rs₂).all (legalRecord rej) = true) (h1 : (streamOf rs₁).length ≤ cut)
    (h2 : cut < (streamOf rs₁).length + (recordBytes i).length) (hf : cut < fuel) (dst stride : Nat) (m : Memory) :
    let r := decodeChannel rej (listStream ((streamOf (rs₁ ++ i :: rs₂)).take cut)) dst stride fuel m
      ⟨0, (samplesOf (rs₁ ++ i :: rs₂)).length, 0⟩
    r.dec.pos = (streamOf rs₁).length ∧
      r.err = some (if cut = (streamOf rs₁).length then .exhausted else .truncated) := by
  simp only [List.all_append, List.all_cons, Bool.and_eq_true] at hl
  obtain ⟨hl₁, hi, -⟩ := hl
  obtain ⟨-, -, hlen, -, -⟩ := legalRecord_spec hi
  have hrs := length_le_streamOf hl₁
  have howed : (samplesOf rs₁).length < (samplesOf (rs₁ ++ i :: rs₂)).length := by
    simp only [samplesOf_append, samplesOf_cons, List.length_append, List.length_replicate]
    omega
  have hfail := decodeRecord_take_recordBytes (rej := rej) (i := i) (n := cut - (streamOf rs₁).length) (by omega)
  simp only [show cut - (streamOf rs₁).length = 0 ↔ cut = (streamOf rs₁).length by omega] at hfail
  rw [take_streamOf_append_cons h1 h2, decodeChannel_stops hl₁ howed (.inl hfail) (by omega)]
  exact ⟨rfl, rfl⟩

/-- Settles O30: the encoder gives legal records, and a cut of their stream falls into one of them. -/
theorem cutEncodingsAreTruncated : Obligations.CutEncodingsAreTruncated := by
  refine ⟨fun samples e he => ?_, fun rej rs cut dst stride fuel m hl hcut hf => ?_⟩
  · obtain ⟨rs, h, hl, hs⟩ := encodeSeq_spec samples
    exact ⟨rs, hl, Except.ok.inj (h.symm.trans he), hs⟩
  · obtain ⟨rs₁, i, rs₂, rfl, h1, h2⟩ := exists_record_at_cut hcut
    obtain ⟨hpos, herr⟩ := decodeChannel_cut hl h1 h2 hf dst stride m
    have htake : (rs₁ ++ i :: rs₂).take (rs₁.length + 1) = rs₁ ++ [i] := List.take_length_add_append 1
    refine ⟨_, rs₁.length, rfl, by simp, by simpa using h1, by simpa [htake] using h2, by simpa using hpos,
      by simpa using herr, fun hlast => ?_⟩
    simp only [List.all_append, List.all_cons, Bool.and_eq_true] at hl
    obtain ⟨-, hi, hl₂⟩ := hl
    obtain ⟨-, hw, -, hw2, -⟩ := legalRecord_spec hi
    have hrs₂ := length_le_streamOf hl₂
    simp only [streamOf_append, streamOf_cons, List.length_append] at hlast
    refine ⟨?_, ?_⟩
    · rw [List.length_append, List.length_cons]
      omega
    · rw [herr, if_neg (by omega)]

/-! ### The ends of DECCH (41 R187) -/

/-- A command that has written memory, sets RES0 and completes has no other effect. -/
theorem complete_withMem_spec (s : State) (m : Memory) (v : Word) :
    let t := complete (({ s with mem := m }).setRes 0 v)
    t.res[0] = v ∧ SameResFrom 1 s t ∧ SameReport s t ∧ SameContainer s t ∧ SameHostSide s t ∧ t.draws = s.draws ∧
      Completed t := by
  refine ⟨by simp, fun i hi => ?_, by simp [SameReport, SameContainer, SameHostSide, Completed]⟩
  simpa using Vector.getElem_set_ne _ _ (by omega)

/-- A command that has written memory and makes its report has no other effect (60 R336). -/
theorem raise_withMem_spec (e : BlockError) (s : State) (m : Memory) :
    let t := raise e { s with mem := m }
    Reported (errorCode e).toNat (errorSub e) (errorChannel e) (errorArgIdx e) (errorInfo s.running.args e) s t ∧
      SameContainer s t ∧ SameHostSide s t ∧ t.draws = s.draws := by
  obtain ⟨h1, h2, h3, -, h4⟩ := raise_spec e { s with mem := m }
  exact ⟨h1, h2, h3, h4⟩

theorem decchChecks_eq_none_iff {maxPixels : Nat} {a : Fin 8 → Nat} :
    firstError (decchChecks maxPixels a) = none ↔
      (a 4 = 1 ∨ a 4 = 4) ∧ a 2 ≤ maxPixels ∧ a 0 + a 1 ≤ 2 ^ 32 ∧ a 3 + span (a 4) (a 2) ≤ 2 ^ 32 ∧
        (a 1 = 0 ∨ span (a 4) (a 2) = 0 ∨ a 3 + span (a 4) (a 2) ≤ a 0 ∨ a 0 + a 1 ≤ a 3) := by
  simp [firstError_eq_none, decchChecks]

theorem decchChecks_stride_pos {maxPixels : Nat} {a : Fin 8 → Nat} (h : firstError (decchChecks maxPixels a) = none) :
    0 < a 4 := by
  have := (decchChecks_eq_none_iff.1 h).1
  omega

theorem exec_decch_of_checked {s : State} (hc : firstError (decchChecks s.params.maxPixels s.arg) = none) :
    exec .decch s = .next (decchBody s) :=
  congrArg Host.Outcome.next (guarded_of_none hc decchBody s)

theorem decchBody_of_done {s : State} (h : (decchResult s).err = none) :
    decchBody s =
      complete (({ s with mem := (decchResult s).mem }).setRes 0 (BitVec.ofNat 32 (decchResult s).dec.pos)) := by
  simp only [decchBody, h]

theorem decchBody_of_failed {s : State} {f : FormatSub} (h : (decchResult s).err = some f) :
    decchBody s = raise (.format f 0 (decchResult s).dec.pos) { s with mem := (decchResult s).mem } := by
  simp only [decchBody, h]

/-- DECCH decodes the stream that stands at its source. -/
theorem decchResult_of_holdsAt {s : State} {bs : List Byte} (hlen : s.arg 1 = bs.length)
    (hm : HoldsAt s.mem (s.arg 0) bs) :
    decchResult s = decodeChannel s.params.decRejectNoncanonical (listStream bs) (s.arg 3) (s.arg 4) (bs.length + 1)
      s.mem ⟨0, s.arg 2, 0⟩ := by
  rw [decchResult, window_eq_listStream, hlen, view_eq_of_holdsAt hm]

/-- The slots of records decoded from the first slot on. -/
theorem fillRecords_slots {m : Memory} {dst stride : Nat} (hs : 0 < stride) (rs : List Instr) :
    HoldsSlots (fillRecords m dst stride 0 rs) dst stride (samplesOf rs) ∧
      ∀ a, (∀ j < (samplesOf rs).length, a ≠ dst + stride * j) →
        (fillRecords m dst stride 0 rs).read a = m.read a := by
  refine ⟨fun j hj => ?_, fun a ha => read_fillRecords_outside rs m 0 fun t _ ht => ha t (by omega)⟩
  have h := read_fillRecords_inside (dst := dst) hs rs m 0 j hj
  rwa [Nat.zero_add] at h

/-! ### DECCH on legal records (41 R184 to R188) -/

/-- Settles O25: the channel decode consumes the records, and DECCH completes with what it wrote. -/
theorem decchDecodesItsRecords : Obligations.DecchDecodesItsRecords := by
  intro s rs rest hc hl hsum hlen hm
  have hrs := length_le_streamOf hl
  have hres := decchResult_of_holdsAt hlen hm
  rw [← hsum, decodeChannel_complete hl rest (by rw [List.length_append]; omega)] at hres
  obtain ⟨hin, hout⟩ := fillRecords_slots (m := s.mem) (dst := s.arg 3) (decchChecks_stride_pos hc) rs
  refine ⟨_, exec_decch_of_checked hc, ?_⟩
  rw [decchBody_of_done (by rw [hres]), hres, ← hsum]
  exact ⟨hin, hout, complete_withMem_spec s _ _⟩

/-- Settles O29: the encoding is a list of legal records for the samples, under both values of the parameter. -/
theorem decchInvertsTheEncoder : Obligations.DecchInvertsTheEncoder := by
  intro s samples e rest hc he hsum hlen hm
  obtain ⟨rs, h, hl, rfl⟩ := encodeSeq_spec samples
  obtain rfl : streamOf rs = e := Except.ok.inj (h.symm.trans he)
  obtain ⟨t, ht, hslots, -, hres, -, hrep, -⟩ := decchDecodesItsRecords s rs rest hc (hl _) hsum hlen hm
  exact ⟨t, ht, hslots, hres, hrep⟩

/-- Settles O26: the channel decode stops at the failing record, and DECCH reports it with what it has written. -/
theorem decchStopsAtTheFailingRecord : Obligations.DecchStopsAtTheFailingRecord := by
  rintro s rs rest f _ hc hl hsum hlen hm hfail rfl
  have hrs := length_le_streamOf hl
  have hres := decchResult_of_holdsAt hlen hm
  rw [decodeChannel_stops hl hsum hfail (by rw [List.length_append]; omega)] at hres
  obtain ⟨hin, hout⟩ := fillRecords_slots (m := s.mem) (dst := s.arg 3) (decchChecks_stride_pos hc) rs
  obtain ⟨hrep, hcont, hhost, hdraws⟩ :=
    raise_withMem_spec (.format f 0 (streamOf rs).length) s (fillRecords s.mem (s.arg 3) (s.arg 4) 0 rs)
  refine ⟨_, exec_decch_of_checked hc, ?_⟩
  rw [decchBody_of_failed (by rw [hres]), hres]
  refine ⟨?_, hin, hout, hcont, hhost, hdraws⟩
  cases f <;> exact hrep

/-! ### The checks and the frame of DECCH (41 R185, R187) -/

/-- Settles O27: the first check that fails is the one the case is about. -/
theorem decchReportsItsFirstArgumentError : Obligations.DecchReportsItsFirstArgumentError := by
  rintro s _ rfl
  rw [← span]
  have reports {e : BlockError} (hc : firstError (decchChecks s.params.maxPixels s.arg) = some e) :=
    guarded_next_reports decchBody s hc
  refine ⟨fun h => ?_, fun hs => ⟨fun h => ?_, fun h1 h => ?_, fun h1 h2 h => ?_, fun h1 h2 h3 h4 h5 h6 h7 => ?_⟩⟩
  · refine reports (e := .argument .badStride 4) ?_
    simp [decchChecks, firstError_cons, h]
  · refine reports (e := .argument .countRange 2) ?_
    simp [decchChecks, firstError_cons, hs, h]
  · refine reports (e := .argument .rangeWrap 0) ?_
    simp [decchChecks, firstError_cons, hs, Nat.not_lt.2 h1, wraps_eq_true.2 h]
  · refine reports (e := .argument .rangeWrap 3) ?_
    simp [decchChecks, firstError_cons, hs, Nat.not_lt.2 h1, wraps_eq_false.2 h2, wraps_eq_true.2 h]
  · refine reports (e := .argument .overlap 3) ?_
    simp [decchChecks, firstError_cons, hs, Nat.not_lt.2 h1, wraps_eq_false.2 h2, wraps_eq_false.2 h3,
      overlaps_eq_true.2 ⟨h4, h5, h6, h7⟩]

/-- Whatever the outcome of DECCH's channel decode, a byte that is no slot is unchanged. -/
theorem read_decchResult_outside {s : State} {a : Nat} (ha : ∀ j < s.arg 2, a ≠ s.arg 3 + s.arg 4 * j) :
    (decchResult s).mem.read a = s.mem.read a :=
  decodeChannel_keeps (P := fun m => m.read a = s.mem.read a) (count := s.arg 2)
    (fun m t v ht hp => (read_write_ne (ha t ht) m v).trans hp) _ _ _ (Nat.zero_add _).le rfl

/-- How DECCH ends: with the report of an argument, of a record, or without an error. -/
theorem exec_decch_cases {s t : State} (h : exec .decch s = .next t) :
    (∃ e, t = raise e s) ∨
      (∃ f pos, t = raise (.format f 0 pos) { s with mem := (decchResult s).mem }) ∨
      ∃ v, t = complete (({ s with mem := (decchResult s).mem }).setRes 0 v) := by
  cases h
  rcases guarded_cases (decchChecks s.params.maxPixels s.arg) decchBody s with ⟨-, hg⟩ | ⟨e, -, -, hg⟩
  · rw [hg]
    cases hr : (decchResult s).err with
    | none => exact .inr (.inr ⟨_, decchBody_of_done hr⟩)
    | some f => exact .inr (.inl ⟨f, _, decchBody_of_failed hr⟩)
  · exact .inl ⟨e, hg⟩

/-- Settles O31: each of the three ends of DECCH. -/
theorem decchTouchesOnlyItsSlots : Obligations.DecchTouchesOnlyItsSlots := by
  intro s t h
  rcases exec_decch_cases h with ⟨e, rfl⟩ | ⟨f, pos, rfl⟩ | ⟨v, rfl⟩
  · obtain ⟨⟨-, -, -, -, -, hdone⟩, hcont, hhost, -, hdraws⟩ := raise_spec e s
    exact ⟨fun _ _ => rfl, fun _ _ => rfl, hcont, hhost, hdraws, hdone, fun hne => absurd rfl hne,
      fun _ _ _ _ => rfl⟩
  · obtain ⟨⟨-, -, -, -, -, hdone⟩, hcont, hhost, hdraws⟩ :=
      raise_withMem_spec (.format f 0 pos) s (decchResult s).mem
    exact ⟨fun _ ha => read_decchResult_outside ha, fun _ _ => rfl, hcont, hhost, hdraws, hdone,
      fun hne => absurd rfl hne, fun _ _ h6 => absurd h6 (by simp [errorCode])⟩
  · obtain ⟨-, hres, hrep, hcont, hhost, hdraws, hdone⟩ := complete_withMem_spec s (decchResult s).mem v
    exact ⟨fun _ ha => read_decchResult_outside ha, hres, hcont, hhost, hdraws, hdone, fun _ => hrep,
      fun hs ht => absurd (hrep.1.symm.trans ht) (by simp [hs])⟩

end Sys2Proof.Machine

/-!
## The frame codec (42_frame_codec)

CMPFR: what its checks let pass, the four encodings, and its end, said once. DCMFR: channels of legal records are consumed from
any offset of the payload (`decodeChannels_records`), fill their slots of the pixel buffer (`holdsSlots_fillChannels`), and stop
at a record that fails (`decodeChannels_stops`); then DCMFR's three ends.
-/

namespace Sys2Proof.Machine

/-! ### The result registers of a frame command (42 R222, R229) -/

/-- The result registers of a frame command, one by one; RES5 is not among them. -/
theorem setChannelResults_res_getElem (total : Nat) (lens : List Nat) (s : State) :
    let r := (setChannelResults total lens s).res
    r[0] = BitVec.ofNat 32 total ∧ r[1] = BitVec.ofNat 32 (lens.getD 0 0) ∧ r[2] = BitVec.ofNat 32 (lens.getD 1 0) ∧
      r[3] = BitVec.ofNat 32 (lens.getD 2 0) ∧ r[4] = BitVec.ofNat 32 (lens.getD 3 0) ∧
      ∀ i : Fin 6, 5 ≤ i.val → r[i] = s.res[i] := by
  rw [setChannelResults_res]
  refine ⟨by simp, by simp, by simp, by simp, by simp, fun i hi => ?_⟩
  iterate 5 rw [res_set_ne _ (by omega)]

/-- A frame command that has written memory, sets RES0..RES4 and completes has no other effect. -/
theorem complete_channelResults_spec (s : State) (m : Memory) (d total : Nat) (lens : List Nat) :
    let t := complete (setChannelResults total lens { s with mem := m, draws := d })
    t.res[0] = BitVec.ofNat 32 total ∧ t.res[1] = BitVec.ofNat 32 (lens.getD 0 0) ∧
      t.res[2] = BitVec.ofNat 32 (lens.getD 1 0) ∧ t.res[3] = BitVec.ofNat 32 (lens.getD 2 0) ∧
      t.res[4] = BitVec.ofNat 32 (lens.getD 3 0) ∧ SameResFrom 5 s t ∧ SameReport s t ∧ SameContainer s t ∧
      SameHostSide s t := by
  obtain ⟨h0, h1, h2, h3, h4, h5⟩ := setChannelResults_res_getElem total lens { s with mem := m, draws := d }
  exact ⟨h0, h1, h2, h3, h4, h5, by simp [SameReport, SameContainer, SameHostSide]⟩

/-! ### The checks of CMPFR and DCMFR (42 R222, R229) -/

theorem cmpfrChecks_eq_none_iff {maxPixels : Nat} {a : Fin 8 → Nat} :
    firstError (cmpfrChecks maxPixels a) = none ↔
      a 1 ≤ maxPixels ∧ 8 * a 1 ≤ a 3 ∧ a 0 + 4 * a 1 ≤ 2 ^ 32 ∧ a 2 + a 3 ≤ 2 ^ 32 ∧
        (a 1 = 0 ∨ a 0 + 4 * a 1 ≤ a 2 ∨ a 2 + a 3 ≤ a 0) := by
  simp only [firstError_eq_none, cmpfrChecks, List.forall_mem_cons, decide_eq_false_iff_not, wraps_eq_false,
    overlaps_eq_false, List.not_mem_nil, false_imp_iff, implies_true, and_true]
  omega

/-- Settles O34: the first check that fails is the one the case is about. -/
theorem cmpfrReportsItsFirstError : Obligations.CmpfrReportsItsFirstError := by
  intro s
  have reports {e : BlockError} (hc : firstError (cmpfrChecks s.params.maxPixels s.arg) = some e) :=
    guarded_next_reports cmpfrBody s hc
  refine ⟨fun h => ?_, fun h1 h => ?_, fun h1 h2 h => ?_, fun h1 h2 h3 h => ?_, fun h1 h2 h3 h4 h5 h6 h7 => ?_⟩
  · refine reports (e := .argument .countRange 1) ?_
    simp [cmpfrChecks, firstError_cons, h]
  · refine reports (e := .argument .capacity 3) ?_
    simp [cmpfrChecks, firstError_cons, h, Nat.not_lt.2 h1]
  · refine reports (e := .argument .rangeWrap 0) ?_
    simp [cmpfrChecks, firstError_cons, Nat.not_lt.2 h1, Nat.not_lt.2 h2, wraps_eq_true.2 h]
  · refine reports (e := .argument .rangeWrap 2) ?_
    simp [cmpfrChecks, firstError_cons, Nat.not_lt.2 h1, Nat.not_lt.2 h2, wraps_eq_false.2 h3, wraps_eq_true.2 h]
  · refine reports (e := .argument .overlap 2) ?_
    simp [cmpfrChecks, firstError_cons, Nat.not_lt.2 h1, Nat.not_lt.2 h2, wraps_eq_false.2 h3, wraps_eq_false.2 h4,
      overlaps_eq_true (la := 4 * s.arg 1) (lb := s.arg 3) |>.2 ⟨by omega, by omega, h6, h7⟩]

/-- Settles O37: the first check that fails is the one the case is about. -/
theorem dcmfrReportsItsFirstArgumentError : Obligations.DcmfrReportsItsFirstArgumentError := by
  intro s
  have reports {e : BlockError} (hc : firstError (dcmfrChecks s.params.maxPixels s.arg) = some e) :=
    guarded_next_reports dcmfrBody s hc
  refine ⟨fun h => ?_, fun h1 h => ?_, fun h1 h2 h => ?_, fun h1 h2 h3 h4 h5 h6 h7 => ?_⟩
  · refine reports (e := .argument .countRange 2) ?_
    simp [dcmfrChecks, firstError_cons, h]
  · refine reports (e := .argument .rangeWrap 0) ?_
    simp [dcmfrChecks, firstError_cons, Nat.not_lt.2 h1, wraps_eq_true.2 h]
  · refine reports (e := .argument .rangeWrap 3) ?_
    simp [dcmfrChecks, firstError_cons, Nat.not_lt.2 h1, wraps_eq_false.2 h2, wraps_eq_true.2 h]
  · refine reports (e := .argument .overlap 3) ?_
    simp [dcmfrChecks, firstError_cons, Nat.not_lt.2 h1, wraps_eq_false.2 h2, wraps_eq_false.2 h3,
      overlaps_eq_true (la := s.arg 1) (lb := 4 * s.arg 2) |>.2 ⟨h4, by omega, h6, h7⟩]

/-! ### CMPFR (42 R221 to R224) -/

/-- 42 R220: sample `i` of channel `k` is byte `k` of pixel `i`. -/
theorem channelSamples_eq (m : Memory) (buf n : Nat) (k : Fin 4) :
    channelSamples m buf n k = (List.range n).map fun i => m.read (buf + 4 * i + k.val) := by
  simp only [channelSamples, Memory.view, Nat.add_right_comm]

/-- The frame compressor lists the encodings of the channels, in their order. -/
theorem compressChannels_of_ok {m : Memory} {buf n : Nat} {e : Fin 4 → List Byte}
    (he : ∀ k, encodeSeq (channelSamples m buf n k) = .ok (e k)) (ks : List (Fin 4)) :
    compressChannels m buf n ks = .ok (ks.map e) := by
  induction ks with
  | nil => rfl
  | cons k ks ih => simp only [compressChannels, he k, ih, Except.map, List.map_cons]

/-- The end of CMPFR. -/
theorem cmpfrBody_of_ok {s : State} {e : Fin 4 → List Byte}
    (he : ∀ k, encodeSeq (channelSamples s.mem (s.arg 0) (s.arg 1) k) = .ok (e k)) :
    cmpfrBody s =
      finishCompress (s.arg 2) (s.arg 3) (e 0 ++ e 1 ++ e 2 ++ e 3).length
        [(e 0).length, (e 1).length, (e 2).length, (e 3).length]
        { s with mem := s.mem.writeBytes (s.arg 2) (e 0 ++ e 1 ++ e 2 ++ e 3) } := by
  have hflat : ([0, 1, 2, 3].map e).flatten = e 0 ++ e 1 ++ e 2 ++ e 3 := by simp
  simp only [cmpfrBody, compressChannels_of_ok he, hflat]
  rfl

/-- What stands in memory after a payload has been written and the rest of its capacity has become free values (42 R227). -/
theorem forgetRange_writeBytes_spec (m : Memory) {dst cap : Nat} {bs : List Byte} (h : bs.length ≤ cap) (k : Nat) :
    HoldsAt ((m.writeBytes dst bs).forgetRange (dst + bs.length) (cap - bs.length) k) dst bs ∧
      ∀ a, ¬ (dst ≤ a ∧ a < dst + cap) →
        ((m.writeBytes dst bs).forgetRange (dst + bs.length) (cap - bs.length) k).read a = m.read a := by
  refine ⟨fun t ht => ?_, fun a ha => ?_⟩
  · rw [read_forgetRange_outside (by omega), read_writeBytes_inside ht]
  · rw [read_forgetRange_outside (by omega), read_writeBytes_outside (by omega)]

/-- Settles O32: EncodeSeq is total, the capacity holds the four encodings, and the end of the command sets the registers. -/
theorem cmpfrCompressesTheFrame : Obligations.CmpfrCompressesTheFrame := by
  intro s hn hcap hsrc hdst hov
  have hc := cmpfrChecks_eq_none_iff.2 ⟨hn, hcap, hsrc, hdst, hov⟩
  choose e he using fun k => encodeSeq_total (channelSamples s.mem (s.arg 0) (s.arg 1) k)
  have hlen (k : Fin 4) : (e k).length ≤ 2 * s.arg 1 := by
    simpa [channelSamples, Memory.view] using encodeSeq_length_le (he k)
  have hsum : (e 0 ++ e 1 ++ e 2 ++ e 3).length = (e 0).length + (e 1).length + (e 2).length + (e 3).length := by
    simp only [List.length_append]
  have hfits : (e 0 ++ e 1 ++ e 2 ++ e 3).length ≤ s.arg 3 := by
    have h0 := hlen 0
    have h1 := hlen 1
    have h2 := hlen 2
    have h3 := hlen 3
    omega
  obtain ⟨hheld, hout⟩ := forgetRange_writeBytes_spec s.mem (dst := s.arg 2) hfits s.draws
  obtain ⟨r0, r1, r2, r3, r4, r5, hrep, hcont, hhost⟩ := complete_channelResults_spec s
    ((s.mem.writeBytes (s.arg 2) (e 0 ++ e 1 ++ e 2 ++ e 3)).forgetRange
      (s.arg 2 + (e 0 ++ e 1 ++ e 2 ++ e 3).length) (s.arg 3 - (e 0 ++ e 1 ++ e 2 ++ e 3).length) s.draws)
    (s.draws + (s.arg 3 - (e 0 ++ e 1 ++ e 2 ++ e 3).length)) (e 0 ++ e 1 ++ e 2 ++ e 3).length
    [(e 0).length, (e 1).length, (e 2).length, (e 3).length]
  refine ⟨_, e, congrArg Host.Outcome.next ((guarded_of_none hc cmpfrBody s).trans (cmpfrBody_of_ok he)),
    fun k => ?_, hheld, hout, hsum ▸ r0, r1, r2, r3, r4, r5, hrep, hcont, hhost, rfl, rfl⟩
  rw [← channelSamples_eq, he]

/-- Settles O33: RES0 is the sum of the four lengths, and each channel keeps the bound of EncodeSeq. -/
theorem cmpfrPayloadBound : Obligations.CmpfrPayloadBound := by
  intro s t hfit hc ht
  obtain ⟨hn, hcap, hsrc, hdst, hov⟩ := cmpfrChecks_eq_none_iff.1 hc
  obtain ⟨_, e, ht', he, -, -, hres, -⟩ := cmpfrCompressesTheFrame s hn hcap hsrc hdst hov
  cases ht.symm.trans ht'
  have hb (k : Fin 4) : (e k).length ≤ 2 * s.arg 1 ∧ ((e k).length = 2 * s.arg 1 ↔
      Alternating ((List.range (s.arg 1)).map fun i => s.mem.read (s.arg 0 + 4 * i + k.val))) := by
    simpa using encodeSeqOutputBound _ _ (he k)
  have h0 := (hb 0).1
  have h1 := (hb 1).1
  have h2 := (hb 2).1
  have h3 := (hb 3).1
  have hval : t.res[0].toNat = (e 0).length + (e 1).length + (e 2).length + (e 3).length := by
    rw [hres, BitVec.toNat_ofNat, Nat.mod_eq_of_lt (by omega)]
  have hall : (∀ k : Fin 4, Alternating ((List.range (s.arg 1)).map fun i => s.mem.read (s.arg 0 + 4 * i + k.val))) ↔
      ∀ k : Fin 4, (e k).length = 2 * s.arg 1 := forall_congr' fun k => (hb k).2.symm
  rw [hval, hall]
  refine ⟨by omega, fun hsum k => ?_, fun heq => ?_⟩
  · match k with
    | 0 | 1 | 2 | 3 => omega
  · rw [heq 0, heq 1, heq 2, heq 3]
    omega

/-! ### One channel of the payload (42 R228) -/

section
variable {rej : Bool} {rs : List Instr} (hl : rs.all (legalRecord rej) = true) {bs rest : List Byte} {pos : Nat}
  (hb : bs.drop pos = streamOf rs ++ rest)
include hl hb

/-- The records of a channel are no more than the bytes of the payload. -/
theorem length_le_of_drop_eq : rs.length ≤ bs.length := by
  have hrs := length_le_streamOf hl
  have hlen := congrArg List.length hb
  rw [List.length_drop, List.length_append] at hlen
  omega

/-- Legal records for exactly the samples owed, from any offset on. -/
theorem decodeChannel_complete_from {fuel : Nat} (hf : bs.length ≤ fuel) (dst stride : Nat) (m : Memory) :
    decodeChannel rej (listStream bs) dst stride fuel m ⟨pos, (samplesOf rs).length, 0⟩ =
      ⟨fillRecords m dst stride 0 rs, ⟨pos + (streamOf rs).length, 0, (samplesOf rs).length⟩, none⟩ := by
  have hrs := length_le_of_drop_eq hl hb
  rw [← Nat.add_sub_cancel' (hrs.trans hf), decodeChannel_records hl hb (le_refl _), Nat.sub_self,
    decodeChannel_done, Nat.zero_add]

/-- Legal records for fewer samples than are owed, from any offset on, and then one that fails. -/
theorem decodeChannel_stops_from {owed : Nat} {f : FormatSub} (ho : (samplesOf rs).length < owed)
    (h : RecordFails rej rest (owed - (samplesOf rs).length) f) {fuel : Nat} (hf : bs.length < fuel)
    (dst stride : Nat) (m : Memory) :
    decodeChannel rej (listStream bs) dst stride fuel m ⟨pos, owed, 0⟩ =
      ⟨fillRecords m dst stride 0 rs,
        ⟨pos + (streamOf rs).length, owed - (samplesOf rs).length, (samplesOf rs).length⟩, some f⟩ := by
  have hrs := length_le_of_drop_eq hl hb
  have hnext : decodeRecord rej (listStream bs (pos + (streamOf rs).length)) = decodeRecord rej rest := by
    rw [listStream, decodeRecord_take, ← List.drop_drop, hb, List.drop_left]
  obtain ⟨n, rfl⟩ : ∃ n, fuel = rs.length + (n + 1) := ⟨fuel - rs.length - 1, by omega⟩
  rw [decodeChannel_records hl hb (Nat.le_of_lt ho), Nat.zero_add]
  refine decodeChannel_of_recordFails (by simp only; omega) ?_ _ _ _ _
  simpa only [RecordFails, hnext] using h

end

/-! ### The slots of the channels (42 R220, R228) -/

/-- Memory after the records of the channels `ks` have filled their slots of the pixel buffer at `dst`. -/
def fillChannels (rs : Fin 4 → List Instr) (dst : Nat) : Memory → List (Fin 4) → Memory
  | m, [] => m
  | m, k :: ks => fillChannels rs dst (fillRecords m (dst + k.val) 4 0 (rs k)) ks

theorem fillChannels_append (rs : Fin 4 → List Instr) (dst : Nat) (m : Memory) (ks ks' : List (Fin 4)) :
    fillChannels rs dst m (ks ++ ks') = fillChannels rs dst (fillChannels rs dst m ks) ks' := by
  induction ks generalizing m with
  | nil => rfl
  | cons k ks ih => exact ih _

/-- A byte that is no slot of the channels filled is unchanged. -/
theorem read_fillChannels_outside {rs : Fin 4 → List Instr} {dst a : Nat} {ks : List (Fin 4)}
    (h : ∀ k ∈ ks, ∀ i < (samplesOf (rs k)).length, a ≠ dst + k.val + 4 * i) (m : Memory) :
    (fillChannels rs dst m ks).read a = m.read a := by
  induction ks generalizing m with
  | nil => rfl
  | cons k ks ih =>
    rw [List.forall_mem_cons] at h
    rw [fillChannels, ih h.2, (fillRecords_slots (by omega) (rs k)).2 a h.1]

/-- Each channel filled has its samples in its slots: no two channels share a slot. -/
theorem holdsSlots_fillChannels {rs : Fin 4 → List Instr} {dst : Nat} {ks : List (Fin 4)} (hks : ks.Nodup)
    {k : Fin 4} (hk : k ∈ ks) (m : Memory) :
    HoldsSlots (fillChannels rs dst m ks) (dst + k.val) 4 (samplesOf (rs k)) := by
  induction ks generalizing m with
  | nil => exact absurd hk List.not_mem_nil
  | cons j ks ih =>
    rw [List.nodup_cons] at hks
    rcases List.mem_cons.1 hk with rfl | hk
    · intro i hi
      rw [fillChannels, read_fillChannels_outside fun l hl t _ => ?_,
        (fillRecords_slots (by omega) (rs k)).1 i hi]
      have hne : k.val ≠ l.val := fun h => hks.1 (Fin.ext h ▸ hl)
      omega
    · exact ih hks.2 hk _

/-! ### The channels in order (42 R228) -/

theorem decodeChannels_cons_of_done {rej : Bool} {stream : Nat → List Byte} {fuel dst n pos : Nat} {k : Fin 4}
    {m : Memory} {r : ChannelResult} (h : decodeChannel rej stream (dst + k.val) 4 fuel m ⟨pos, n, 0⟩ = r)
    (he : r.err = none) (ks : List (Fin 4)) (lens : List Nat) :
    decodeChannels rej stream fuel dst n (k :: ks) m pos lens =
      decodeChannels rej stream fuel dst n ks r.mem r.dec.pos (lens ++ [r.dec.pos - pos]) := by
  simp only [decodeChannels, h, he]

theorem decodeChannels_cons_of_failed {rej : Bool} {stream : Nat → List Byte} {fuel dst n pos : Nat} {k : Fin 4}
    {m : Memory} {r : ChannelResult} {f : FormatSub}
    (h : decodeChannel rej stream (dst + k.val) 4 fuel m ⟨pos, n, 0⟩ = r) (he : r.err = some f)
    (ks : List (Fin 4)) (lens : List Nat) :
    decodeChannels rej stream fuel dst n (k :: ks) m pos lens = ⟨r.mem, r.dec.pos, lens, some (f, k)⟩ := by
  simp only [decodeChannels, h, he]

/-- Channels whose records are legal and stand for `n` samples each are consumed, one after the other. -/
theorem decodeChannels_records {rej : Bool} {rs : Fin 4 → List Instr} {n fuel : Nat} {bs rest : List Byte}
    (hf : bs.length ≤ fuel) {ks : List (Fin 4)} (hl : ∀ k ∈ ks, (rs k).all (legalRecord rej) = true)
    (hn : ∀ k ∈ ks, (samplesOf (rs k)).length = n) {pos : Nat}
    (hb : bs.drop pos = ks.flatMap (fun k => streamOf (rs k)) ++ rest) (after : List (Fin 4)) (dst : Nat) (m : Memory)
    (lens : List Nat) :
    decodeChannels rej (listStream bs) fuel dst n (ks ++ after) m pos lens =
      decodeChannels rej (listStream bs) fuel dst n after (fillChannels rs dst m ks)
        (pos + (ks.flatMap fun k => streamOf (rs k)).length) (lens ++ ks.map fun k => (streamOf (rs k)).length) := by
  induction ks generalizing pos m lens with
  | nil => simp [fillChannels]
  | cons k ks ih =>
    rw [List.forall_mem_cons] at hl hn
    rw [List.flatMap_cons, List.append_assoc] at hb
    have hdone := decodeChannel_complete_from hl.1 hb hf (dst + k.val) 4 m
    have hnext : bs.drop (pos + (streamOf (rs k)).length) = ks.flatMap (fun k => streamOf (rs k)) ++ rest := by
      rw [← List.drop_drop, hb, List.drop_left]
    rw [hn.1] at hdone
    rw [List.cons_append, decodeChannels_cons_of_done hdone rfl, ih hl.2 hn.2 hnext]
    simp [fillChannels, Nat.add_assoc]

/-- The channels before `k` are consumed, and then a record of channel `k` fails. -/
theorem decodeChannels_stops {rej : Bool} {rs : Fin 4 → List Instr} {n fuel : Nat} {rest : List Byte} {k : Fin 4}
    {before : List (Fin 4)} (hl : ∀ j ∈ before, (rs j).all (legalRecord rej) = true)
    (hn : ∀ j ∈ before, (samplesOf (rs j)).length = n) (hlk : (rs k).all (legalRecord rej) = true)
    (ho : (samplesOf (rs k)).length < n) {f : FormatSub}
    (h : RecordFails rej rest (n - (samplesOf (rs k)).length) f)
    (hf : ((before ++ [k]).flatMap (fun j => streamOf (rs j)) ++ rest).length < fuel)
    (after : List (Fin 4)) (dst : Nat) (m : Memory) :
    decodeChannels rej (listStream ((before ++ [k]).flatMap (fun j => streamOf (rs j)) ++ rest)) fuel dst n
        (before ++ k :: after) m 0 [] =
      ⟨fillChannels rs dst m (before ++ [k]), ((before ++ [k]).flatMap fun j => streamOf (rs j)).length,
        before.map fun j => (streamOf (rs j)).length, some (f, k)⟩ := by
  have hb : (before ++ [k]).flatMap (fun j => streamOf (rs j)) ++ rest =
      before.flatMap (fun j => streamOf (rs j)) ++ (streamOf (rs k) ++ rest) := by simp
  rw [hb] at hf ⊢
  have hstop := decodeChannel_stops_from hlk (pos := (before.flatMap fun j => streamOf (rs j)).length) List.drop_left ho h
    hf (dst + k.val) 4 (fillChannels rs dst m before)
  rw [decodeChannels_records (Nat.le_of_lt hf) hl hn (pos := 0) rfl, Nat.zero_add, decodeChannels_cons_of_failed hstop rfl,
    fillChannels_append]
  simp [fillChannels]

/-! ### The ends of DCMFR (42 R229) -/

theorem exec_dcmfr_of_checked {s : State} (hc : firstError (dcmfrChecks s.params.maxPixels s.arg) = none) :
    exec .dcmfr s = .next (dcmfrBody s) :=
  congrArg Host.Outcome.next (guarded_of_none hc dcmfrBody s)

/-- DCMFR decodes the payload that stands at its source. -/
theorem dcmfrResult_of_holdsAt {s : State} {bs : List Byte} (hlen : s.arg 1 = bs.length)
    (hm : HoldsAt s.mem (s.arg 0) bs) :
    dcmfrResult s = decodeChannels s.params.decRejectNoncanonical (listStream bs) (bs.length + 1) (s.arg 3) (s.arg 2)
      (List.finRange 4) s.mem 0 [] := by
  rw [dcmfrResult, window_eq_listStream, hlen, view_eq_of_holdsAt hm]
  rfl

theorem dcmfrBody_of_done {s : State} {m : Memory} {lens : List Nat} (h : dcmfrResult s = ⟨m, s.arg 1, lens, none⟩) :
    dcmfrBody s = complete (setChannelResults (s.arg 1) lens { s with mem := m }) := by
  simp only [dcmfrBody, h, trailingError, if_true, Option.or]

theorem dcmfrBody_of_failed {s : State} {m : Memory} {pos : Nat} {lens : List Nat} {f : FormatSub} {k : Fin 4}
    (h : dcmfrResult s = ⟨m, pos, lens, some (f, k)⟩) :
    dcmfrBody s = raise (.format f k pos) { s with mem := m } := by
  simp only [dcmfrBody, h, Option.or]

/-- Bytes after channel 3 (92 D14). -/
theorem dcmfrBody_of_trailing {s : State} {m : Memory} {pos : Nat} {lens : List Nat}
    (h : dcmfrResult s = ⟨m, pos, lens, none⟩) (hp : pos ≠ s.arg 1) :
    dcmfrBody s = raise (.format .trailing 3 pos) { s with mem := m } := by
  simp only [dcmfrBody, h, trailingError, if_neg hp, Option.or]

/-! ### DCMFR on four record lists (42 R228) -/

theorem flatMap_finRange_four {α : Type} (g : Fin 4 → List α) :
    (List.finRange 4).flatMap g = g 0 ++ g 1 ++ g 2 ++ g 3 := by
  simp [List.finRange_succ]

theorem map_finRange_four {α : Type} (g : Fin 4 → α) : (List.finRange 4).map g = [g 0, g 1, g 2, g 3] := by
  simp [List.finRange_succ]

section
variable {s : State} {rs : Fin 4 → List Instr} (hn : ∀ k, (samplesOf (rs k)).length = s.arg 2)
include hn

/-- Four channels of legal records for `N` samples each are consumed, whatever follows them. -/
theorem dcmfrResult_complete (hl : ∀ k, (rs k).all (legalRecord s.params.decRejectNoncanonical) = true)
    {rest : List Byte}
    (hlen : s.arg 1 = (streamOf (rs 0) ++ streamOf (rs 1) ++ streamOf (rs 2) ++ streamOf (rs 3) ++ rest).length)
    (hm : HoldsAt s.mem (s.arg 0)
      (streamOf (rs 0) ++ streamOf (rs 1) ++ streamOf (rs 2) ++ streamOf (rs 3) ++ rest)) :
    dcmfrResult s =
      ⟨fillChannels rs (s.arg 3) s.mem (List.finRange 4), s.arg 1 - rest.length,
        [(streamOf (rs 0)).length, (streamOf (rs 1)).length, (streamOf (rs 2)).length, (streamOf (rs 3)).length],
        none⟩ := by
  have hpos : s.arg 1 - rest.length =
      (streamOf (rs 0) ++ streamOf (rs 1) ++ streamOf (rs 2) ++ streamOf (rs 3)).length := by
    rw [hlen, List.length_append, Nat.add_sub_cancel]
  have hres := dcmfrResult_of_holdsAt hlen hm
  have hrec := decodeChannels_records (Nat.le_succ _) (fun k _ => hl k) (fun k _ => hn k)
    (List.drop_zero (l := (List.finRange 4).flatMap (fun k => streamOf (rs k)) ++ rest)) [] (s.arg 3) s.mem []
  rw [List.append_nil, flatMap_finRange_four, map_finRange_four] at hrec
  rw [hres, hrec, hpos, Nat.zero_add, List.nil_append]
  rfl

/-- The pixel buffer after the four channels: each holds its samples, and no byte outside it has changed. -/
theorem fillChannels_all_spec (m : Memory) (dst : Nat) :
    (∀ k : Fin 4, HoldsSlots (fillChannels rs dst m (List.finRange 4)) (dst + k.val) 4 (samplesOf (rs k))) ∧
      ∀ a, ¬ (dst ≤ a ∧ a < dst + 4 * s.arg 2) →
        (fillChannels rs dst m (List.finRange 4)).read a = m.read a := by
  refine ⟨fun k => holdsSlots_fillChannels (List.nodup_finRange 4) (List.mem_finRange k) m,
    fun a ha => read_fillChannels_outside (fun k _ i hi => ?_) m⟩
  rw [hn k] at hi
  omega

end

/-- Settles O35: the four channels are consumed, nothing is left over, and DCMFR completes with what it wrote. -/
theorem dcmfrDecodesFourChannels : Obligations.DcmfrDecodesFourChannels := by
  intro s rs hc hl hn hlen hm
  have hres := dcmfrResult_complete hn hl (rest := []) (by rw [List.append_nil, ← hlen]) (by rwa [List.append_nil])
  rw [List.length_nil, Nat.sub_zero] at hres
  obtain ⟨hin, hout⟩ := fillChannels_all_spec hn s.mem (s.arg 3)
  obtain ⟨r0, r1, r2, r3, r4, r5, hrep, hcont, hhost⟩ :=
    complete_channelResults_spec s (fillChannels rs (s.arg 3) s.mem (List.finRange 4)) s.draws (s.arg 1)
      [(streamOf (rs 0)).length, (streamOf (rs 1)).length, (streamOf (rs 2)).length, (streamOf (rs 3)).length]
  have ht := (exec_dcmfr_of_checked hc).trans (congrArg Host.Outcome.next (dcmfrBody_of_done hres))
  exact ⟨_, ht, hin, hout, r0, r1, r2, r3, r4, r5, hrep, hcont, hhost, by simp, complete_busy _, complete_latch _⟩


/-! ### DCMFR on a payload that fails (42 R228, R229) -/

/-- The channels before `k`, channel `k`, and those after it. -/
theorem finRange_four_eq (k : Fin 4) :
    List.finRange 4 = (List.finRange 4).take k.val ++ k :: (List.finRange 4).drop (k.val + 1) := by
  revert k; decide

theorem take_finRange_four_succ (k : Fin 4) :
    (List.finRange 4).take (k.val + 1) = (List.finRange 4).take k.val ++ [k] := by
  revert k; decide

theorem mem_take_finRange_four {j k : Fin 4} : j ∈ (List.finRange 4).take k.val ↔ j < k := by
  revert j k; decide

theorem mem_take_finRange_four_succ {j k : Fin 4} : j ∈ (List.finRange 4).take (k.val + 1) ↔ j ≤ k := by
  revert j k; decide

/-- The decode stops at a failing record of channel `k`. -/
theorem dcmfrResult_stops {s : State} {k : Fin 4} {rs : Fin 4 → List Instr} {rest : List Byte} {f : FormatSub}
    (hl : ∀ j ≤ k, (rs j).all (legalRecord s.params.decRejectNoncanonical) = true)
    (hn : ∀ j < k, (samplesOf (rs j)).length = s.arg 2) (ho : (samplesOf (rs k)).length < s.arg 2)
    (hlen : s.arg 1 = (((List.finRange 4).take (k.val + 1)).flatMap (fun j => streamOf (rs j)) ++ rest).length)
    (hm : HoldsAt s.mem (s.arg 0) (((List.finRange 4).take (k.val + 1)).flatMap (fun j => streamOf (rs j)) ++ rest))
    (hfail : RecordFails s.params.decRejectNoncanonical rest (s.arg 2 - (samplesOf (rs k)).length) f) :
    dcmfrResult s =
      ⟨fillChannels rs (s.arg 3) s.mem ((List.finRange 4).take (k.val + 1)),
        (((List.finRange 4).take (k.val + 1)).flatMap fun j => streamOf (rs j)).length,
        ((List.finRange 4).take k.val).map fun j => (streamOf (rs j)).length, some (f, k)⟩ := by
  have hstop := decodeChannels_stops (fun j hj => hl j (mem_take_finRange_four.1 hj).le)
    (fun j hj => hn j (mem_take_finRange_four.1 hj)) (hl k le_rfl) ho hfail (Nat.lt_succ_self _)
    ((List.finRange 4).drop (k.val + 1)) (s.arg 3) s.mem
  rw [← finRange_four_eq, ← take_finRange_four_succ] at hstop
  exact (dcmfrResult_of_holdsAt hlen hm).trans hstop

/-- Settles O36: the decode stops in channel `k`, or it consumes the four channels and bytes are left over. -/
theorem dcmfrReportsFormatErrors : Obligations.DcmfrReportsFormatErrors := by
  refine ⟨?_, fun s rs rest hc hl hn hrest hlen hm => ?_⟩
  · rintro s k rs _ rest f hc hl hn ho rfl hlen hm hfail
    have hres := dcmfrResult_stops hl hn ho hlen hm hfail
    obtain ⟨hrep, hcont, hhost, hdraws⟩ := raise_withMem_spec
      (.format f k (((List.finRange 4).take (k.val + 1)).flatMap fun j => streamOf (rs j)).length) s
      (fillChannels rs (s.arg 3) s.mem ((List.finRange 4).take (k.val + 1)))
    have hnodup : ((List.finRange 4).take (k.val + 1)).Nodup := (List.nodup_finRange 4).sublist (List.take_sublist _ _)
    exact ⟨_, (exec_dcmfr_of_checked hc).trans (congrArg Host.Outcome.next (dcmfrBody_of_failed hres)), hrep,
      fun j hj => holdsSlots_fillChannels hnodup (mem_take_finRange_four_succ.2 hj) _,
      fun a ha => read_fillChannels_outside (fun j hj => ha j (mem_take_finRange_four_succ.1 hj)) _, hcont, hhost, hdraws⟩
  · have hres := dcmfrResult_complete hn hl hlen hm
    have hleft : s.arg 1 - rest.length ≠ s.arg 1 := by
      have hpos := List.length_pos_iff.2 hrest
      rw [List.length_append] at hlen
      omega
    obtain ⟨hin, hout⟩ := fillChannels_all_spec hn s.mem (s.arg 3)
    obtain ⟨hrep, hcont, hhost, hdraws⟩ := raise_withMem_spec (.format .trailing 3 (s.arg 1 - rest.length)) s
      (fillChannels rs (s.arg 3) s.mem (List.finRange 4))
    exact ⟨_, (exec_dcmfr_of_checked hc).trans (congrArg Host.Outcome.next (dcmfrBody_of_trailing hres hleft)), hrep, hin,
      hout, hcont, hhost, hdraws⟩

/-! ### The round trip of a frame, and a frame cut short (42 R230, R232) -/

/-- 42 R220: the samples of channel `k` of a pixel buffer given as a list. -/
abbrev channelOf (b : List Byte) (n : Nat) (k : Fin 4) : List Byte :=
  (List.range n).map fun i => b.getD (4 * i + k.val) 0

/-- The encodings of the four channels are lists of legal records for their samples, under both values of the parameter. -/
theorem exists_records_of_encodings {b : List Byte} {n : Nat} {e : Fin 4 → List Byte}
    (he : ∀ k, encodeSeq (channelOf b n k) = .ok (e k)) :
    ∃ rs : Fin 4 → List Instr, (∀ k rej, (rs k).all (legalRecord rej) = true) ∧ (∀ k, streamOf (rs k) = e k) ∧
      ∀ k, samplesOf (rs k) = channelOf b n k := by
  choose rs h hl hs using fun k => encodeSeq_spec (channelOf b n k)
  exact ⟨rs, hl, fun k => Except.ok.inj ((h k).symm.trans (he k)), hs⟩

/-- The slots that the first samples of a channel fill are those bytes of the pixels. -/
theorem read_of_holdsSlots {m : Memory} {dst n : Nat} {b samples : List Byte} {k : Fin 4}
    (h : HoldsSlots m (dst + k.val) 4 samples) (hs : samples <+: channelOf b n k) {i : Nat} (hi : i < samples.length) :
    m.read (dst + 4 * i + k.val) = b.getD (4 * i + k.val) 0 := by
  rw [Nat.add_right_comm, h i hi, hs.getElem hi, List.getElem_map, List.getElem_range]

/-- Settles O38: the encodings are four record lists for the pixels, and byte `a` of the buffer is sample `a / 4` of channel
`a % 4`. -/
theorem dcmfrInvertsTheCompressor : Obligations.DcmfrInvertsTheCompressor := by
  intro s b e hc hb he hlen hm
  obtain ⟨rs, hl, hstream, hs⟩ := exists_records_of_encodings he
  have hn (k : Fin 4) : (samplesOf (rs k)).length = s.arg 2 := by simp [hs k]
  simp only [← hstream] at hlen hm ⊢
  obtain ⟨t, ht, hslots, -, r0, r1, r2, r3, r4, -, hrep, -⟩ :=
    dcmfrDecodesFourChannels s rs hc (fun k => hl k _) hn hlen hm
  refine ⟨t, ht, fun a ha => ?_, hrep, hlen ▸ r0, r1, r2, r3, r4⟩
  have hread := read_of_holdsSlots (n := s.arg 2) (b := b) (hslots (Fin.ofNat 4 a)) (by rw [hs]) (i := a / 4) (by rw [hn]; omega)
  have ha4 : 4 * (a / 4) + (Fin.ofNat 4 a).val = a := Nat.div_add_mod a 4
  rwa [Nat.add_assoc, ha4, List.getD_eq_getElem _ _ ha] at hread

/-- A stream without its last byte is the records before the last one and the last one without its last byte. -/
theorem dropLast_append_streamOf (front : List Byte) (rs : List Instr) {i : Instr} (hi : recordBytes i ≠ []) :
    (front ++ streamOf (rs ++ [i])).dropLast = front ++ streamOf rs ++ (recordBytes i).dropLast := by
  have hbytes : front ++ streamOf (rs ++ [i]) = front ++ streamOf rs ++ recordBytes i := by simp
  rw [hbytes, List.dropLast_append_of_ne_nil hi]

/-- A legal record without its last byte is TRUNCATED. -/
theorem decodeRecord_dropLast_recordBytes {rej : Bool} {i : Instr} (h : legalRecord rej i = true) :
    decodeRecord rej (recordBytes i).dropLast = .error .truncated := by
  obtain ⟨-, hw, -, hw2, -⟩ := legalRecord_spec h
  rw [List.dropLast_eq_take, decodeRecord_take_recordBytes (by omega), if_neg (by omega)]

/-- DCMFR on four record lists without the last byte of channel 3: it stops at channel 3's last record, and the records before
it have filled their slots. -/
theorem exec_dcmfr_of_cut {s : State} {rs : Fin 4 → List Instr} {init : List Instr} {last : Instr}
    (h3 : rs 3 = init ++ [last]) (hc : firstError (dcmfrChecks s.params.maxPixels s.arg) = none)
    (hl : ∀ k, (rs k).all (legalRecord s.params.decRejectNoncanonical) = true)
    (hn : ∀ k, (samplesOf (rs k)).length = s.arg 2)
    (hlen : s.arg 1 =
      (streamOf (rs 0) ++ streamOf (rs 1) ++ streamOf (rs 2) ++ streamOf init ++ (recordBytes last).dropLast).length)
    (hm : HoldsAt s.mem (s.arg 0)
      (streamOf (rs 0) ++ streamOf (rs 1) ++ streamOf (rs 2) ++ streamOf init ++ (recordBytes last).dropLast)) :
    ∃ t, exec .dcmfr s = .next t ∧
      Reported 2 2 3 0
        (BitVec.ofNat 32 (streamOf (rs 0) ++ streamOf (rs 1) ++ streamOf (rs 2) ++ streamOf init).length) s t ∧
      (∀ k, k ≠ 3 → HoldsSlots t.mem (s.arg 3 + k.val) 4 (samplesOf (rs k))) ∧
      HoldsSlots t.mem (s.arg 3 + 3) 4 (samplesOf init) := by
  obtain ⟨hinit, hlast⟩ : init.all (legalRecord s.params.decRejectNoncanonical) = true ∧
      legalRecord s.params.decRejectNoncanonical last = true := by simpa [h3] using hl 3
  have hshort : (samplesOf init).length < s.arg 2 := by
    obtain ⟨-, -, hpos, -, -⟩ := legalRecord_spec hlast
    rw [← hn 3, h3, samplesOf_append, samplesOf_cons, List.length_append, List.length_append, List.length_replicate]
    omega
  have hother {k : Fin 4} (hk : k ≠ 3) : Function.update rs 3 init k = rs k := Function.update_of_ne hk _ _
  have hself : Function.update rs 3 init 3 = init := Function.update_self _ _ _
  have hlegal (j : Fin 4) (_ : j ≤ 3) :
      (Function.update rs 3 init j).all (legalRecord s.params.decRejectNoncanonical) = true := by
    by_cases hj : j = 3
    · rw [hj, hself, hinit]
    · rw [hother hj, hl]
  have hcount (j : Fin 4) (hj : j < 3) : (samplesOf (Function.update rs 3 init j)).length = s.arg 2 := by
    rw [hother hj.ne, hn]
  have hfront : ((List.finRange 4).take ((3 : Fin 4).val + 1)).flatMap (fun j => streamOf (Function.update rs 3 init j)) =
      streamOf (rs 0) ++ streamOf (rs 1) ++ streamOf (rs 2) ++ streamOf init := by
    change (List.finRange 4).flatMap _ = _
    rw [flatMap_finRange_four, hself, hother (by decide), hother (by decide), hother (by decide)]
  obtain ⟨t, ht, hrep, hslots, -⟩ := dcmfrReportsFormatErrors.1 s 3 (Function.update rs 3 init) _ _ .truncated hc
    hlegal hcount (by rwa [hself]) hfront.symm hlen hm (.inl (decodeRecord_dropLast_recordBytes hlast))
  refine ⟨t, ht, hrep, fun k hk => ?_, ?_⟩
  · rw [← hother hk]
    exact hslots k (Fin.le_last k)
  · have hslots3 := hslots 3 le_rfl
    rwa [hself] at hslots3

/-- Settles O39: the cut leaves the last record of channel 3 without its last byte, and DCMFR stops at it. -/
theorem cutFramesAreTruncated : Obligations.CutFramesAreTruncated := by
  intro s b e hc hb h1 he hlen hm
  obtain ⟨rs, hl, hstream, hs⟩ := exists_records_of_encodings he
  simp only [← hstream] at hlen hm ⊢
  have hn (k : Fin 4) : (samplesOf (rs k)).length = s.arg 2 := by simp [hs k]
  have hne : rs 3 ≠ [] := fun h => by
    have h0 := hn 3
    rw [h, samplesOf_nil, List.length_nil] at h0
    omega
  obtain ⟨init, last, h3⟩ : ∃ init last, rs 3 = init ++ [last] :=
    ⟨_, _, (List.dropLast_append_getLast hne).symm⟩
  have hlast : recordBytes last ≠ [] := by
    have hlegal : legalRecord true last = true := List.all_eq_true.1 (hl 3 true) last (by simp [h3])
    obtain ⟨-, hw, -, hw2, -⟩ := legalRecord_spec hlegal
    exact List.ne_nil_of_length_pos (by omega)
  have hcut : (streamOf (rs 0) ++ streamOf (rs 1) ++ streamOf (rs 2) ++ streamOf (rs 3)).take (s.arg 1) =
      streamOf (rs 0) ++ streamOf (rs 1) ++ streamOf (rs 2) ++ streamOf init ++ (recordBytes last).dropLast := by
    rw [← dropLast_append_streamOf _ _ hlast, List.dropLast_eq_take, ← h3, ← hlen, Nat.add_sub_cancel]
  have hcutlen := congrArg List.length hcut
  rw [List.length_take_of_le (by omega)] at hcutlen
  rw [hcut] at hm
  obtain ⟨t, ht, hrep, hslots, hslots3⟩ := exec_dcmfr_of_cut h3 hc (fun k => hl k _) hn hcutlen hm
  have hpre3 : samplesOf init <+: channelOf b (s.arg 2) 3 := by
    rw [← hs 3, h3, samplesOf_append]
    exact List.prefix_append _ _
  have hdrop : (rs 3).dropLast = init := by rw [h3, List.dropLast_concat]
  refine ⟨t, rs 3, ht, hl 3 _, rfl, hs 3, ?_, fun k hk i hi => ?_, fun i hi => ?_⟩
  · rwa [hdrop]
  · exact read_of_holdsSlots (hslots k hk) (by rw [hs k]) (by rwa [hn])
  · rw [hdrop] at hi
    exact read_of_holdsSlots (k := 3) hslots3 hpre3 hi

end Sys2Proof.Machine

/-!
## The container (43_container)

A sink that accepts a command's bytes lets WRGH and WRFR run to their ends (`exec_wrgh_accepted`, `exec_wrfr_accepted`); the
fields of a header that stands in memory, one by one (`headerField_of_holdsAt`), and the checks that PRGH and PRFH share
(`headerChecks_report`).
-/

namespace Sys2Proof.Machine

/-! ### CLOSE (43 R256) -/

theorem open_check_passes {c : CwState} (h : c = .hdr ∨ c = .frame) : (c != .hdr && c != .frame) = false := by
  rcases h with rfl | rfl <;> rfl

/-- Settles O45: the check passes, and the end of the command writes CWSTATE alone. -/
theorem closeClosesTheContainer : Obligations.CloseClosesTheContainer := by
  intro s hs
  have hc : firstError (closeChecks s.cwState) = none := by simp [closeChecks, firstError_cons, open_check_passes hs]
  refine ⟨closeBody s, ?_, by simp [closeBody, SameReport, SameHostSide, Completed]⟩
  rw [exec, execClose, guarded_of_none hc]

/-! ### Appends that the sink accepts (20 R80, 43 R253) -/

/-- The state after the sink has accepted the bytes: it has gained them, SINKOFF counts them, and the plan has answered once for
each. -/
def sinkGains (bytes : List Byte) (s : State) : State :=
  { s with
    sink := s.sink ++ bytes
    sinkOff := s.sinkOff + BitVec.ofNat 32 bytes.length
    sinkPlan := s.sinkPlan.drop bytes.length }

section
variable {s : State} {bytes : List Byte}

theorem sinkThen_accepted (h : AcceptsNext s bytes.length) (done : State → State) :
    sinkThen bytes done s = done (sinkGains bytes s) := by
  obtain ⟨rest, hplan⟩ := h
  have hdrop : s.sinkPlan.drop bytes.length = rest := by simp [hplan]
  rw [sinkThen, sinkWrite_accepted hplan, sinkGains, hdrop]

theorem sinkHangs_of_acceptsNext {n : Nat} (h : AcceptsNext s n) : sinkHangs s.sinkPlan n = false := by
  obtain ⟨rest, hplan⟩ := h
  rw [hplan, sinkHangs_accepted]

end

/-! ### WRGH (43 R251, R254) -/

theorem exec_wrgh_accepted {s : State} (hs : s.cwState = .uninit) (ha : AcceptsNext s 24) :
    exec .wrgh s = .next (wrghDone (sinkGains (wrghBytes s) s)) := by
  have hc : firstError (wrghChecks s.cwState) = none := by simp [wrghChecks, hs]
  rw [← wrghBytes_length s] at ha
  rw [exec, execWrgh, sinkHangs_of_acceptsNext ha, Bool.and_false, guarded_of_none hc, wrghBody, sinkThen_accepted ha]
  rfl

/-- The end of WRGH sets RES0 and no other result register. -/
theorem wrghDone_res (u : State) : (wrghDone u).res[0] = 24 ∧ SameResFrom 1 u (wrghDone u) :=
  ⟨by simp [wrghDone], fun _ hi => res_set_ne (by omega) (by omega) _⟩

/-- Settles O40: the check passes, the sink gains the header's bytes, and the end of the command counts them. -/
theorem wrghWritesTheGlobalHeader : Obligations.WrghWritesTheGlobalHeader := by
  intro s hs ha
  obtain ⟨hres, hrest⟩ := wrghDone_res (sinkGains (wrghBytes s) s)
  refine ⟨_, exec_wrgh_accepted hs ha, ?_, ?_, ?_, ?_, ?_, hres, hrest, ?_⟩
  · have hone : [0x01, 0x00, 0x00, 0x00] = le32 1 := by decide
    rw [hone]
    simp [wrghDone, sinkGains, wrghBytes, globalHeaderBytes]
  all_goals simp [wrghDone, sinkGains, SameReport, SameHostSide, Completed]

/-! ### WRFR (30 R111, 43 R252, R255, R262) -/

theorem pad_le (n : Nat) : pad n ≤ 3 := by rw [pad]; omega

theorem padded_length_mod (n : Nat) : (24 + n + pad n) % 4 = 0 := by rw [pad]; omega

theorem exec_wrfr_accepted {s : State} (hs : s.cwState = .hdr ∨ s.cwState = .frame) (hr : s.arg 5 + s.arg 6 ≤ 2 ^ 32)
    (ha : AcceptsNext s (24 + s.arg 6 + pad (s.arg 6))) :
    exec .wrfr s = .next (wrfrDone (s.arg 6) (sinkGains (wrfrBytes s) s)) := by
  have hc : firstError (wrfrChecks s.cwState s.arg) = none := by
    simp [wrfrChecks, firstError_cons, open_check_passes hs, wraps_eq_false.2 hr]
  rw [← wrfrBytes_length s] at ha
  rw [exec, execWrfr, sinkHangs_of_acceptsNext ha, Bool.and_false, guarded_of_none hc, wrfrBody, sinkThen_accepted ha]
  rfl

/-- The end of WRFR sets RES0 and RES1 and no other result register. -/
theorem wrfrDone_res (len : Nat) (u : State) :
    let t := wrfrDone len u
    t.res[0] = BitVec.ofNat 32 (24 + len + pad len) ∧ t.res[1] = BitVec.ofNat 32 (pad len) ∧ SameResFrom 2 u t := by
  refine ⟨by simp [wrfrDone], by simp [wrfrDone], fun i hi => ?_⟩
  simp only [wrfrDone, complete_res, setRes_res]
  iterate 2 rw [res_set_ne _ (by omega)]

/-- The bytes of a frame, field by field. -/
theorem wrfrBytes_eq (s : State) :
    wrfrBytes s =
      le32 (s.argWord 0) ++ le32 (s.argWord 1) ++ le32 (s.argWord 2) ++ le32 (s.argWord 3) ++ le32 (s.argWord 4) ++
        le32 (s.argWord 6) ++ (List.range (s.arg 6)).map (fun i => s.mem.read (s.arg 5 + i)) ++
        List.replicate (pad (s.arg 6)) 0x00 := by
  simp [wrfrBytes, frameBytes, frameHeaderBytes, Memory.view, ofNat_arg]

/-- Settles O41: the checks pass, the sink gains the frame's bytes, and the end of the command counts the frame. -/
theorem wrfrWritesTheFrame : Obligations.WrfrWritesTheFrame := by
  rintro s _ hs hr rfl ha
  rw [← pad] at ha ⊢
  obtain ⟨hres0, hres1, hrest⟩ := wrfrDone_res (s.arg 6) (sinkGains (wrfrBytes s) s)
  refine ⟨_, exec_wrfr_accepted hs hr ha, ?_, ?_, ?_, ?_, ?_, hres0, hres1, hrest, ?_, ?_, ?_, ?_, ?_,
    padded_length_mod _, pad_le _⟩
  · simp [wrfrDone, sinkGains, wrfrBytes_eq]
  all_goals simp [wrfrDone, sinkGains, SameReport, SameHostSide, Completed]

/-! ### Header fields in memory (20 R78, 43 R257, R258) -/

theorem holdsAt_append {m : Memory} {a : Nat} {bs cs : List Byte} (h : HoldsAt m a (bs ++ cs)) :
    HoldsAt m a bs ∧ HoldsAt m (a + bs.length) cs := by
  refine ⟨fun t ht => ?_, fun t ht => ?_⟩
  · rw [h t (by simp; omega), List.getElem_append_left ht]
  · rw [Nat.add_assoc, h (bs.length + t) (by simp; omega), List.getElem_append_right (by omega)]
    simp

/-- Fields that stand in memory one after the other are read back by number. -/
theorem field_of_holdsAt_fields {m : Memory} {a : Nat} {fields : List Word} (h : HoldsAt m a (fields.flatMap le32))
    (k : Nat) (hk : k < fields.length) : m.field (a + 4 * k) = fields[k] := by
  induction fields generalizing a k with
  | nil => simp at hk
  | cons v fields ih =>
    rw [List.flatMap_cons] at h
    obtain ⟨hv, hrest⟩ := holdsAt_append h
    cases k with
    | zero => exact field_of_holdsAt hv
    | succ k =>
      rw [show a + 4 * (k + 1) = a + 4 + 4 * k by omega, List.getElem_cons_succ]
      exact ih hrest k (by simpa using hk)

/-- The six fields of a header that stands at arg[0]. -/
theorem headerField_of_holdsAt {s : State} {v0 v1 v2 v3 v4 v5 : Word}
    (h : HoldsAt s.mem (s.arg 0) (le32 v0 ++ le32 v1 ++ le32 v2 ++ le32 v3 ++ le32 v4 ++ le32 v5)) :
    headerField s 0 = v0 ∧ headerField s 1 = v1 ∧ headerField s 2 = v2 ∧ headerField s 3 = v3 ∧
      headerField s 4 = v4 ∧ headerField s 5 = v5 := by
  have hf := field_of_holdsAt_fields (fields := [v0, v1, v2, v3, v4, v5]) h
  exact ⟨hf 0 (by simp), hf 1 (by simp), hf 2 (by simp), hf 3 (by simp), hf 4 (by simp), hf 5 (by simp)⟩

/-! ### The checks of PRGH and PRFH (43 R257, R258) -/

theorem headerChecks_eq_none {a : Fin 8 → Nat} (h1 : a 0 + a 1 ≤ 2 ^ 32) (h2 : 24 ≤ a 1) :
    firstError (headerChecks a) = none := by
  simp [headerChecks, firstError_cons, wraps_eq_false.2 h1, Nat.not_lt.2 h2]

/-- A command that checks its header's range and length first reports what is wrong with them, whatever it checks next. -/
theorem headerChecks_report (s : State) (more : List (Bool × BlockError)) (body : State → State) :
    (2 ^ 32 < s.arg 0 + s.arg 1 →
      OnlyReported 6 4 0 0 (s.argWord 0) s (guarded (headerChecks s.arg ++ more) body s)) ∧
    (s.arg 0 + s.arg 1 ≤ 2 ^ 32 → s.arg 1 < 24 →
      OnlyReported 2 7 0 0 (s.argWord 1) s (guarded (headerChecks s.arg ++ more) body s)) := by
  refine ⟨fun h => ?_, fun h1 h2 => ?_⟩
  · have hc : firstError (headerChecks s.arg) = some (.argument .rangeWrap 0) := by
      simp [headerChecks, firstError_cons, wraps_eq_true.2 h]
    exact guarded_reports body s (firstError_append_some hc)
  · have hc : firstError (headerChecks s.arg) = some (.format .shortHeader 0 (s.arg 1)) := by
      simp [headerChecks, firstError_cons, wraps_eq_false.2 h1, h2]
    rw [← ofNat_arg]
    exact guarded_reports body s (firstError_append_some hc)

/-! ### PRGH (43 R257) -/

/-- The end of PRGH sets RES0..RES3, completes the command and changes nothing else. -/
theorem prghBody_spec (s : State) :
    let t := prghBody s
    t.res[0] = headerField s 2 ∧ t.res[1] = headerField s 3 ∧ t.res[2] = headerField s 4 ∧ t.res[3] = headerField s 5 ∧
      SameResFrom 4 s t ∧ SameReport s t ∧ SameContainer s t ∧ SameHostSide s t ∧ t.mem = s.mem ∧ t.draws = s.draws ∧
      Completed t := by
  refine ⟨by simp [prghBody], by simp [prghBody], by simp [prghBody], by simp [prghBody], fun i hi => ?_,
    by simp [prghBody, SameReport, SameContainer, SameHostSide, Completed]⟩
  simp only [prghBody, complete_res, setRes_res]
  iterate 4 rw [res_set_ne _ (by omega)]

/-- Settles O46: the first check that fails is the one the case is about, and without one the fields are those in memory. -/
theorem prghParsesTheGlobalHeader : Obligations.PrghParsesTheGlobalHeader := by
  intro s magic version w h fr fc
  obtain ⟨hwrap, hshort⟩ :=
    headerChecks_report s (globalHeaderChecks s.params.magic s.mem (s.arg 0)) prghBody
  refine ⟨fun hr => ⟨_, rfl, hwrap hr⟩, fun hr hl => ⟨_, rfl, hshort hr hl⟩, fun hr hl hm => ?_⟩
  obtain ⟨f0, f1, f2, f3, f4, f5⟩ := headerField_of_holdsAt hm
  have hmagic : s.mem.field (s.arg 0) = magic := f0
  have hversion : s.mem.field (s.arg 0 + 4) = version := f1
  have hc : firstError (headerChecks s.arg ++ globalHeaderChecks s.params.magic s.mem (s.arg 0)) =
      firstError [(magic != s.params.magic, .format .badMagic 0 0), (version != 1, .format .badVersion 0 4)] := by
    rw [firstError_append_none (headerChecks_eq_none hr hl), globalHeaderChecks, hmagic, hversion]
  refine ⟨fun hne => ?_, fun heq hne => ?_, fun heq h1 => ?_⟩
  · refine guarded_next_reports (e := .format .badMagic 0 0) prghBody s ?_
    simp [hc, firstError_cons, hne]
  · refine guarded_next_reports (e := .format .badVersion 0 4) prghBody s ?_
    rw [hc, firstError_cons, heq, firstError_cons, bne_self_eq_false, bne_iff_ne.2 hne]
    rfl
  · have hbody := prghBody_spec s
    rw [f2, f3, f4, f5] at hbody
    refine ⟨prghBody s, ?_, hbody⟩
    rw [exec, execPrgh, guarded_of_none (by simp [hc, firstError_cons, heq, h1])]

/-! ### PRFH (43 R258, R261) -/

/-- The end of PRFH sets RES0..RES5, completes the command and changes nothing else. -/
theorem prfhBody_spec (s : State) :
    let t := prfhBody s
    t.res[0] = headerField s 0 ∧ t.res[1] = headerField s 1 ∧ t.res[2] = headerField s 2 ∧ t.res[3] = headerField s 3 ∧
      t.res[4] = headerField s 4 ∧ t.res[5] = headerField s 5 ∧ SameReport s t ∧ SameContainer s t ∧
      SameHostSide s t ∧ t.mem = s.mem ∧ t.draws = s.draws ∧ Completed t := by
  simp [prfhBody, SameReport, SameContainer, SameHostSide, Completed]

/-- Settles O47: the shared checks are all there are; the format is one of the fields read back. -/
theorem prfhParsesTheFrameHeader : Obligations.PrfhParsesTheFrameHeader := by
  intro s w h xo yo fmt len
  obtain ⟨hwrap, hshort⟩ := headerChecks_report s [] prfhBody
  rw [List.append_nil] at hwrap hshort
  refine ⟨fun hr => ⟨_, rfl, hwrap hr⟩, fun hr hl => ⟨_, rfl, hshort hr hl⟩, fun hr hl hm => ?_⟩
  obtain ⟨f0, f1, f2, f3, f4, f5⟩ := headerField_of_holdsAt hm
  have hbody := prfhBody_spec s
  rw [f0, f1, f2, f3, f4, f5] at hbody
  refine ⟨prfhBody s, ?_, hbody⟩
  rw [exec, execPrfh, guarded_of_none (headerChecks_eq_none hr hl)]

end Sys2Proof.Machine

/-!
## Control (44_control)

The CMD write (`issue_accepted`, `issue_blocked`), the engine's turn at an issued command, what every command leaves when it has
completed, and CLRERR and SRST.
-/

namespace Sys2Proof.Machine

/-! ### The issue of a command (44 R300 to R303) -/

/-- A CMD write while no command runs is accepted without an error, and for CLRERR and SRST with one. -/
theorem issue_accepted {v : Word} {s : State} (hb : s.busy = false)
    (hv : s.err = false ∨ v = 0x0000000E ∨ v = 0x0000000F) : issue v s = latchCommand v s := by
  rw [issue, if_neg (by simp [hb]), if_neg]
  rcases hv with h | h | h <;> simp [h]

theorem issue_busy {s : State} (hb : s.busy = true) (v : Word) : issue v s = s := if_pos hb

theorem issue_blocked {v : Word} {s : State} (he : s.err = true) (h1 : v ≠ 0x0000000E) (h2 : v ≠ 0x0000000F) :
    issue v s = s := by
  rw [issue]
  split
  · rfl
  · exact if_pos (by rw [he, bne_iff_ne.2 h1, bne_iff_ne.2 h2]; rfl)

/-- A step whose pending action is a CMD write. -/
theorem step_writeCmd {s : State} {rest : List HostOp} {x : HostValue} (h : s.inbox = .writeReg 0x00 32 x :: rest) :
    step s = .next (issue (hostValue x s) { s with inbox := rest }) :=
  step_writeReg (k := 0) (by omega) h

/-- A step whose pending action is a CMD write that is accepted. -/
theorem step_writeCmd_accepted {s : State} {rest : List HostOp} {x : HostValue} {v : Word}
    (h : s.inbox = .writeReg 0x00 32 x :: rest) (hx : v = hostValue x s) (hb : s.busy = false)
    (hv : s.err = false ∨ v = 0x0000000E ∨ v = 0x0000000F) :
    step s = .next (latchCommand v { s with inbox := rest }) := by
  rw [step_writeCmd h, ← hx, issue_accepted (s := { s with inbox := rest }) hb hv]

/-- A step whose pending action is a write of ARGk. -/
theorem step_writeArg {s : State} {rest : List HostOp} {k : Fin 8} {x : HostValue}
    (h : s.inbox = .writeReg (0x20 + 4 * k.val) 32 x :: rest) :
    step s = .next { s with
      inbox := rest, args := s.args.set k (hostValue x s), argWritten := s.argWritten.set k true } := by
  rw [show 0x20 + 4 * k.val = 4 * (8 + k.val) by omega] at h
  rw [step_writeReg (by omega) h, regOfIndex_arg]
  rfl

/-- Settles O6: the accepted write is `latchCommand`, and the latch keeps its own copies of the ARG registers. -/
theorem commandWriteLatchesArguments : Obligations.CommandWriteLatchesArguments := by
  refine ⟨fun s rest x v hx hb hv h => ?_, fun s rest k x v hx h => ⟨_, ?_, rfl, fun hl => ?_⟩⟩
  · exact step_writeCmd_accepted h hx hb hv
  · rw [step_writeArg h, ← hx]
  · have hr := running_congr (s := s)
      (t := { s with inbox := rest, args := s.args.set k v, argWritten := s.argWritten.set k true }) rfl hl
    exact ⟨fun i => congrFun (arg_congr hr) i, runningOp_congr hr⟩

/-- Settles O7: `issue` leaves the state as it is in both cases. -/
theorem blockedCommandWritesAreLost : Obligations.BlockedCommandWritesAreLost := by
  intro s rest v h
  rw [step_writeCmd h]
  exact ⟨fun he h1 h2 => congrArg _ (issue_blocked (s := { s with inbox := rest }) he h1 h2),
    fun hb => congrArg _ (issue_busy (s := { s with inbox := rest }) hb v)⟩

/-! ### The engine's turn at an issued command (44 R300, R304, R309) -/

theorem engineTurn_of_issued {s : State} {l : Latch} {i : Instr} (hb : s.busy = true) (hp : s.phase = .issued)
    (hl : s.latch = some l) (hd : decode (.command l.word) = .ok i) : engineTurn s = exec i s := by
  rw [engineTurn_issued hb hp, runLatched_of_ok]
  rwa [running_of_latch hl]

/-- Settles O4: the host's pending actions are not read by the turn. -/
theorem stepRunsTheLatchedCommand : Obligations.StepRunsTheLatchedCommand := by
  intro s l i hb hp hl hd
  refine ⟨fun hi => ?_, fun rest hi => ?_⟩
  · rw [step_of_empty hi, engineTurn_of_issued hb hp hl hd]
  · rw [step_of_pending hi]
    exact engineTurn_of_issued (s := { s with inbox := rest }) hb hp hl hd

/-- The words that decode to a command are below 256, and their OP is not reserved (30 R114 to R116). -/
theorem word_of_decoded {w : Word} {i : Instr} (h : decodeCommand w = .ok i) :
    w.toNat < 256 ∧
      w.toNat ∈ [0x01, 0x02, 0x03, 0x04, 0x05, 0x06, 0x07, 0x08, 0x09, 0x0A, 0x0E, 0x0F] := by
  obtain ⟨op, ho, rfl⟩ := decodeCommand_ok h
  cases i <;> cases ho <;> decide

theorem runLatched_of_illegal {s : State} (h : ∀ i, decodeCommand s.running.word ≠ .ok i) :
    runLatched s = .next (raise (.illegalCommand s.running.word) s) := by
  cases hd : decodeCommand s.running.word with
  | ok i => exact (h i hd).elim
  | error e => simp only [runLatched, decode, hd]

/-- Settles O3: no instruction has the word, and `raise` has no effect but its report. -/
theorem illegalCommandReportsItsWord : Obligations.IllegalCommandReportsItsWord := by
  intro s l hi hb hp hl hw
  have hr := running_of_latch hl
  have hd : ∀ i, decodeCommand s.running.word ≠ .ok i := by
    intro i h
    rw [hr] at h
    obtain ⟨h1, h2⟩ := word_of_decoded h
    exact hw.elim (Nat.not_le.2 h1) fun h3 => h3 h2
  refine ⟨raise (.illegalCommand l.word) s, ?_, raise_spec (.illegalCommand l.word) s⟩
  rw [step_of_empty hi, engineTurn_issued hb hp, runLatched_of_illegal hd, hr]

/-! ### Completion (44 R305) -/

theorem CommandEnds.idle {i : Instr} {s t : State} (h : CommandEnds i s t) : Idle t := by
  cases h with
  | done u k h => exact h ▸ idle_complete u
  | failed e u k hr h => exact h ▸ idle_raise e u

/-- Settles O50: an instruction with an opcode is no record form, and every other one ends idle. -/
theorem everyCommandCompletes : Obligations.EveryCommandCompletes := by
  intro w i s t hd h
  have hi : Idle t := by
    rcases exec_cases h with ⟨-, rfl⟩ | ⟨-, rfl⟩ | ⟨ho, -⟩ | ⟨-, -, he⟩
    · exact idle_complete _
    · exact idle_srstReset s
    · obtain ⟨op, ho', -⟩ := decodeCommand_ok hd
      rw [ho] at ho'
      cases ho'
    · exact he.idle
  exact ⟨hi.busy, hi.latch, latchOk_of_idle hi⟩

/-! ### CLRERR and SRST (44 R306, R307) -/

/-- A command has one word, its opcode zero-extended (30 R114, R118). -/
theorem decode_command_eq_ok_iff {i : Instr} {op : Byte} (h : opcode i = some op) (w : Word) :
    decode (.command w) = .ok i ↔ w = commandWord op := by
  rw [decode, decodeCommand_eq_ok_iff, encode_eq_command_iff]
  simp [h]

/-- Settles O11: CLRERR has one word, and every field is read off `clearError` and `complete`. -/
theorem clrerrClearsTheReport : Obligations.ClrerrClearsTheReport := by
  refine ⟨decode_command_eq_ok_iff (op := 0x0E) rfl, fun s => ⟨complete (clearError s), rfl, ?_⟩⟩
  simp [SameContainer, SameHostSide, Completed]

theorem srstReset_atResetValuesButArgs (s : State) : AtResetValuesButArgs (srstReset s) := by
  simp [AtResetValuesButArgs, encIdle, decIdle, frameIdle]

/-- The run of an idle block that gets the CMD write of SRST, a write of ARGk and an engine turn: SRST finds ARGk marked as
written. -/
theorem run_srst_after_argWrite {s : State} {rest : List HostOp} {k : Fin 8} {v : Word} (hb : s.busy = false)
    (h : s.inbox =
      .writeReg 0x00 32 (.lit 0x0F) :: .writeReg (0x20 + 4 * k.val) 32 (.lit v) :: .engine :: rest) :
    Host.Core.run Sys2Proof.core 3 s = .next (srstReset
      { latchCommand 0x0F { s with inbox := rest } with
        args := s.args.set k v, argWritten := (Vector.replicate 8 false).set k true }) := by
  have hcmd := step_writeCmd_accepted h rfl hb (.inr (.inr rfl))
  have harg := step_writeArg (rest := .engine :: rest) (k := k) (x := .lit v)
    (s := latchCommand 0x0F { s with inbox := .writeReg (0x20 + 4 * k.val) 32 (.lit v) :: .engine :: rest }) rfl
  have hsrst := (stepRunsTheLatchedCommand
    { latchCommand 0x0F { s with inbox := .engine :: rest } with
      args := s.args.set k v, argWritten := (Vector.replicate 8 false).set k true }
    ⟨0x0F, s.args⟩ .srst rfl rfl rfl decodeCommand_srst).2 rest rfl
  exact (run_next hcmd 2).trans ((run_next harg 1).trans (run_next hsrst 0))

/-- Settles O12: SRST keeps the ARG registers that `argWritten` marks, which in the run is ARGk alone. -/
theorem srstResetsTheBlock : Obligations.SrstResetsTheBlock := by
  refine ⟨decode_command_eq_ok_iff (op := 0x0F) rfl,
    fun s => ⟨srstReset s, rfl, srstReset_atResetValuesButArgs s, argsAfterSrst_getElem s, ?_⟩,
    fun s rest k v hb h => ⟨_, run_srst_after_argWrite hb h, srstReset_atResetValuesButArgs _, fun i => ?_⟩⟩
  · simp
  · rw [srstReset_args, argsAfterSrst_getElem]
    by_cases hk : i = k
    · subst hk
      simp
    · have hne : k.val ≠ i.val := fun e => hk (Fin.ext e.symm)
      simp [hk, Vector.getElem_set_ne _ _ hne]

end Sys2Proof.Machine

/-!
## Codec commands from boundary to boundary (44_control R309)

The engine taken through one channel encode is EncodeSeq (`runs_encoding`), and through one channel decode is DecodeChannel
(`runs_decoding`): in both the source keeps its bytes, because the checks keep it apart from what is written. ENCCH and DECCH are
one such channel; CMPFR and DCMFR are four, put together by `channel_induction`.
-/

namespace Sys2Proof.Machine

/-! ### Runs of the engine (44 R309) -/

/-- Some number of steps leads from one state to the other. -/
def Runs (s t : State) : Prop := ∃ n, Host.Core.run Sys2Proof.core n s = .next t

theorem Runs.of_step {s t : State} (h : step s = .next t) : Runs s t := ⟨1, run_next h 0⟩

theorem Runs.cons {s u t : State} (h : step s = .next u) (hr : Runs u t) : Runs s t := by
  obtain ⟨n, hn⟩ := hr
  exact ⟨n + 1, (run_next h n).trans hn⟩

theorem Runs.trans {s u t : State} (h₁ : Runs s u) (h₂ : Runs u t) : Runs s t := by
  obtain ⟨n, hn⟩ := h₁
  induction n generalizing s with
  | zero => cases hn; exact h₂
  | succ n ih =>
    simp only [Host.Core.run] at hn
    split at hn
    · rename_i v hv
      exact .cons hv (ih hn)
    · cases hn
    · cases hn

theorem step_encode {s : State} (hb : s.busy = true) (hi : s.inbox = []) (hp : s.phase = .encode) :
    step s = .next (encodeStep s) := by
  rw [step_of_empty hi, engineTurn_encode hb hp]

theorem step_decode {s : State} (hb : s.busy = true) (hi : s.inbox = []) (hp : s.phase = .decode) :
    step s = decodeStep s := by
  rw [step_of_empty hi, engineTurn_decode hb hp]

/-- The opcode of a latched word is that of the instruction it decodes to (30 R115). -/
theorem runningOp_of_decoded {s : State} {l : Latch} {i : Instr} {op : Byte} (hl : s.latch = some l)
    (hd : decode (.command l.word) = .ok i) (ho : opcode i = some op) : s.runningOp = op := by
  rw [State.runningOp, running_of_latch hl, word_of_decodeCommand hd ho, opField, commandWord]
  exact BitVec.eq_of_toNat_eq (by simpa using op.isLt)

/-- A codec command run from its first boundary ends as `exec` does if its body is where the boundary leads to. -/
theorem begun_run_agrees {s : State} {l : Latch} {i : Instr} {cs : List (Bool × BlockError)} {start body : State → State}
    (hb : s.busy = true) (hp : s.phase = .issued) (hl : s.latch = some l) (hi : s.inbox = [])
    (hd : decode (.command l.word) = .ok i) (hbegin : beginCommand i s = some (guarded cs start s))
    (hexec : exec i s = .next (guarded cs body s)) (hbody : firstError cs = none → Runs (start s) (body s)) :
    ∃ (n : Nat) (t : State), exec i s = .next t ∧
      Host.Core.run Sys2Proof.core n { s with inbox := [.engineBegin] } = .next t := by
  have hs : { s with inbox := [] } = s := by rw [← hi]
  have hstep : step { s with inbox := [.engineBegin] } = .next (guarded cs start s) := by
    rw [step_of_pending (s := { s with inbox := [.engineBegin] }) rfl]
    change engineBeginTurn { s with inbox := [] } = _
    rw [← running_of_latch hl] at hd
    rw [hs, engineBeginTurn, if_pos ⟨hb, hp⟩]
    simp only [hd, hbegin]
  have hrun : Runs (guarded cs start s) (guarded cs body s) := by
    rcases guarded_cases cs start s with ⟨hc, hg⟩ | ⟨e, -, hc, hg⟩
    · rw [hg, guarded_of_none hc]
      exact hbody hc
    · rw [hg, guarded_of_some hc]
      exact ⟨0, rfl⟩
  obtain ⟨n, hn⟩ := Runs.cons hstep hrun
  exact ⟨n, _, hexec, hn⟩

/-- A statement about each channel of a frame follows from the last one and from each channel's successor (42 R222, R228). -/
theorem channel_induction {P : Fin 4 → Prop} (last : P 3) (prev : ∀ k, k ≠ 3 → P (k + 1) → P k) (k : Fin 4) : P k :=
  Fin.reverseInduction (motive := P) last
    (fun i h => prev i.castSucc (Fin.castSucc_ne_last i) (by rwa [Fin.coeSucc_eq_succ])) k

/-- The channels of a frame from `k` on, in order. -/
def channelsFrom (k : Fin 4) : List (Fin 4) := (List.finRange 4).drop k.val

theorem channelsFrom_zero : channelsFrom 0 = [0, 1, 2, 3] := by decide

theorem channelsFrom_last : channelsFrom 3 = [3] := by decide

theorem channelsFrom_next {k : Fin 4} (hk : k ≠ 3) : channelsFrom k = k :: channelsFrom (k + 1) := by
  revert k; decide

/-! ### Sample by sample (10 R47) -/

/-- `s` with the engine between two samples of a channel encode. -/
def encoding (s : State) (m : Memory) (e : EncState) (f : FrameState) : State :=
  { s with phase := .encode, mem := m, enc := e, frame := f }

theorem startEncode_eq (s : State) : startEncode s = encoding s s.mem encIdle frameIdle := rfl

/-- EncodeSeq takes one sample by EncoderStep (40 R142). -/
theorem encodeFrom_cons_ok {n : Nat} {c x : Byte} {xs out : List Byte} (h : encodeFrom n c (x :: xs) = .ok out) :
    ∃ (r : List Byte) (n' : Nat) (c' : Byte) (out' : List Byte),
      encoderStep n c x = .ok (r, n', c') ∧ encodeFrom n' c' xs = .ok out' ∧ out = r ++ out' := by
  rw [encodeFrom] at h
  split at h
  · cases h
  · rename_i r n' c' he
    cases ho : encodeFrom n' c' xs with
    | error e => rw [ho] at h; cases h
    | ok out' =>
      rw [ho] at h
      cases h
      exact ⟨r, n', c', out', he, ho, rfl⟩

theorem holdsSlots_view (m : Memory) (base stride count : Nat) : HoldsSlots m base stride (m.view base stride count) :=
  fun _ h => (view_getElem m base stride count h).symm

section
variable {s : State} {f : FrameState} {j : EncodeJob}

theorem encodeStep_sample {m : Memory} {i w n n' : Nat} {c c' x : Byte} {r : List Byte}
    (hj : encodeJob { s with frame := f } = j) (hi : i < j.count) (hx : m.read (j.src + j.stride * i) = x)
    (he : encoderStep n c x = .ok (r, n', c')) :
    encodeStep (encoding s m ⟨i, w, n, c⟩ f) =
      encoding s (m.writeBytes (j.dst + w) r) ⟨i + 1, w + r.length, n', c'⟩ f := by
  have hj' : encodeJob (encoding s m ⟨i, w, n, c⟩ f) = j := hj
  rw [encodeStep, hj', if_pos (by exact hi), encodeSample, hj']
  simp only [encoding, hx, he]

theorem encodeStep_end {m : Memory} {i w n : Nat} {c : Byte} {r : List Byte}
    (hj : encodeJob { s with frame := f } = j) (hi : i = j.count) (hr : flushRun n c = .ok r) :
    encodeStep (encoding s m ⟨i, w, n, c⟩ f) =
      channelEncoded (encoding s (m.writeBytes (j.dst + w) r) ⟨i, w + r.length, 0, c⟩ f) := by
  have hj' : encodeJob (encoding s m ⟨i, w, n, c⟩ f) = j := hj
  rw [encodeStep, hj', if_neg (by exact hi.not_lt), encodeEnd, hj']
  simp only [encoding, hr]

/-- From between two samples to the end of the channel: the engine writes what EncodeSeq gives for the samples `xs` that are
left. They stay as they are, because what is still to be written fits the `cap` bytes of the destination. -/
theorem runs_encoding (hb : s.busy = true) (hib : s.inbox = []) (hj : encodeJob { s with frame := f } = j) {cap : Nat}
    (hsep : ∀ t < j.count, j.src + j.stride * t < j.dst ∨ j.dst + cap ≤ j.src + j.stride * t) {xs out : List Byte}
    {m : Memory} {i w n : Nat} {c : Byte} (hn : n ≤ 32766) (hi : i + xs.length = j.count)
    (hm : HoldsSlots m (j.src + j.stride * i) j.stride xs) (hcap : w + 2 * (n + xs.length) ≤ cap)
    (h : encodeFrom n c xs = .ok out) :
    ∃ e : EncState, e.w = w + out.length ∧
      Runs (encoding s m ⟨i, w, n, c⟩ f) (channelEncoded (encoding s (m.writeBytes (j.dst + w) out) e f)) := by
  have hstep (m : Memory) (e : EncState) : step (encoding s m e f) = .next (encodeStep (encoding s m e f)) :=
    step_encode hb hib rfl
  induction xs generalizing m i w n c out with
  | nil => exact ⟨_, rfl, .of_step ((hstep _ _).trans (congrArg _ (encodeStep_end hj hi h)))⟩
  | cons x xs ih =>
    obtain ⟨r, n', c', out', he, ho, rfl⟩ := encodeFrom_cons_ok h
    obtain ⟨hn', hr⟩ := encoderStep_ok hn he
    simp only [List.length_cons] at hi hcap
    have hx : m.read (j.src + j.stride * i) = x := hm 0 (Nat.zero_lt_succ _)
    have hm' : HoldsSlots (m.writeBytes (j.dst + w) r) (j.src + j.stride * (i + 1)) j.stride xs := by
      intro t ht
      have hsep' := hsep (i + 1 + t) (by omega)
      have hslot := hm (t + 1) (Nat.succ_lt_succ ht)
      rw [Nat.add_assoc, ← Nat.mul_add] at hslot ⊢
      rw [read_writeBytes_outside (by omega), Nat.add_assoc, Nat.add_comm 1 t]
      exact hslot
    obtain ⟨e, hw, hrun⟩ := ih hn' (by omega) hm' (w := w + r.length) (by omega) ho
    refine ⟨e, by rw [hw, List.length_append, Nat.add_assoc], ?_⟩
    rw [writeBytes_append, Nat.add_assoc]
    exact .cons ((hstep _ _).trans (congrArg _ (encodeStep_sample hj (by omega) hx he))) hrun

end

theorem channelEncoded_next {s : State} {f : FrameState} {m : Memory} {e : EncState} (hop : s.runningOp = 0x04)
    (hk : f.ch ≠ 3) :
    channelEncoded (encoding s m e f) = encoding s m encIdle ⟨f.ch + 1, f.total + e.w, f.lens ++ [e.w]⟩ := by
  rw [channelEncoded, if_pos (by exact hop), if_neg (by exact hk)]
  rfl

theorem channelEncoded_last {s : State} {f : FrameState} {m : Memory} {e : EncState} (hop : s.runningOp = 0x04)
    (hk : f.ch = 3) :
    channelEncoded (encoding s m e f) =
      finishCompress (s.arg 2) (s.arg 3) (f.total + e.w) (f.lens ++ [e.w]) { s with mem := m } := by
  rw [channelEncoded, if_pos (by exact hop), if_pos (by exact hk)]
  rfl

/-- The frame compressor takes one channel by EncodeSeq (42 R221). -/
theorem compressChannels_cons_ok {m : Memory} {buf n : Nat} {k : Fin 4} {ks : List (Fin 4)} {outs : List (List Byte)}
    (h : compressChannels m buf n (k :: ks) = .ok outs) :
    ∃ (out : List Byte) (outs' : List (List Byte)), encodeSeq (channelSamples m buf n k) = .ok out ∧
      compressChannels m buf n ks = .ok outs' ∧ outs = out :: outs' := by
  rw [compressChannels] at h
  split at h
  · cases h
  · rename_i out ho
    cases hs : compressChannels m buf n ks with
    | error e => rw [hs] at h; cases h
    | ok outs' =>
      rw [hs] at h
      cases h
      exact ⟨out, outs', ho, rfl, rfl⟩

/-- CMPFR at the start of channel `k`, after the records `sent` of the channels before it, whose byte counts are `lens`. -/
def compressAt (s : State) (k : Fin 4) (sent : List Byte) (lens : List Nat) : State :=
  encoding s (s.mem.writeBytes (s.arg 2) sent) encIdle ⟨k, sent.length, lens⟩

/-- CMPFR at its end, after the payload `sent` (42 R222). -/
def compressed (s : State) (sent : List Byte) (lens : List Nat) : State :=
  finishCompress (s.arg 2) (s.arg 3) sent.length lens { s with mem := s.mem.writeBytes (s.arg 2) sent }

section
variable {s : State} (hb : s.busy = true) (hib : s.inbox = [])
include hb hib

/-- ENCCH (40 R147). -/
theorem runs_encch (hop : s.runningOp ≠ 0x04) (hc : firstError (encchChecks s.params.maxPixels s.arg) = none) :
    Runs (startEncode s) (encchBody s) := by
  obtain ⟨-, -, hcap, -, -, hdis⟩ := encchChecks_eq_none_iff.1 hc
  obtain ⟨out, ho⟩ := encodeSeq_total (s.mem.view (s.arg 0) (s.arg 1) (s.arg 2))
  have hlen := view_length s.mem (s.arg 0) (s.arg 1) (s.arg 2)
  have hsep : ∀ t < s.arg 2,
      s.arg 0 + s.arg 1 * t < s.arg 3 ∨ s.arg 3 + s.arg 4 ≤ s.arg 0 + s.arg 1 * t := by
    intro t ht
    have := slot_lt_span (s.arg 1) ht
    omega
  obtain ⟨e, hw, hrun⟩ := runs_encoding (f := frameIdle) (j := ⟨s.arg 0, s.arg 1, s.arg 2, s.arg 3⟩) (w := 0) hb hib
    (encodeJob_encch hop) hsep (Nat.zero_le _) ((Nat.zero_add _).trans hlen) (holdsSlots_view _ _ _ _) (by omega) ho
  rw [startEncode_eq, encchBody_of_ok ho]
  have hend (m : Memory) : channelEncoded (encoding s m e frameIdle) =
      complete (({ s with mem := m }).setRes 0 (BitVec.ofNat 32 e.w)) := if_neg hop
  rwa [hend, hw, Nat.zero_add] at hrun

/-- One channel of CMPFR, after the records `sent` of the channels before it (42 R221, R231). -/
theorem runs_cmpfr_channel (hop : s.runningOp = 0x04)
    (hc : firstError (cmpfrChecks s.params.maxPixels s.arg) = none) {k : Fin 4} {sent out : List Byte}
    (hsent : sent.length ≤ 2 * s.arg 1 * k.val) (lens : List Nat)
    (ho : encodeSeq (channelSamples s.mem (s.arg 0) (s.arg 1) k) = .ok out) :
    ∃ e : EncState, e.w = out.length ∧
      Runs (compressAt s k sent lens)
        (channelEncoded (encoding s (s.mem.writeBytes (s.arg 2) (sent ++ out)) e ⟨k, sent.length, lens⟩)) := by
  obtain ⟨-, hcap, -, -, hdis⟩ := cmpfrChecks_eq_none_iff.1 hc
  have hroom : sent.length + 2 * s.arg 1 ≤ s.arg 3 := by
    have := Nat.mul_le_mul_left (2 * s.arg 1) (show k.val ≤ 3 by omega)
    omega
  have hlen : (channelSamples s.mem (s.arg 0) (s.arg 1) k).length = s.arg 1 := view_length _ _ _ _
  have hsamples : HoldsSlots (s.mem.writeBytes (s.arg 2) sent) (s.arg 0 + k.val) 4
      (channelSamples s.mem (s.arg 0) (s.arg 1) k) := by
    intro t ht
    rw [read_writeBytes_outside (by omega)]
    exact holdsSlots_view _ _ _ _ t ht
  have hjob := encodeJob_cmpfr (s := { s with frame := ⟨k, sent.length, lens⟩ }) hop
  obtain ⟨e, hw, hrun⟩ := runs_encoding (w := 0) (cap := 2 * s.arg 1) hb hib hjob
    (fun t (ht : t < s.arg 1) => show s.arg 0 + k.val + 4 * t < s.arg 2 + sent.length ∨
      s.arg 2 + sent.length + 2 * s.arg 1 ≤ s.arg 0 + k.val + 4 * t by omega)
    (Nat.zero_le _) ((Nat.zero_add _).trans hlen) hsamples (by omega) ho
  rw [Nat.zero_add] at hw
  rw [writeBytes_append]
  exact ⟨e, hw, hrun⟩

/-- CMPFR from the start of channel `k` on. -/
theorem runs_cmpfr_channels (hop : s.runningOp = 0x04)
    (hc : firstError (cmpfrChecks s.params.maxPixels s.arg) = none) (k : Fin 4) :
    ∀ (sent : List Byte) (lens : List Nat) (outs : List (List Byte)), sent.length ≤ 2 * s.arg 1 * k.val →
      compressChannels s.mem (s.arg 0) (s.arg 1) (channelsFrom k) = .ok outs →
      Runs (compressAt s k sent lens) (compressed s (sent ++ outs.flatten) (lens ++ outs.map List.length)) := by
  induction k using channel_induction with
  | last =>
    intro sent lens outs hsent h
    rw [channelsFrom_last] at h
    obtain ⟨out, outs', ho, h', rfl⟩ := compressChannels_cons_ok h
    cases h'
    obtain ⟨e, hw, hrun⟩ := runs_cmpfr_channel hb hib hop hc hsent lens ho
    rw [channelEncoded_last hop rfl, hw, ← List.length_append] at hrun
    rwa [List.flatten_singleton]
  | prev k hk ih =>
    intro sent lens outs hsent h
    rw [channelsFrom_next hk] at h
    obtain ⟨out, outs', ho, h', rfl⟩ := compressChannels_cons_ok h
    obtain ⟨e, hw, hrun⟩ := runs_cmpfr_channel hb hib hop hc hsent lens ho
    rw [channelEncoded_next hop hk, hw, ← List.length_append] at hrun
    have hsent' : (sent ++ out).length ≤ 2 * s.arg 1 * (k + 1).val := by
      have hout := encodeSeq_length_le ho
      rw [channelSamples, view_length] at hout
      rw [Fin.val_add_one_of_lt (lt_of_le_of_ne (Fin.le_last k) hk), Nat.mul_add, Nat.mul_one, List.length_append]
      omega
    have hrest := ih (sent ++ out) (lens ++ [out.length]) outs' hsent' h'
    rw [List.append_assoc, List.append_assoc] at hrest
    exact hrun.trans hrest

/-- CMPFR (42 R222). -/
theorem runs_cmpfr (hop : s.runningOp = 0x04) (hc : firstError (cmpfrChecks s.params.maxPixels s.arg) = none) :
    Runs (startEncode s) (cmpfrBody s) := by
  obtain ⟨outs, ho, -⟩ := compressChannels_spec s.mem (s.arg 0) (s.arg 1) [0, 1, 2, 3]
  have hbody : cmpfrBody s = compressed s outs.flatten (outs.map List.length) := by
    simp only [cmpfrBody, ho, compressed]
  rw [hbody]
  exact runs_cmpfr_channels hb hib hop hc 0 [] [] outs (Nat.zero_le _) (by rwa [channelsFrom_zero])

end

/-- Settles O60: from its first boundary ENCCH runs one channel encode and CMPFR four. -/
theorem sampleBySampleEncodingAgrees : Obligations.SampleBySampleEncodingAgrees := by
  intro s l hb hp hl hib i hi hd
  simp only [List.mem_cons, List.not_mem_nil, or_false] at hi
  rcases hi with rfl | rfl
  · have hop : s.runningOp ≠ 0x04 := by
      rw [runningOp_of_decoded hl hd rfl]
      decide
    exact begun_run_agrees hb hp hl hib hd rfl rfl (runs_encch hb hib hop)
  · exact begun_run_agrees hb hp hl hib hd rfl rfl (runs_cmpfr hb hib (runningOp_of_decoded hl hd rfl))

/-! ### Record by record (41 R183) -/

/-- `s` with the engine between two records of a channel decode. -/
def decoding (s : State) (m : Memory) (d : DecState) (f : FrameState) : State :=
  { s with phase := .decode, mem := m, dec := d, frame := f }

theorem startDecode_eq (count : Nat) (s : State) :
    startDecode count s = decoding s s.mem ⟨0, count, 0⟩ frameIdle := rfl

/-- Where the engine stands after a channel decode: at the end of the channel, or with its error reported. -/
def channelDecoded (s : State) (f : FrameState) (r : ChannelResult) : State :=
  match r.err with
  | some e => raise (.format e f.ch r.dec.pos) { s with mem := r.mem }
  | none => decodeEnd (decoding s r.mem r.dec f)

/-- The bytes of `[lo, lo + n)` are the same in both memories. -/
abbrev SameBytes (lo n : Nat) (m m' : Memory) : Prop := ∀ a, lo ≤ a → a < lo + n → m'.read a = m.read a

theorem window_congr {m m' : Memory} {src len : Nat} (h : SameBytes src len m m') (pos : Nat) :
    m'.window src len pos = m.window src len pos :=
  view_congr fun i hi => h _ (by omega) (by omega)

/-- A byte that is written outside the range. -/
theorem SameBytes.write {lo n a : Nat} {m m' : Memory} (h : SameBytes lo n m m') (ha : ¬ (lo ≤ a ∧ a < lo + n))
    (v : Byte) : SameBytes lo n m (m'.write a v) := by
  intro b h1 h2
  rw [read_write_ne (by rintro rfl; exact ha ⟨h1, h2⟩)]
  exact h b h1 h2

/-- What DecodeRecord returns is a record form of a legal length (41 R180). -/
theorem form_of_decodeRecord {rej : Bool} {bs : List Byte} {r : Record} (h : decodeRecord rej bs = .ok r) :
    ∃ i, decodeRecordForm bs = .ok i ∧ recordError rej (recordOf i) = none ∧ r = recordOf i := by
  rw [decodeRecord] at h
  split at h
  · cases h
  · rename_i i hi
    split at h
    · cases h
    · rename_i he
      cases h
      exact ⟨i, hi, he, rfl⟩

section
variable {s : State}

/-- The bytes of the stream at the cursor, at most three (41 R180). -/
abbrev bytesAtCursor (s : State) : List Byte := s.mem.window (decodeJob s).src (decodeJob s).len s.dec.pos

theorem decodeStep_of_form {i : Instr} (ho : s.dec.owed ≠ 0) (h : decodeRecordForm (bytesAtCursor s) = .ok i) :
    decodeStep s = .next (runRecord (recordOf i) s) := by
  rw [decodeStep_of_ok ho h]
  rcases decodeRecordForm_ok h with ⟨len, val, rfl⟩ | ⟨hi, lo, val, rfl⟩ <;> rfl

theorem decodeStep_of_form_error {e : DecodeReject} (ho : s.dec.owed ≠ 0)
    (h : decodeRecordForm (bytesAtCursor s) = .error e) :
    decodeStep s = .next (raise (.format (streamError e) s.frame.ch s.dec.pos) s) := by
  rw [decodeStep, if_neg ho, fetchRecord, decode, h]

/-- A round of the decoder at a record that fails (41 R183). -/
theorem decodeStep_of_recordFails {f : FormatSub} (ho : s.dec.owed ≠ 0)
    (h : RecordFails s.params.decRejectNoncanonical (bytesAtCursor s) s.dec.owed f) :
    decodeStep s = .next (raise (.format f s.frame.ch s.dec.pos) s) := by
  rcases h with h | ⟨r, h, hr, rfl⟩
  · cases hf : decodeRecordForm (bytesAtCursor s) with
    | error e =>
      rw [decodeRecord_of_form_error hf] at h
      cases h
      exact decodeStep_of_form_error ho hf
    | ok i =>
      rw [decodeStep_of_form ho hf]
      cases he : recordError s.params.decRejectNoncanonical (recordOf i) with
      | some g =>
        rw [decodeRecord_of_illegal hf he] at h
        cases h
        rw [runRecord_of_illegal he]
      | none =>
        rw [decodeRecord_of_form hf he] at h
        cases h
  · obtain ⟨i, hf, he, rfl⟩ := form_of_decodeRecord h
    rw [decodeStep_of_form ho hf, runRecord_of_overshoot he hr]

/-- A round of the decoder at a record that is legal and fits the owed count (41 R183). -/
theorem decodeStep_of_record {r : Record} (ho : s.dec.owed ≠ 0)
    (h : decodeRecord s.params.decRejectNoncanonical (bytesAtCursor s) = .ok r) (hl : r.len ≤ s.dec.owed) :
    decodeStep s = .next { s with
      mem := s.mem.fillSlots (decodeJob s).dst (decodeJob s).stride r.val s.dec.j r.len
      dec := advance r s.dec } := by
  obtain ⟨i, hf, he, rfl⟩ := form_of_decodeRecord h
  rw [decodeStep_of_form ho hf, runRecord_of_legal he hl]

end

/-- A channel decode that owes samples goes on after a record that is legal and fits the owed count. -/
theorem decodeChannel_of_record {rej : Bool} {stream : Nat → List Byte} {d : DecState} {r : Record}
    (ho : d.owed ≠ 0) (h : decodeRecord rej (stream d.pos) = .ok r) (hl : r.len ≤ d.owed) (dst stride fuel : Nat)
    (m : Memory) :
    decodeChannel rej stream dst stride (fuel + 1) m d =
      decodeChannel rej stream dst stride fuel (m.fillSlots dst stride r.val d.j r.len) (advance r d) := by
  simp only [decodeChannel, ho, if_false, h, if_neg (Nat.not_lt.2 hl)]

/-- A record fails, or is legal and fits the owed count. -/
theorem recordFails_or_fits (rej : Bool) (bs : List Byte) (owed : Nat) :
    (∃ f, RecordFails rej bs owed f) ∨ ∃ r, decodeRecord rej bs = .ok r ∧ r.len ≤ owed := by
  cases h : decodeRecord rej bs with
  | error f => exact .inl ⟨f, .inl h⟩
  | ok r =>
    by_cases hl : r.len ≤ owed
    · exact .inr ⟨r, rfl, hl⟩
    · exact .inl ⟨.overshoot, .inr ⟨r, h, Nat.lt_of_not_le hl, rfl⟩⟩

section
variable {s : State} {f : FrameState} {j : DecodeJob}

/-- From between two records to the end of the channel decode: the engine's rounds are those of DecodeChannel. The stream
stays as it is, because no slot lies in it. -/
theorem runs_decoding (hb : s.busy = true) (hib : s.inbox = []) (hj : decodeJob { s with frame := f } = j)
    (hsep : ∀ t < j.count, ¬ (j.src ≤ j.dst + j.stride * t ∧ j.dst + j.stride * t < j.src + j.len)) {fuel : Nat}
    {m : Memory} {d : DecState} (hfuel : j.len - d.pos < fuel) (hd : d.j + d.owed ≤ j.count)
    (hm : SameBytes j.src j.len s.mem m) :
    Runs (decoding s m d f) (channelDecoded s f
      (decodeChannel s.params.decRejectNoncanonical (s.mem.window j.src j.len) j.dst j.stride fuel m d)) := by
  induction fuel generalizing m d with
  | zero => omega
  | succ fuel ih =>
    have hjob : decodeJob (decoding s m d f) = j := hj
    have hstep : step (decoding s m d f) = decodeStep (decoding s m d f) := step_decode hb hib rfl
    have hform : bytesAtCursor (decoding s m d f) = s.mem.window j.src j.len d.pos := by
      rw [bytesAtCursor, hjob]
      exact window_congr hm d.pos
    by_cases ho : d.owed = 0
    · rw [decodeChannel, if_pos ho]
      exact .of_step (hstep.trans (if_pos ho))
    · rcases recordFails_or_fits s.params.decRejectNoncanonical (s.mem.window j.src j.len d.pos) d.owed with
        ⟨e, he⟩ | ⟨r, hr, hl⟩
      · rw [decodeChannel_of_recordFails ho he]
        rw [← hform] at he
        exact .of_step (hstep.trans (decodeStep_of_recordFails ho he))
      · rw [decodeChannel_of_record ho hr hl]
        obtain ⟨hwidth, hw2, -, -⟩ := decodeRecord_ok hr
        rw [window_length] at hwidth
        have hm' : SameBytes j.src j.len s.mem (m.fillSlots j.dst j.stride r.val d.j r.len) :=
          fillSlots_keeps (fun m t _ h2 h => h.write (hsep t (by omega)) _) hm
        have hrun := ih (d := advance r d) (by simp only [advance]; omega) (by simp only [advance]; omega) hm'
        rw [← hform] at hr
        have hnext := decodeStep_of_record (s := decoding s m d f) ho hr hl
        rw [hjob] at hnext
        exact .cons (hstep.trans hnext) hrun

end

section
variable {s : State}

theorem channelDecoded_of_failed {r : ChannelResult} {e : FormatSub} (h : r.err = some e) (f : FrameState) :
    channelDecoded s f r = raise (.format e f.ch r.dec.pos) { s with mem := r.mem } := by
  simp only [channelDecoded, h]

theorem channelDecoded_of_done {r : ChannelResult} (h : r.err = none) (f : FrameState) :
    channelDecoded s f r = decodeEnd (decoding s r.mem r.dec f) := by
  simp only [channelDecoded, h]

/-- DECCH (41 R187). -/
theorem runs_decch (hb : s.busy = true) (hib : s.inbox = []) (hop : s.runningOp ≠ 0x05)
    (hc : firstError (decchChecks s.params.maxPixels s.arg) = none) : Runs (startDecode (s.arg 2) s) (decchBody s) := by
  obtain ⟨-, -, -, -, hdis⟩ := decchChecks_eq_none_iff.1 hc
  have hsep : ∀ t < s.arg 2, ¬ (s.arg 0 ≤ s.arg 3 + s.arg 4 * t ∧ s.arg 3 + s.arg 4 * t < s.arg 0 + s.arg 1) := by
    intro t ht
    have := slot_lt_span (s.arg 4) ht
    omega
  have hrun := runs_decoding (f := frameIdle) (d := ⟨0, s.arg 2, 0⟩) hb hib (decodeJob_decch hop) hsep
    (Nat.lt_succ_self _) (Nat.zero_add _).le fun _ _ _ => rfl
  have hbody : channelDecoded s frameIdle (decchResult s) = decchBody s := by
    cases h : (decchResult s).err with
    | some e => exact (channelDecoded_of_failed h frameIdle).trans (decchBody_of_failed h).symm
    | none => exact (channelDecoded_of_done h frameIdle).trans ((if_neg hop).trans (decchBody_of_done h).symm)
  rw [startDecode_eq, ← hbody]
  exact hrun

theorem dcmfrChecks_eq_none_iff {maxPixels : Nat} {a : Fin 8 → Nat} :
    firstError (dcmfrChecks maxPixels a) = none ↔
      a 2 ≤ maxPixels ∧ a 0 + a 1 ≤ 2 ^ 32 ∧ a 3 + 4 * a 2 ≤ 2 ^ 32 ∧
        (a 1 = 0 ∨ a 2 = 0 ∨ a 3 + 4 * a 2 ≤ a 0 ∨ a 0 + a 1 ≤ a 3) := by
  simp [firstError_eq_none, dcmfrChecks]

/-- The end of DCMFR after its frame decode (42 R228, R229). -/
def frameDecoded (s : State) (r : FrameResult) : State :=
  match r.err.or (trailingError r.pos (s.arg 1)) with
  | some (f, k) => raise (.format f k r.pos) { s with mem := r.mem }
  | none => complete (setChannelResults r.pos r.lens { s with mem := r.mem })

theorem dcmfrBody_eq (s : State) : dcmfrBody s = frameDecoded s (dcmfrResult s) := rfl

theorem decodeEnd_next {m : Memory} {d : DecState} {f : FrameState} (hop : s.runningOp = 0x05) (hk : f.ch ≠ 3) :
    decodeEnd (decoding s m d f) =
      decoding s m ⟨d.pos, s.arg 2, 0⟩ ⟨f.ch + 1, d.pos, f.lens ++ [d.pos - f.total]⟩ := by
  rw [decodeEnd, if_pos (by exact hop), if_neg (by exact hk)]
  rfl

theorem decodeEnd_last {m : Memory} {d : DecState} {f : FrameState} (hop : s.runningOp = 0x05) (hk : f.ch = 3) :
    decodeEnd (decoding s m d f) = frameDecoded s ⟨m, d.pos, f.lens ++ [d.pos - f.total], none⟩ := by
  rw [decodeEnd, if_pos (by exact hop), if_pos (by exact hk), frameDecoded, Option.none_or]
  rfl

/-- The end of a channel of DCMFR that failed ends the frame decode. -/
theorem channelDecoded_frame_of_failed {r : ChannelResult} {e : FormatSub} (h : r.err = some e) (f : FrameState) :
    channelDecoded s f r = frameDecoded s ⟨r.mem, r.dec.pos, f.lens, some (e, f.ch)⟩ :=
  channelDecoded_of_failed h f

/-- One channel of DCMFR, whose records begin at `pos`: the payload stays as it is and the cursor inside it (42 R228). -/
theorem runs_dcmfr_channel (hb : s.busy = true) (hib : s.inbox = []) (hop : s.runningOp = 0x05)
    (hc : firstError (dcmfrChecks s.params.maxPixels s.arg) = none) (k : Fin 4) {m : Memory} {pos : Nat}
    (lens : List Nat) (hpos : pos ≤ s.arg 1) (hm : SameBytes (s.arg 0) (s.arg 1) s.mem m) :
    let r := decodeChannel s.params.decRejectNoncanonical (s.mem.window (s.arg 0) (s.arg 1)) (s.arg 3 + k.val) 4
      (s.arg 1 + 1) m ⟨pos, s.arg 2, 0⟩
    Runs (decoding s m ⟨pos, s.arg 2, 0⟩ ⟨k, pos, lens⟩) (channelDecoded s ⟨k, pos, lens⟩ r) ∧
      r.dec.pos ≤ s.arg 1 ∧ SameBytes (s.arg 0) (s.arg 1) s.mem r.mem := by
  obtain ⟨-, -, -, hdis⟩ := dcmfrChecks_eq_none_iff.1 hc
  have hsep : ∀ t < s.arg 2,
      ¬ (s.arg 0 ≤ s.arg 3 + k.val + 4 * t ∧ s.arg 3 + k.val + 4 * t < s.arg 0 + s.arg 1) := by
    intro t ht
    omega
  obtain ⟨-, hpos', -⟩ := decodeChannel_counts (rej := s.params.decRejectNoncanonical) (src := s.mem)
    (base := s.arg 0) (dst := s.arg 3 + k.val) (stride := 4) (s.arg 1 + 1) m ⟨pos, s.arg 2, 0⟩ hpos
  refine ⟨?_, hpos', decodeChannel_keeps (fun m t v ht h => h.write (hsep t ht) v) _ _ _ (Nat.zero_add _).le hm⟩
  exact runs_decoding hb hib (decodeJob_dcmfr (s := { s with frame := ⟨k, pos, lens⟩ }) hop) hsep
    (Nat.lt_succ_of_le (Nat.sub_le _ _)) (Nat.zero_add _).le hm

/-- DCMFR from the start of channel `k` on. -/
theorem runs_dcmfr_channels (hb : s.busy = true) (hib : s.inbox = []) (hop : s.runningOp = 0x05)
    (hc : firstError (dcmfrChecks s.params.maxPixels s.arg) = none) (k : Fin 4) :
    ∀ (m : Memory) (pos : Nat) (lens : List Nat), pos ≤ s.arg 1 → SameBytes (s.arg 0) (s.arg 1) s.mem m →
      Runs (decoding s m ⟨pos, s.arg 2, 0⟩ ⟨k, pos, lens⟩)
        (frameDecoded s (decodeChannels s.params.decRejectNoncanonical (s.mem.window (s.arg 0) (s.arg 1)) (s.arg 1 + 1)
          (s.arg 3) (s.arg 2) (channelsFrom k) m pos lens)) := by
  induction k using channel_induction with
  | last =>
    intro m pos lens hpos hm
    obtain ⟨hrun, -, -⟩ := runs_dcmfr_channel hb hib hop hc 3 lens hpos hm
    rw [channelsFrom_last]
    generalize hr : decodeChannel _ _ _ _ _ _ _ = r at hrun
    cases he : r.err with
    | some e => rwa [decodeChannels_cons_of_failed hr he, ← channelDecoded_frame_of_failed he ⟨3, pos, lens⟩]
    | none =>
      rw [channelDecoded_of_done he, decodeEnd_last hop rfl] at hrun
      rwa [decodeChannels_cons_of_done hr he]
  | prev k hk ih =>
    intro m pos lens hpos hm
    obtain ⟨hrun, hpos', hm'⟩ := runs_dcmfr_channel hb hib hop hc k lens hpos hm
    rw [channelsFrom_next hk]
    generalize hr : decodeChannel _ _ _ _ _ _ _ = r at hrun hpos' hm'
    cases he : r.err with
    | some e => rwa [decodeChannels_cons_of_failed hr he, ← channelDecoded_frame_of_failed he ⟨k, pos, lens⟩]
    | none =>
      rw [channelDecoded_of_done he, decodeEnd_next hop hk] at hrun
      rw [decodeChannels_cons_of_done hr he]
      exact hrun.trans (ih r.mem r.dec.pos _ hpos' hm')

/-- DCMFR (42 R229). -/
theorem runs_dcmfr (hb : s.busy = true) (hib : s.inbox = []) (hop : s.runningOp = 0x05)
    (hc : firstError (dcmfrChecks s.params.maxPixels s.arg) = none) :
    Runs (startDecode (s.arg 2) s) (dcmfrBody s) := by
  have hrun := runs_dcmfr_channels hb hib hop hc 0 s.mem 0 [] (Nat.zero_le _) fun _ _ _ => rfl
  rw [channelsFrom_zero] at hrun
  rw [startDecode_eq, dcmfrBody_eq]
  exact hrun

end

/-- Settles O59: from its first boundary DECCH runs one channel decode and DCMFR four. -/
theorem recordByRecordDecodingAgrees : Obligations.RecordByRecordDecodingAgrees := by
  intro s l hb hp hl hib i hi hd
  simp only [List.mem_cons, List.not_mem_nil, or_false] at hi
  rcases hi with rfl | rfl
  · have hop : s.runningOp ≠ 0x05 := by
      rw [runningOp_of_decoded hl hd rfl]
      decide
    exact begun_run_agrees hb hp hl hib hd rfl rfl (runs_decch hb hib hop)
  · exact begun_run_agrees hb hp hl hib hd rfl rfl (runs_dcmfr hb hib (runningOp_of_decoded hl hd rfl))

end Sys2Proof.Machine

/-!
## The container's failures (60_exceptions)

WRGH and WRFR end in one of three ways: a check fails (`exec_wrgh_reports`, `exec_wrfr_reports`), the sink leaves an append
unanswered (`exec_wrgh_hangs`, `exec_wrfr_hangs`), or they go on as every other command does (`exec_wrgh_of_not_hangs`,
`exec_wrfr_of_not_hangs`); in the last case a rejected append ends them by an IoError (`exec_of_sinkRejects`).
-/

namespace Sys2Proof.Machine

/-! ### The checks of the container commands (43 R254 to R256) -/

theorem open_check_fails {c : CwState} (h1 : c ≠ .hdr) (h2 : c ≠ .frame) : (c != .hdr && c != .frame) = true := by
  rw [bne_iff_ne.2 h1, bne_iff_ne.2 h2, Bool.and_self]

theorem wrghChecks_eq_none {c : CwState} (h : c = .uninit) : firstError (wrghChecks c) = none := by
  rw [h]
  rfl

theorem wrfrChecks_eq_none {c : CwState} {a : Fin 8 → Nat} (hc : c = .hdr ∨ c = .frame) (hr : a 5 + a 6 ≤ 2 ^ 32) :
    firstError (wrfrChecks c a) = none := by
  rw [wrfrChecks, open_check_passes hc, wraps_eq_false.2 hr]
  rfl

/-! ### The three ways through WRGH and WRFR -/

section
variable {s : State}

theorem exec_wrgh_hangs (hc : firstError (wrghChecks s.cwState) = none) (h : sinkHangs s.sinkPlan 24 = true) :
    exec .wrgh s = .fault .sinkNeverAnswers := by
  rw [exec, execWrgh, hc, wrghBytes_length, h]
  rfl

theorem exec_wrgh_of_not_hangs (h : sinkHangs s.sinkPlan 24 = false) :
    exec .wrgh s = .next (guarded (wrghChecks s.cwState) wrghBody s) := by
  rw [exec, execWrgh, wrghBytes_length, h, Bool.and_false]
  rfl

theorem exec_wrgh_reports {e : BlockError} (hc : firstError (wrghChecks s.cwState) = some e) :
    ∃ t, exec .wrgh s = .next t ∧
      OnlyReported (errorCode e).toNat (errorSub e) (errorChannel e) (errorArgIdx e) (errorInfo s.running.args e) s t := by
  rw [exec, execWrgh, hc]
  exact guarded_next_reports wrghBody s hc

theorem exec_wrfr_hangs (hc : firstError (wrfrChecks s.cwState s.arg) = none)
    (h : sinkHangs s.sinkPlan (24 + s.arg 6 + pad (s.arg 6)) = true) :
    exec .wrfr s = .fault .sinkNeverAnswers := by
  rw [exec, execWrfr, hc, wrfrBytes_length, h]
  rfl

theorem exec_wrfr_of_not_hangs (h : sinkHangs s.sinkPlan (24 + s.arg 6 + pad (s.arg 6)) = false) :
    exec .wrfr s = .next (guarded (wrfrChecks s.cwState s.arg) wrfrBody s) := by
  rw [exec, execWrfr, wrfrBytes_length, h, Bool.and_false]
  rfl

theorem exec_wrfr_reports {e : BlockError} (hc : firstError (wrfrChecks s.cwState s.arg) = some e) :
    ∃ t, exec .wrfr s = .next t ∧
      OnlyReported (errorCode e).toNat (errorSub e) (errorChannel e) (errorArgIdx e) (errorInfo s.running.args e) s t := by
  rw [exec, execWrfr, hc]
  exact guarded_next_reports wrfrBody s hc

end

/-! ### A rejected append (43 R253, R260, 60 R323) -/

/-- The state after the sink has accepted the first `k` bytes and rejected the next, with the answers `rest` still planned. -/
def sinkRejects (bytes : List Byte) (k : Nat) (rest : List SinkAnswer) (s : State) : State :=
  { s with
    sink := s.sink ++ bytes.take k
    sinkOff := s.sinkOff + BitVec.ofNat 32 k
    sinkPlan := rest
    cwState := .failed }

section
variable {s : State} {k : Nat} {rest : List SinkAnswer}

theorem sinkThen_rejected {bytes : List Byte} (hp : s.sinkPlan = List.replicate k .ok ++ .fail :: rest)
    (hk : k < bytes.length) (done : State → State) :
    sinkThen bytes done s = raise (.io k) (sinkRejects bytes k rest s) := by
  rw [sinkThen, sinkWrite_rejected hp hk, Nat.zero_add, sinkRejects]

/-- What a command that ends by an IoError reports and leaves; its ERRINFO1 is `k` where `k` fits the register (log 27). -/
theorem exec_of_sinkRejects {i : Instr} {bytes : List Byte}
    (h : exec i s = .next (raise (.io k) (sinkRejects bytes k rest s))) :
    ∃ (t : State) (info : Word), exec i s = .next t ∧ Reported 3 0 0 0 info s t ∧
      (k < 2 ^ 32 → info = BitVec.ofNat 32 k) ∧ t.cwState = .failed ∧
      t.sink = s.sink ++ bytes.take k ∧ t.sinkOff = s.sinkOff + BitVec.ofNat 32 k ∧ t.sinkPlan = rest ∧
      t.frames = s.frames ∧ SameHostSide s t ∧ t.mem = s.mem ∧ t.draws = s.draws := by
  obtain ⟨hrep, ⟨hcw, hoff, hframes, hsink, hplan⟩, hhost, hmem, hdraws⟩ :=
    raise_spec (.io k) (sinkRejects bytes k rest s)
  exact ⟨_, word32 k, h, hrep, word32_of_lt, hcw, hsink, hoff, hplan, hframes, hhost, hmem, hdraws⟩

end

/-- Settles O42: the checks pass, nothing hangs before the rejection, and both commands end by an IoError. -/
theorem sinkRejectionFailsTheContainer : Obligations.SinkRejectionFailsTheContainer := by
  intro s k rest hp
  refine ⟨fun hs hk => exec_of_sinkRejects ?_, fun hs hr hk => exec_of_sinkRejects ?_⟩
  · rw [exec_wrgh_of_not_hangs (hp ▸ sinkHangs_rejected hk rest), guarded_of_none (wrghChecks_eq_none hs), wrghBody,
      sinkThen_rejected hp (by rwa [wrghBytes_length])]
  · rw [exec_wrfr_of_not_hangs (hp ▸ sinkHangs_rejected hk rest), guarded_of_none (wrfrChecks_eq_none hs hr), wrfrBody,
      sinkThen_rejected hp (by rwa [wrfrBytes_length])]

/-! ### An unanswered append (60 R341, 44 R305) -/

/-- Only WRGH and WRFR ask the sink, so every other instruction leads to a next state. -/
theorem exec_next_of_not_append (s : State) {i : Instr} (h1 : i ≠ .wrgh) (h2 : i ≠ .wrfr) : ∃ t, exec i s = .next t := by
  cases i with
  | wrgh => exact absurd rfl h1
  | wrfr => exact absurd rfl h2
  | _ => exact ⟨_, rfl⟩

/-- Settles O43: past the checks, WRGH and WRFR stop exactly where `sinkHangs` finds an unanswered append. -/
theorem onlyAnUnansweredSinkStops : Obligations.OnlyAnUnansweredSinkStops := by
  refine ⟨fun s k rest hp => ⟨fun hs hk => ?_, fun hs hr hk => ?_⟩, fun s i hn => ?_,
    fun s i h1 h2 => exec_next_of_not_append s h1 h2⟩
  · exact exec_wrgh_hangs (wrghChecks_eq_none hs) (hp ▸ sinkHangs_never hk rest)
  · exact exec_wrfr_hangs (wrfrChecks_eq_none hs hr) (hp ▸ sinkHangs_never hk rest)
  · by_cases h1 : i = .wrgh
    · exact h1 ▸ ⟨_, exec_wrgh_of_not_hangs (sinkHangs_of_not_mem hn _)⟩
    · by_cases h2 : i = .wrfr
      · exact h2 ▸ ⟨_, exec_wrfr_of_not_hangs (sinkHangs_of_not_mem hn _)⟩
      · exact exec_next_of_not_append s h1 h2

/-! ### The state table (43 R250, R255, 60 R324) -/

/-- A guarded command acts beside CWSTATE if its body does: the error report has no place for it (60 R335). -/
theorem guarded_withCwState {cs : List (Bool × BlockError)} {body : State → State} {s : State} {c : CwState}
    (h : body { s with cwState := c } = { body s with cwState := c }) :
    guarded cs body { s with cwState := c } = { guarded cs body s with cwState := c } := by
  rcases guarded_cases cs body s with ⟨hc, hg⟩ | ⟨e, -, hc, hg⟩
  · rw [hg, guarded_of_none hc, h]
  · rw [hg, guarded_of_some hc]
    rfl

/-- Only a container command's append or end, and SRST, write CWSTATE. -/
theorem cwState_of_exec {i : Instr} {s t : State} (h : exec i s = .next t) (hsrst : i ≠ .srst) (h1 : i ≠ .wrgh)
    (h2 : i ≠ .wrfr) (h3 : i ≠ .close) : t.cwState = s.cwState := by
  obtain ⟨-, -, hkeep⟩ := commandsKeepWhatTheyDoNotName i s t h hsrst
  exact (hkeep h1 h2 h3).1

/-- Settles O44: the check on CWSTATE is the first and its error has the state as subcode; the checks and the bodies of PRGH and
PRFH do not mention CWSTATE. -/
theorem containerStateTable : Obligations.ContainerStateTable := by
  refine ⟨fun s hs => ?_, fun s h1 h2 => ⟨?_, ?_⟩, fun s hs hr => ?_, fun s c i hi => ?_⟩
  · have hc : firstError (wrghChecks s.cwState) = some (.invalidUsage s.cwState) := by
      simp [wrghChecks, firstError_cons, hs]
    exact exec_wrgh_reports hc
  · have hc : firstError (wrfrChecks s.cwState s.arg) = some (.invalidUsage s.cwState) := by
      rw [wrfrChecks, open_check_fails h1 h2, firstError_cons_true]
    exact exec_wrfr_reports hc
  · have hc : firstError (closeChecks s.cwState) = some (.invalidUsage s.cwState) := by
      rw [closeChecks, open_check_fails h1 h2, firstError_cons_true]
    exact guarded_next_reports closeBody s hc
  · have hc : firstError (wrfrChecks s.cwState s.arg) = some (.argument .rangeWrap 5) := by
      rw [wrfrChecks, open_check_passes hs, wraps_eq_true.2 hr, firstError_cons_false, firstError_cons_true]
    exact exec_wrfr_reports hc
  · simp only [List.mem_cons, List.not_mem_nil, or_false] at hi
    rcases hi with rfl | rfl
    · exact ⟨_, rfl, congrArg Host.Outcome.next (guarded_withCwState rfl),
        cwState_of_exec (i := .prgh) rfl nofun nofun nofun nofun⟩
    · exact ⟨_, rfl, congrArg Host.Outcome.next (guarded_withCwState rfl),
        cwState_of_exec (i := .prfh) rfl nofun nofun nofun nofun⟩

end Sys2Proof.Machine

/-!
## The reset input (70_reset_and_hazards)

With either value of BUSY the block ends in `softReset`, which touches neither memory nor the sink. Before it, a running command goes
through `abortCommand`, which reaches only the command's destination range and the end of the sink.
-/

namespace Sys2Proof.Machine

theorem softReset_atResetValues (s : State) : AtResetValues (softReset s) := by
  simp [AtResetValues, AtResetValuesButArgs, encIdle, decIdle, frameIdle]

theorem resetInput_idle {s : State} (hb : s.busy = false) : resetInput s = softReset s :=
  if_neg (by simp [hb])

theorem resetInput_busy {s : State} (hb : s.busy = true) : resetInput s = softReset (abortCommand s) := if_pos hb

/-- 70 R372: an aborted command leaves every byte outside its destination range as it was. -/
theorem abortCommand_sameMemOutside (s : State) :
    SameMemOutside (activeDest s).1 (activeDest s).2 s (abortCommand s) :=
  fun a ha => read_forgetRange_outside (by omega) s.mem (s.draws + 1)

/-- Settles O14: the range and the bytes of the aborted command do not depend on the host's list. -/
theorem resetInputResetsTheBlock : Obligations.ResetInputResetsTheBlock := by
  intro s rest h
  rw [step_of_pending h, hostTurn]
  refine ⟨fun hb => ?_, fun hb => ?_⟩
  · rw [resetInput_idle (s := { s with inbox := rest }) hb]
    exact ⟨_, rfl, softReset_atResetValues _, rfl, rfl, rfl, rfl, rfl, rfl, rfl⟩
  · rw [resetInput_busy (s := { s with inbox := rest }) hb]
    exact ⟨_, Config.freeCount s.draws, rfl, softReset_atResetValues _,
      abortCommand_sameMemOutside { s with inbox := rest }, rfl, rfl, rfl⟩

end Sys2Proof.Machine
